-- ==== Sys2Proof/Word.lean ====
section
/-! DEFINITION. The word types of the block (spec 00_scope.md R13, R14; 30_encoding.md R100). -/
namespace Sys2Proof

/-- One byte. -/
abbrev Byte := BitVec 8

/-- One 32-bit word: a command word, a chunk, an output pixel, a counter. -/
abbrev Word := BitVec 32

/-- A 16-bit CPU address or port address (R70). -/
abbrev Addr := BitVec 16

end Sys2Proof
end

