-- ==== Sys2Proof/Syntax.lean ====
section
/-! DEFINITION. The 24 commands (spec 30_encoding.md R106): one constructor per row of spec/opcode_table.json.
An address or port operand is a natural number: a command word gives only values below 0x10000 (R101), and the hook
interface of 20_memory.md R79 may give any (log 8). Every other operand has the width of its field (R102). -/
namespace Sys2Proof

/-- A command with its operands. -/
inductive Instr where
  | fetch (a : Nat)
  | read (a : Nat)
  | write (a : Nat) (d : Byte)
  | tick (n : BitVec 24)
  | inp (p : Nat)
  | out (p : Nat) (d : Byte)
  | stepend (pc : Nat)
  | run
  | stop
  | reset
  | poke (a : Nat) (d : Byte)
  | pokep (pg : BitVec 3) (off : BitVec 14) (d : Byte)
  | setsp (v : BitVec 16)
  | setpc (v : BitVec 16)
  | portset (p : Nat) (v : Byte)
  | setmark (a : Nat) (f : BitVec 2)
  | tlimit (e : Bool) (v : BitVec 24)
  | flimit (e : Bool) (v : BitVec 24)
  | intsup (e : Bool)
  | render (t : BitVec 24)
  | newframe
  | bank (v : Byte)
  | getframe
  | getgeom
  deriving DecidableEq, Repr

/-- The rows of the opcode map (R106), by name. -/
inductive Mnemonic where
  | fetch | read | write | tick | inp | out | stepend | run | stop | reset | poke | pokep
  | setsp | setpc | portset | setmark | tlimit | flimit | intsup | render | newframe | bank
  | getframe | getgeom
  deriving DecidableEq, Repr

/-- The row a command belongs to. -/
def Instr.mnemonic : Instr → Mnemonic
  | .fetch _ => .fetch
  | .read _ => .read
  | .write _ _ => .write
  | .tick _ => .tick
  | .inp _ => .inp
  | .out _ _ => .out
  | .stepend _ => .stepend
  | .run => .run
  | .stop => .stop
  | .reset => .reset
  | .poke _ _ => .poke
  | .pokep _ _ _ => .pokep
  | .setsp _ => .setsp
  | .setpc _ => .setpc
  | .portset _ _ => .portset
  | .setmark _ _ => .setmark
  | .tlimit _ _ => .tlimit
  | .flimit _ _ => .flimit
  | .intsup _ => .intsup
  | .render _ => .render
  | .newframe => .newframe
  | .bank _ => .bank
  | .getframe => .getframe
  | .getgeom => .getgeom

/-- The address or port operand that 60_exceptions.md R281 lists for code 1, if the command has one. -/
def Instr.address? : Instr → Option Nat
  | .fetch a => some a
  | .read a => some a
  | .write a _ => some a
  | .inp p => some p
  | .out p _ => some p
  | .stepend pc => some pc
  | .poke a _ => some a
  | .portset p _ => some p
  | .setmark a _ => some a
  | .tick _ => none
  | .run => none
  | .stop => none
  | .reset => none
  | .pokep _ _ _ => none
  | .setsp _ => none
  | .setpc _ => none
  | .tlimit _ _ => none
  | .flimit _ _ => none
  | .intsup _ => none
  | .render _ => none
  | .newframe => none
  | .bank _ => none
  | .getframe => none
  | .getgeom => none

end Sys2Proof
end

