-- ==== Sys2Proof/WellFormed.lean ====
section
/-! DEFINITION. Which commands a command word can hold (spec 30_encoding.md R101: "no command word can name an address
outside the 16-bit space"). Every other field has its width in its type. -/
namespace Sys2Proof

/-- Nine commands carry an address or port operand; it must fit the 16-bit A field. -/
def Instr.wellFormed (i : Instr) : Bool :=
  match i.address? with
  | some a => decide (a < 0x10000)
  | none => true

end Sys2Proof
end

