-- ==== Sys2Proof/Decode.lean ====
section
/-! DEFINITION. Decoding and encoding of command words (spec 30_encoding.md R100 to R102, R106, R107, R109, R120). -/
namespace Sys2Proof

/-- Why a word is no command: 60_exceptions.md R281 codes 3 and 4. -/
inductive DecodeError where
  | illegalOpcode
  | reservedField
  deriving DecidableEq, Repr

/-- The OP column of R106. -/
def Mnemonic.opcode : Mnemonic → BitVec 5
  | .fetch => 0x01
  | .read => 0x02
  | .write => 0x03
  | .tick => 0x04
  | .inp => 0x05
  | .out => 0x06
  | .stepend => 0x07
  | .run => 0x08
  | .stop => 0x09
  | .reset => 0x0A
  | .poke => 0x0B
  | .pokep => 0x0C
  | .setsp => 0x0D
  | .setpc => 0x0E
  | .portset => 0x0F
  | .setmark => 0x10
  | .tlimit => 0x11
  | .flimit => 0x12
  | .intsup => 0x13
  | .render => 0x14
  | .newframe => 0x15
  | .bank => 0x16
  | .getframe => 0x17
  | .getgeom => 0x18

/-- The row an OP value selects (R106, R107: 0x00 and 0x19..0x1F select none). -/
def Mnemonic.ofOpcode (op : BitVec 5) : Option Mnemonic :=
  match op.toNat with
  | 0x01 => some .fetch
  | 0x02 => some .read
  | 0x03 => some .write
  | 0x04 => some .tick
  | 0x05 => some .inp
  | 0x06 => some .out
  | 0x07 => some .stepend
  | 0x08 => some .run
  | 0x09 => some .stop
  | 0x0A => some .reset
  | 0x0B => some .poke
  | 0x0C => some .pokep
  | 0x0D => some .setsp
  | 0x0E => some .setpc
  | 0x0F => some .portset
  | 0x10 => some .setmark
  | 0x11 => some .tlimit
  | 0x12 => some .flimit
  | 0x13 => some .intsup
  | 0x14 => some .render
  | 0x15 => some .newframe
  | 0x16 => some .bank
  | 0x17 => some .getframe
  | 0x18 => some .getgeom
  | _ => none

/-- The must-be-zero bits of a row: the zero bits of its format (R101) and the further ones of R106. -/
def Mnemonic.zeroMask : Mnemonic → Word
  | .fetch => 0x070000FF
  | .read => 0x070000FF
  | .write => 0x07000000
  | .tick => 0x07000000
  | .inp => 0x070000FF
  | .out => 0x07000000
  | .stepend => 0x070000FF
  | .run => 0x07FFFFFF
  | .stop => 0x07FFFFFF
  | .reset => 0x07FFFFFF
  | .poke => 0x07000000
  | .pokep => 0x00000300
  | .setsp => 0x070000FF
  | .setpc => 0x070000FF
  | .portset => 0x07000000
  | .setmark => 0x070000FC
  | .tlimit => 0x03000000
  | .flimit => 0x03000000
  | .intsup => 0x03FFFFFF
  | .render => 0x07000000
  | .newframe => 0x07FFFFFF
  | .bank => 0x07FFFF00
  | .getframe => 0x07FFFFFF
  | .getgeom => 0x07FFFFFF

/-- OP = w[31:27] (R100). -/
def fieldOp (w : Word) : BitVec 5 := w.extractLsb' 27 5
/-- A = w[23:8] (R102). -/
def fieldA (w : Word) : BitVec 16 := w.extractLsb' 8 16
/-- D = w[7:0] (R102). -/
def fieldD (w : Word) : BitVec 8 := w.extractLsb' 0 8
/-- SETMARK's D[1:0] (R106). -/
def fieldFlags (w : Word) : BitVec 2 := w.extractLsb' 0 2
/-- E = w[26] (R102). -/
def fieldE (w : Word) : Bool := w.getLsbD 26
/-- V = w[23:0] (R102). -/
def fieldV (w : Word) : BitVec 24 := w.extractLsb' 0 24
/-- PG = w[26:24] (R102). -/
def fieldPg (w : Word) : BitVec 3 := w.extractLsb' 24 3
/-- OFF = w[23:10] (R102). -/
def fieldOff (w : Word) : BitVec 14 := w.extractLsb' 10 14

/-- The command of a row with the fields of a word (R102, R106). -/
def Mnemonic.operands (m : Mnemonic) (w : Word) : Instr :=
  match m with
  | .fetch => .fetch (fieldA w).toNat
  | .read => .read (fieldA w).toNat
  | .write => .write (fieldA w).toNat (fieldD w)
  | .tick => .tick (fieldV w)
  | .inp => .inp (fieldA w).toNat
  | .out => .out (fieldA w).toNat (fieldD w)
  | .stepend => .stepend (fieldA w).toNat
  | .run => .run
  | .stop => .stop
  | .reset => .reset
  | .poke => .poke (fieldA w).toNat (fieldD w)
  | .pokep => .pokep (fieldPg w) (fieldOff w) (fieldD w)
  | .setsp => .setsp (fieldA w)
  | .setpc => .setpc (fieldA w)
  | .portset => .portset (fieldA w).toNat (fieldD w)
  | .setmark => .setmark (fieldA w).toNat (fieldFlags w)
  | .tlimit => .tlimit (fieldE w) (fieldV w)
  | .flimit => .flimit (fieldE w) (fieldV w)
  | .intsup => .intsup (fieldE w)
  | .render => .render (fieldV w)
  | .newframe => .newframe
  | .bank => .bank (fieldD w)
  | .getframe => .getframe
  | .getgeom => .getgeom

/-- R120 without the phase check, which needs the state: opcode first, then the must-be-zero bits. Total on any word. -/
def decode (w : Word) : Except DecodeError Instr :=
  match Mnemonic.ofOpcode (fieldOp w) with
  | none => .error .illegalOpcode
  | some m => if w &&& m.zeroMask = 0 then .ok (m.operands w) else .error .reservedField

/-! The encoder, from the formats of R101. -/

/-- Format F-A. -/
def formatA (m : Mnemonic) (a : BitVec 16) (d : BitVec 8) : Word := m.opcode ++ 0#3 ++ a ++ d
/-- Format F-V. -/
def formatV (m : Mnemonic) (e : Bool) (v : BitVec 24) : Word := m.opcode ++ BitVec.ofBool e ++ 0#2 ++ v
/-- Format F-P. -/
def formatP (m : Mnemonic) (pg : BitVec 3) (off : BitVec 14) (d : BitVec 8) : Word :=
  m.opcode ++ pg ++ off ++ 0#2 ++ d
/-- Format F-N. -/
def formatN (m : Mnemonic) : Word := m.opcode ++ 0#27

/-- The command word of a command. Of an address that fits no A field it holds the low 16 bits (log 8); for every
well-formed command it is the word of R106. -/
def encode : Instr → Word
  | .fetch a => formatA .fetch (BitVec.ofNat 16 a) 0
  | .read a => formatA .read (BitVec.ofNat 16 a) 0
  | .write a d => formatA .write (BitVec.ofNat 16 a) d
  | .tick n => formatV .tick false n
  | .inp p => formatA .inp (BitVec.ofNat 16 p) 0
  | .out p d => formatA .out (BitVec.ofNat 16 p) d
  | .stepend pc => formatA .stepend (BitVec.ofNat 16 pc) 0
  | .run => formatN .run
  | .stop => formatN .stop
  | .reset => formatN .reset
  | .poke a d => formatA .poke (BitVec.ofNat 16 a) d
  | .pokep pg off d => formatP .pokep pg off d
  | .setsp v => formatA .setsp v 0
  | .setpc v => formatA .setpc v 0
  | .portset p v => formatA .portset (BitVec.ofNat 16 p) v
  | .setmark a f => formatA .setmark (BitVec.ofNat 16 a) (f.setWidth 8)
  | .tlimit e v => formatV .tlimit e v
  | .flimit e v => formatV .flimit e v
  | .intsup e => formatV .intsup e 0
  | .render t => formatV .render false t
  | .newframe => formatN .newframe
  | .bank v => formatA .bank 0 v
  | .getframe => formatN .getframe
  | .getgeom => formatN .getgeom

/-- A table word as a command word: the low `nbits` bits of `w`, every bit above them 0. -/
def tableWord (nbits w : Nat) : Word := BitVec.ofNat 32 (w % 2 ^ nbits)

/-- The command the decoder reads from a word of the opcode table; none where it refuses. -/
def decodeTableWord (nbits w : Nat) : Option Instr :=
  match decode (tableWord nbits w) with
  | .ok i => some i
  | .error _ => none

end Sys2Proof
end

