-- ==== Sys2Proof/Config.lean ====
section
/-! DEFINITION. The configuration of the block (spec 00_scope.md R9, R10) and the model's one free value.
CONTENTION_WAIT is a function of a 32-bit tick; it is held as a fill value and a list of exceptions, which can give any
such function and keeps State plain data (log 4). The ROM images are held the same way (log 12). -/
namespace Sys2Proof

/-- One ROM page: every byte is `fill` but the listed offsets (10_state.md R34). -/
structure RomPage where
  fill  : Byte
  cells : List (Nat × Byte)
  deriving DecidableEq, Repr

/-- The arguments of construction (R10), not yet checked. -/
structure RawConfig where
  tpl             : Nat
  lpf             : Nat
  frameTickOffset : Int
  bw              : Nat
  bt              : Nat
  bb              : Nat
  intLen          : Nat
  waitFill        : BitVec 24
  waitCells       : List (Nat × BitVec 24)
  lNormal         : Byte
  lBright         : Byte
  portDefault     : Byte
  rom0            : RomPage
  rom1            : RomPage
  rom2            : RomPage
  rom3            : RomPage
  deriving DecidableEq, Repr

/-- R10 "Constraints a configuration must meet". The bounds on CONTENTION_WAIT, INT_LEN and the levels hold by their
types. LPF >= 1 is DEDUCED from R14, which takes remainders by FRAME_LEN only for a positive one (log 5). -/
def RawConfig.valid (r : RawConfig) : Bool :=
  decide (r.bw % 4 = 0) && decide (8 ≤ r.bw) && decide (2 * r.bw + 256 ≤ 2 * r.tpl)
    && decide (1 ≤ r.bt + 192 + r.bb) && decide (1 ≤ r.lpf)

/-- A configuration the block can be built with. A value that breaks a constraint cannot be built (I28). -/
structure Config extends RawConfig where
  ok : toRawConfig.valid = true
  deriving DecidableEq, Repr

/-- 93_implementation_defined.md I28: a model must reject an invalid configuration. -/
def Config.accept (r : RawConfig) : Option Config :=
  if h : r.valid = true then some { toRawConfig := r, ok := h } else none

/-- The defaults of R10, with the ROM images as arguments: they have no default. -/
def RawConfig.defaults (r0 r1 r2 r3 : RomPage) : RawConfig :=
  { tpl := 224, lpf := 320, frameTickOffset := -7168, bw := 32, bt := 48, bb := 48, intLen := 32,
    waitFill := 0, waitCells := [], lNormal := 0xC0, lBright := 0xFF, portDefault := 0xFF,
    rom0 := r0, rom1 := r1, rom2 := r2, rom3 := r3 }

/-- The default configuration with the ROM images of 95_test_vectors.md section 0: `ROM_IMAGE[p][o] = 0xA0 | p`.
DESIGN CHOICE (log 3): R10 requires ROM images and gives none. -/
def Config.default : Config :=
  { toRawConfig := RawConfig.defaults ⟨0xA0, []⟩ ⟨0xA1, []⟩ ⟨0xA2, []⟩ ⟨0xA3, []⟩, ok := by decide }

/-- FREE VALUE, no body: the 32-bit cursor after a render to tick 2^32 (log 6). -/
opaque Config.freeCursor : Nat → BitVec 32

end Sys2Proof
end

