-- ==== Sys2Proof/Machine/Table.lean ====
section
/-! DEFINITION. Sparse tables: finite maps on natural numbers as sorted lists in one canonical form. RAM, the ROM
images, the mark table, the port-injection table and CONTENTION_WAIT are held this way (log 4, log 12). -/
namespace Sys2Proof

/-- Keys strictly rising, no entry equal to what an unlisted key reads as. -/
abbrev Table (α : Type) := List (Nat × α)

/-- The value at a key; `d` is what an unlisted key reads as. -/
def Table.get {α : Type} (d : α) : Table α → Nat → α
  | [], _ => d
  | (k, v) :: t, n => if k = n then v else Table.get d t n

/-- Write a value at a key, keeping the canonical form: writing `d` removes the entry. -/
def Table.set {α : Type} [DecidableEq α] (d : α) : Table α → Nat → α → Table α
  | [], n, v => if v = d then [] else [(n, v)]
  | (k, w) :: t, n, v =>
    if n < k then (if v = d then (k, w) :: t else (n, v) :: (k, w) :: t)
    else if n = k then (if v = d then t else (n, v) :: t)
    else (k, w) :: Table.set d t n v

/-- Canonical, with every key at least `lo` and below `bound`. -/
def Table.wfFrom {α : Type} [DecidableEq α] (d : α) (bound : Nat) : Nat → Table α → Bool
  | _, [] => true
  | lo, (k, v) :: t => decide (lo ≤ k) && decide (k < bound) && decide (v ≠ d) && Table.wfFrom d bound (k + 1) t

/-- The canonical form of a table with keys below `bound`. -/
def Table.wf {α : Type} [DecidableEq α] (d : α) (bound : Nat) (t : Table α) : Bool :=
  Table.wfFrom d bound 0 t

end Sys2Proof
end

