-- ==== Sys2Proof/Machine/Geometry.lean ====
section
/-! DEFINITION. What is derived from the configuration (spec 00_scope.md R10, R11): frame length, image size, chunks
per row, the contention function and the ROM bytes. -/
namespace Sys2Proof

/-- FRAME_LEN = TPL * LPF (R10). -/
def Config.frameLen (c : Config) : Nat := c.tpl * c.lpf
/-- W = 2*BW + 256 (R11). -/
def Config.width (c : Config) : Nat := 2 * c.bw + 256
/-- H = BT + 192 + BB (R11). -/
def Config.height (c : Config) : Nat := c.bt + 192 + c.bb
/-- CPR = W / 8 (R11). -/
def Config.chunksPerRow (c : Config) : Nat := c.width / 8
/-- CONTENTION_WAIT(t) (R10, 40_bus.md R131). -/
def Config.contentionWait (c : Config) (t : Nat) : Nat := (Table.get c.waitFill c.waitCells t).toNat

/-- The image of ROM page p. -/
def Config.romPage (c : Config) (p : BitVec 2) : RomPage :=
  match p.toNat with
  | 0 => c.rom0
  | 1 => c.rom1
  | 2 => c.rom2
  | _ => c.rom3

/-- `rom[p][o]` (10_state.md R34). -/
def Config.romByte (c : Config) (p : BitVec 2) (o : BitVec 14) : Byte :=
  Table.get (c.romPage p).fill (c.romPage p).cells o.toNat

end Sys2Proof
end

