-- ==== Sys2Proof/Machine/State.lean ====
section
/-! DEFINITION. The state of the block (spec 10_state.md R30 to R55), and its construction (43_host.md R242). -/
namespace Sys2Proof.Machine

/-- An entry of the Memory Slot Table (R35). -/
inductive SlotRef where
  | rom (p : BitVec 2)
  | ram (p : BitVec 3)
  deriving DecidableEq, Repr

/-- The Memory Slot Table (R35): entry i maps CPU addresses i*0x4000 .. i*0x4000+0x3FFF. -/
structure SlotTable where
  slot0 : SlotRef
  slot1 : SlotRef
  slot2 : SlotRef
  slot3 : SlotRef
  deriving DecidableEq, Repr

/-- The elements only the renderer writes (R37, R44, R45, R46; 41_render.md R180 "State written"). -/
structure Video where
  /-- R37: the next tick to render. -/
  cursor     : BitVec 32
  /-- R44: H rows of CPR chunks, row 0 the top image line. -/
  chunks     : List (List Word)
  /-- R45 -/
  latchPat   : Byte
  /-- R45 -/
  latchAttr  : Byte
  /-- R45 -/
  shadowPat  : Byte
  /-- R45 -/
  shadowAttr : Byte
  /-- R46: false selects the pattern byte next, true the attribute byte. -/
  fetchFf    : Bool
  deriving DecidableEq, Repr

/-- The scheduler phase (R54). -/
inductive Phase where
  | idle
  | awaitStep
  deriving DecidableEq, Repr

/-- The fault codes (60_exceptions.md R281). -/
inductive FaultCode where
  /-- Code 1: an address or port of 0x10000 or more came through the hook interface. -/
  | addrRange
  /-- Code 2: an advance of `tick` would pass 2^32 - 1. -/
  | tickOverflow
  deriving DecidableEq, Repr

/-- The refusal codes (60_exceptions.md R281). -/
inductive RefusalCode where
  /-- Code 3 -/
  | illegalOpcode
  /-- Code 4 -/
  | reservedField
  /-- Code 5 -/
  | busy
  /-- Code 6 -/
  | notRunning
  deriving DecidableEq, Repr

/-- A fault record `(code, info, w)` (60_exceptions.md R282). -/
structure FaultRecord where
  code : FaultCode
  info : Nat
  word : Word
  deriving DecidableEq, Repr

/-- What the last command answered its issuer (30_encoding.md R110, 60_exceptions.md R280; log 9). -/
inductive Response where
  /-- A command that responds with nothing. -/
  | none
  /-- FETCH, READ, IN. -/
  | byte (b : Byte)
  /-- RUN was accepted and has not completed: "Until then RUN has not completed" (R110). -/
  | running
  /-- The event mask, RUN's response, given by the STEPEND that ends the loop (42_scheduler.md R216). -/
  | events (mask : Byte)
  /-- GETFRAME: the triple (W, H, img). -/
  | frame (w h : Nat) (img : List Word)
  /-- GETGEOM: the tuple (BW, BT, BB, W, H). -/
  | geometry (bw bt bb w h : Nat)
  /-- `Refused(code)` (R283). -/
  | refused (code : RefusalCode)
  /-- `Fault(code, info)` (R282). -/
  | fault (code : FaultCode) (info : Nat)
  deriving DecidableEq, Repr

/-- Signals from the block to the CPU core (40_bus.md R150). -/
inductive CpuSignal where
  | int (level : Bool)
  | step
  | reset
  | setSp (v : BitVec 16)
  | setPc (v : BitVec 16)
  deriving DecidableEq, Repr

/-- One entry of the command stream (log 1): a command word, or a call of a hook by an agent whose address arguments
are unbounded integers (20_memory.md R79, log 8). -/
inductive Request where
  | word (w : Word)
  | call (i : Instr)
  deriving DecidableEq, Repr

/-- Physical RAM: (page*16384 + offset, byte) pairs in canonical form; an unlisted byte reads 0x00 (R33). -/
abbrev Memory := List Host.Cell

/-- How many bytes of RAM exist: 8 pages of 16384 (R33). -/
abbrev Memory.size : Nat := 0x20000

/-- The canonical form of RAM: addresses strictly rising and below `Memory.size`, no entry 0x00. -/
def Memory.wf (m : Memory) : Bool := Table.wf (0 : Byte) Memory.size m

/-- The whole state. -/
structure State where
  /-- The configuration (00_scope.md R10): a parameter, which no command changes (log 2). -/
  cfg         : Config
  /-- The command stream not yet taken, oldest first (20_memory.md R87, R90; log 1). -/
  pending     : List Request
  /-- R33 -/
  ram         : Memory
  /-- R35 -/
  slots       : SlotTable
  /-- R38 -/
  bank        : Byte
  /-- R39 -/
  locked      : Bool
  /-- R40 -/
  overlay     : Bool
  /-- R36 -/
  tick        : BitVec 32
  /-- R37, R44, R45, R46 -/
  video       : Video
  /-- R41 -/
  border      : BitVec 3
  /-- R42 -/
  flashMask   : Bool
  /-- R43 -/
  frameCtr    : BitVec 32
  /-- R47 -/
  events      : Byte
  /-- R48: 2-bit entries, an unlisted address reads 0. -/
  marks       : List (Nat × BitVec 2)
  /-- R49 -/
  tlimEn      : Bool
  /-- R49 -/
  tlim        : BitVec 24
  /-- R50 -/
  flimEn      : Bool
  /-- R50 -/
  flim        : BitVec 24
  /-- R50 -/
  fetchCount  : BitVec 32
  /-- R51 -/
  intSuppress : Bool
  /-- R52 -/
  intLine     : Bool
  /-- R53: an unlisted port is `none`. -/
  portOvr     : List (Nat × Option Byte)
  /-- R54 -/
  phase       : Phase
  /-- R55: a set, held without repeats (log 11). -/
  faults      : List FaultRecord
  /-- What the last command answered (R110, R280; log 9). -/
  response    : Response
  /-- What the last command signalled to the CPU core, in order (R150; log 9). -/
  signals     : List CpuSignal
  /-- The MODEL'S OWN counter of free values taken (log 6). -/
  freeCount   : Nat
  deriving DecidableEq, Repr

/-- Faults of the MODEL: none. The spec's own faults (60_exceptions.md R282) leave the machine running with a record in
`faults`, so they are next states (log 7); nothing else stops the block. -/
inductive Fault where
  deriving DecidableEq, Repr

/-- Refusals of the MODEL. The spec's own refusals (60_exceptions.md R283) are responses in a next state (log 7). -/
inductive Refusal where
  /-- Raised by exec's arm for a command that has no meaning yet; safe. No arm raises it. -/
  | notModelled (mnemonic : String)
  deriving DecidableEq, Repr

/-- The outcome of a command. -/
abbrev Result := Host.Outcome State Fault Refusal

/-- The renderer's elements after reset (R37, R44 to R46). -/
def Video.reset (c : Config) : Video :=
  { cursor := 0, chunks := List.replicate c.height (List.replicate c.chunksPerRow 0),
    latchPat := 0, latchAttr := 0, shadowPat := 0, shadowAttr := 0, fetchFf := false }

/-- R35: `[ROM(0), RAM(5), RAM(2), RAM(0)]`. -/
def SlotTable.reset : SlotTable := ⟨.rom 0, .ram 5, .ram 2, .ram 0⟩

/-- The state right after construction (43_host.md R242, 70_reset_and_hazards.md R310, R311). -/
def State.ofConfig (c : Config) : State :=
  { cfg := c, pending := [], ram := [], slots := SlotTable.reset, bank := 0, locked := false, overlay := false,
    tick := 0, video := Video.reset c, border := 0, flashMask := false, frameCtr := 0, events := 0, marks := [],
    tlimEn := false, tlim := 0, flimEn := false, flim := 0, fetchCount := 0, intSuppress := false, intLine := false,
    portOvr := [], phase := .idle, faults := [], response := .none, signals := [.int false, .reset], freeCount := 0 }

/-- Construction from unchecked arguments: an invalid configuration is rejected (93_implementation_defined.md I28). -/
def State.construct (r : RawConfig) : Option State := (Config.accept r).map State.ofConfig

/-- The machine right after reset: construction with the default configuration (R10, log 3). -/
def State.reset : State := State.ofConfig Config.default

end Sys2Proof.Machine
end

