-- ==== Sys2Proof/Machine/Flags.lean ====
section
/-! DEFINITION. Bit flags: the event mask (spec 10_state.md R47), the mark bits (R48), the attribute byte
(30_encoding.md R114) and the colour index (R113). -/
namespace Sys2Proof.Machine

/-- Bit 0, EV_STOP. -/
def evStop : Byte := 0x01
/-- Bit 1, EV_TICK_LIMIT. -/
def evTickLimit : Byte := 0x02
/-- Bit 2, EV_FETCH_LIMIT. -/
def evFetchLimit : Byte := 0x04
/-- Bit 3, EV_BREAKPOINT. -/
def evBreakpoint : Byte := 0x08
/-- Bit 4, EV_END_OF_FRAME. -/
def evEndOfFrame : Byte := 0x10

/-- Set an event bit when its condition holds; the mask accumulates (60_exceptions.md R285). -/
def setEventIf (c : Bool) (ev : Byte) (s : State) : State :=
  { s with events := if c then s.events ||| ev else s.events }

/-- The BP bit of an entry of the mark table (R48). -/
def markBp (f : BitVec 2) : Bool := f.getLsbD 0
/-- The VISITED bit (R48); no rule of the block reads it. -/
def markVisited (f : BitVec 2) : Bool := f.getLsbD 1

/-- INK, bits 2:0 of an attribute byte (R114). -/
def attrInk (a : Byte) : BitVec 3 := a.extractLsb' 0 3
/-- PAPER, bits 5:3. -/
def attrPaper (a : Byte) : BitVec 3 := a.extractLsb' 3 3
/-- BRIGHT, bit 6. -/
def attrBright (a : Byte) : Bool := a.getLsbD 6
/-- FLASH, bit 7. -/
def attrFlash (a : Byte) : Bool := a.getLsbD 7

/-- A colour index (R113): BRIGHT in bit 3, the colour in bits 2:0. -/
def colourIndex (bright : Bool) (col : BitVec 3) : BitVec 4 := BitVec.ofBool bright ++ col

end Sys2Proof.Machine
end

