-- ==== Sys2Proof/Machine/Operands.lean ====
section
/-! DEFINITION. Fields of the operands: addresses (spec 20_memory.md R71), ports (R72), the bank value (10_state.md R38)
and the address ranges of 00_scope.md R9. -/
namespace Sys2Proof.Machine

/-- `slot = a[15:14]` (R71). -/
def slotOf (a : Addr) : BitVec 2 := a.extractLsb' 14 2
/-- `off = a[13:0]` (R71). -/
def offOf (a : Addr) : BitVec 14 := a.extractLsb' 0 14

/-- CONTENDED_LO..CONTENDED_HI (R9, 40_bus.md R131). -/
def inContended (a : Addr) : Bool := decide (0x4000 ≤ a.toNat) && decide (a.toNat ≤ 0x7FFF)
/-- TRAP_LO..TRAP_HI: `isOverlayTrapAddress` (40_bus.md R142). -/
def isOverlayTrapAddress (a : Addr) : Bool := decide (0x3D00 ≤ a.toNat) && decide (a.toNat ≤ 0x3DFF)

/-- Bank-select port: `p[15] = 0` and `p[1] = 0` (R72). -/
def isBankPort (p : Addr) : Bool := !p.getLsbD 15 && !p.getLsbD 1
/-- Border port: `p[0] = 0` (R72). -/
def isBorderPort (p : Addr) : Bool := !p.getLsbD 0

/-- RAMSEL, bits 2:0 (R38). -/
def bankRamsel (v : Byte) : BitVec 3 := v.extractLsb' 0 3
/-- SCRSEL, bit 3 (R38). -/
def bankScrsel (v : Byte) : Bool := v.getLsbD 3
/-- ROMSEL, bit 4 (R38). -/
def bankRomsel (v : Byte) : Bool := v.getLsbD 4
/-- LOCK, bit 5 (R38). -/
def bankLock (v : Byte) : Bool := v.getLsbD 5

/-- Border data D[2:0] (30_encoding.md R116). -/
def borderOf (d : Byte) : BitVec 3 := d.extractLsb' 0 3

end Sys2Proof.Machine
end

