-- ==== Sys2Proof/Machine/Ops.lean ====
section
/-! DEFINITION. The shared operations: how a command begins and ends (spec 30_encoding.md R108, R120; 60_exceptions.md
R280 to R283), memory (20_memory.md R73 to R77), ticks and contention (10_state.md R36, 40_bus.md R131). -/
namespace Sys2Proof.Machine

/-! ## How a command begins and ends -/

/-- A fault raised inside a command: `Fault(code, info)`. -/
structure FaultInfo where
  code : FaultCode
  info : Nat
  deriving DecidableEq, Repr

/-- When a command is accepted (R108). -/
inductive Admission where
  | everyPhase
  | idleOnly
  | awaitStepOnly
  deriving DecidableEq, Repr

/-- R108, command by command. -/
def Admission.of : Mnemonic → Admission
  | .fetch => .everyPhase
  | .read => .everyPhase
  | .write => .everyPhase
  | .tick => .everyPhase
  | .inp => .everyPhase
  | .out => .everyPhase
  | .bank => .everyPhase
  | .render => .everyPhase
  | .newframe => .everyPhase
  | .stop => .everyPhase
  | .stepend => .awaitStepOnly
  | .run => .idleOnly
  | .reset => .idleOnly
  | .poke => .idleOnly
  | .pokep => .idleOnly
  | .setsp => .idleOnly
  | .setpc => .idleOnly
  | .portset => .idleOnly
  | .setmark => .idleOnly
  | .tlimit => .idleOnly
  | .flimit => .idleOnly
  | .intsup => .idleOnly
  | .getframe => .idleOnly
  | .getgeom => .idleOnly

/-- The refusal of a command in a phase that does not admit it (R108); none where it is admitted. -/
def phaseRefusal (a : Admission) (p : Phase) : Option RefusalCode :=
  match a, p with
  | .everyPhase, _ => none
  | .idleOnly, .idle => none
  | .idleOnly, .awaitStep => some .busy
  | .awaitStepOnly, .awaitStep => none
  | .awaitStepOnly, .idle => some .notRunning

/-- The outputs of the command before are gone when the next one starts (log 9). -/
def openCommand (s : State) : State := { s with response := .none, signals := [] }

/-- `respond(v)` (00_scope.md R15). -/
def respond (r : Response) (s : State) : State := { s with response := r }

/-- `cpu_signal(...)` (40_bus.md R150). -/
def cpuSignal (g : CpuSignal) (s : State) : State := { s with signals := s.signals ++ [g] }

/-- `refuse(code, info)` (60_exceptions.md R283): no state element changes; the response says so. DESIGN CHOICE (log
7): the info of R281, the command word, is dropped, since R283's response is `Refused(code)` and no state holds it. -/
def refuseCommand (c : RefusalCode) (s : State) : Result :=
  .next { s with response := .refused c, signals := [] }

/-- Add a record to the fault set (R282). -/
def addFault (r : FaultRecord) (fs : List FaultRecord) : List FaultRecord :=
  if r ∈ fs then fs else fs ++ [r]

/-- `raise Fault(code, info)` (60_exceptions.md R282), from the state BEFORE the command: every change of the command
is discarded, the record is added, the response is the fault, the phase stays. -/
def raiseFault (f : FaultInfo) (w : Word) (s : State) : Result :=
  .next { s with faults := addFault ⟨f.code, f.info, w⟩ s.faults, response := .fault f.code f.info, signals := [] }

/-- Run a command (R120, R280): admission by phase, then its body; a fault in the body rolls everything back. The
command word recorded with a fault is the command's encoding. -/
def perform (i : Instr) (s : State) (body : State → Except FaultInfo State) : Result :=
  match phaseRefusal (Admission.of i.mnemonic) s.phase with
  | some c => refuseCommand c s
  | none =>
    match body (openCommand s) with
    | .ok t => .next t
    | .error f => raiseFault f (encode i) s

/-- The 16-bit address of an operand; one of 0x10000 or more raises code 1 and is never masked (20_memory.md R79). -/
def checkedAddr (a : Nat) : Except FaultInfo Addr :=
  if a < 0x10000 then .ok (BitVec.ofNat 16 a) else .error ⟨.addrRange, a⟩

/-! ## Banking and memory -/

/-- `slot_map(bank, overlay)` (20_memory.md R73). -/
def slotMap (bank : Byte) (overlay : Bool) : SlotTable :=
  { slot0 := .rom (if overlay then 2 else if bankRomsel bank then 1 else 0)
    slot1 := .ram 5
    slot2 := .ram 2
    slot3 := .ram (bankRamsel bank) }

/-- `screen_page(bank)` (20_memory.md R77). -/
def screenPage (bank : Byte) : BitVec 3 := if bankScrsel bank then 7 else 5

/-- Entry i of the slot table. -/
def SlotTable.entry (t : SlotTable) (i : BitVec 2) : SlotRef :=
  match i.toNat with
  | 0 => t.slot0
  | 1 => t.slot1
  | 2 => t.slot2
  | _ => t.slot3

/-- The slot an address falls in. -/
def slotAt (s : State) (a : Addr) : SlotRef := s.slots.entry (slotOf a)

/-- Where byte o of RAM page p is held. -/
def ramKey (p : BitVec 3) (o : BitVec 14) : Nat := p.toNat * 16384 + o.toNat

/-- Byte o of page p of a RAM. -/
def Memory.byte (m : Memory) (p : BitVec 3) (o : BitVec 14) : Byte := Table.get 0 m (ramKey p o)

/-- A RAM with byte o of page p written. -/
def Memory.setByte (p : BitVec 3) (o : BitVec 14) (v : Byte) (m : Memory) : Memory := Table.set 0 m (ramKey p o) v

/-- `ram[p][o]` (R76). -/
def ramByte (s : State) (p : BitVec 3) (o : BitVec 14) : Byte := s.ram.byte p o

/-- `ram[p][o] <- v` (R76). -/
def setRamByte (p : BitVec 3) (o : BitVec 14) (v : Byte) (s : State) : State :=
  { s with ram := s.ram.setByte p o v }

/-- `MemRead(a, 1)` (R74). -/
def memRead (s : State) (a : Addr) : Byte :=
  match slotAt s a with
  | .rom p => s.cfg.romByte p (offOf a)
  | .ram p => ramByte s p (offOf a)

/-- `MemWrite(a, 1, v)` (R75): ROM rejects writes silently. -/
def memWrite (a : Addr) (v : Byte) (s : State) : State :=
  match slotAt s a with
  | .rom _ => s
  | .ram p => setRamByte p (offOf a) v s

/-- The flag bits of a CPU address (10_state.md R48). -/
def markAt (s : State) (a : Addr) : BitVec 2 := Table.get 0 s.marks a.toNat

/-- The injected value of a port, if any (10_state.md R53). -/
def portValue (s : State) (p : Addr) : Option Byte := Table.get none s.portOvr p.toNat

/-- The overlay trap of a fetch at a (40_bus.md R142): the flag becomes "this fetch is inside the range", and the slots
are recomputed when it changes. -/
def overlayUpdate (a : Addr) (s : State) : State :=
  { s with
    overlay := isOverlayTrapAddress a
    slots := if isOverlayTrapAddress a = s.overlay then s.slots else slotMap s.bank (isOverlayTrapAddress a) }

/-! ## Ticks and contention -/

/-- `mem_wait(t, a)` (40_bus.md R131). -/
def memWaitAt (c : Config) (t : Nat) (a : Addr) : Nat :=
  if inContended a then c.contentionWait t else 0

/-- `mem_wait` at the current tick. -/
def memWait (s : State) (a : Addr) : Nat := memWaitAt s.cfg s.tick.toNat a

/-- Advance `tick`; past 2^32 - 1 is code 2 with the increment (10_state.md R36, 60_exceptions.md R281). -/
def advanceTick (n : Nat) (s : State) : Except FaultInfo State :=
  if s.tick.toNat + n < 2 ^ 32 then .ok { s with tick := BitVec.ofNat 32 (s.tick.toNat + n) }
  else .error ⟨.tickOverflow, n⟩

/-! ## The command stream -/

/-- The oldest request and the state without it (log 1). -/
def takeRequest (s : State) : Option (Request × State) :=
  match s.pending with
  | [] => none
  | r :: rest => some (r, { s with pending := rest })

/-- The refusal of a word the decoder rejects (R107, R109). -/
def refuseWord (e : DecodeError) (s : State) : Result :=
  match e with
  | .illegalOpcode => refuseCommand .illegalOpcode s
  | .reservedField => refuseCommand .reservedField s

/-- Put a command word at the head of the stream. -/
def placeWord (w : Word) (s : State) : State := { s with pending := .word w :: s.pending }

end Sys2Proof.Machine
end

