-- ==== Sys2Proof/Machine/Render.lean ====
section
/-! DEFINITION. The screen rendering engine and the frame boundary (spec 41_render.md R170 to R190): the commands
RENDER and NEWFRAME. The renderer is a function from the elements it reads (R182) to a new `Video`, so that it reads
and writes nothing else by construction. -/
namespace Sys2Proof.Machine

/-- What `process_tick` reads besides the elements it writes (R182). -/
structure VideoInputs where
  cfg       : Config
  ram       : Memory
  bank      : Byte
  border    : BitVec 3
  flashMask : Bool
  deriving DecidableEq, Repr

/-- The renderer's inputs in a state. -/
def State.videoInputs (s : State) : VideoInputs :=
  { cfg := s.cfg, ram := s.ram, bank := s.bank, border := s.border, flashMask := s.flashMask }

/-! ## Raster position and screen memory layout -/

/-- The frame line and the pixel in line of a tick (R171); none before the top left of the image. -/
def rasterPos (c : Config) (t : Nat) : Option (Nat × Nat) :=
  let ft : Int := (t : Int) + c.frameTickOffset
  if ft < 0 then none else some (ft.toNat / c.tpl, ft.toNat % c.tpl * 2)

/-- `pattern_off(y, c)` (R172), for y below 192 and c below 32. -/
def patternOff (y c : Nat) : BitVec 14 :=
  let y8 := BitVec.ofNat 8 y
  y8.extractLsb' 6 2 ++ y8.extractLsb' 0 3 ++ y8.extractLsb' 3 3 ++ BitVec.ofNat 5 c |>.setWidth 14

/-- `attr_off(y, c)` (R172). -/
def attrOff (y c : Nat) : BitVec 14 := BitVec.ofNat 14 (0x1800 + y / 8 * 32 + c)

/-- `screen_line(L)` (R173). -/
def screenLine (c : Config) (l : Nat) : Bool := decide (c.bt ≤ l) && decide (l < c.bt + 192)
/-- `in_latch(L, p)` (R173). -/
def inLatch (c : Config) (l p : Nat) : Bool :=
  screenLine c l && decide (c.bw - 8 ≤ p) && decide (p < c.bw + 248)
/-- `in_screen(L, p)` (R173). -/
def inScreen (c : Config) (l p : Nat) : Bool :=
  screenLine c l && decide (c.bw ≤ p) && decide (p < c.bw + 256)
/-- `in_visible(L, p)` (R173). -/
def inVisible (c : Config) (l p : Nat) : Bool := decide (l < c.height) && decide (p < c.width)
/-- `in_border(L, p)` (R173). -/
def inBorder (c : Config) (l p : Nat) : Bool := inVisible c l p && !inScreen c l p

/-! ## The fetch arbiter and the pixel-latch pipeline -/

/-- `latch_fetch(L, p)` (R174). -/
def latchFetch (x : VideoInputs) (l p : Nat) (v : Video) : Video :=
  let y := l - x.cfg.bt
  let c := (p - (x.cfg.bw - 8)) / 8
  let pg := screenPage x.bank
  if v.fetchFf then { v with latchAttr := x.ram.byte pg (attrOff y c), fetchFf := false }
  else { v with latchPat := x.ram.byte pg (patternOff y c), fetchFf := true }

/-- The shadow copy (R175). -/
def shadowCopy (v : Video) : Video := { v with shadowPat := v.latchPat, shadowAttr := v.latchAttr }

/-- `screen_nibble(bit, a)` (R176). -/
def screenNibble (flashMask : Bool) (bit : Bool) (a : Byte) : BitVec 4 :=
  let swap := attrFlash a && flashMask
  let ink := if swap then attrPaper a else attrInk a
  let paper := if swap then attrInk a else attrPaper a
  colourIndex (attrBright a) (if bit then ink else paper)

/-- Replace byte j of a chunk by two pixels, the left one in the low nibble: mask and merge (R177). -/
def mergePair (j : Nat) (n0 n1 : BitVec 4) (chunk : Word) : Word :=
  (chunk &&& ~~~(0xFF#32 <<< (8 * j))) ||| ((n1 ++ n0).setWidth 32 <<< (8 * j))

/-- `put_pair(L, p, n0, n1)` (R177). -/
def putPair (l p : Nat) (n0 n1 : BitVec 4) (v : Video) : Video :=
  { v with chunks := v.chunks.modify l fun row => row.modify (p / 8) (mergePair (p % 8 / 2) n0 n1) }

/-- The colour index of border pixels (R178): bright bit 0. -/
def borderNibble (x : VideoInputs) : BitVec 4 := colourIndex false x.border

/-- The two pixels of a screen tick (R176), with `k = (p - BW) mod 8`. -/
def drawScreen (x : VideoInputs) (l p : Nat) (v : Video) : Video :=
  let k := (p - x.cfg.bw) % 8
  putPair l p (screenNibble x.flashMask (v.shadowPat.getLsbD (7 - k)) v.shadowAttr)
    (screenNibble x.flashMask (v.shadowPat.getLsbD (6 - k)) v.shadowAttr) v

/-- The actions of a tick at (L, p), in the order of R179: copy, fetch, draw. -/
def processAt (x : VideoInputs) (l p : Nat) (v : Video) : Video :=
  let v1 := if inScreen x.cfg l p && decide ((p - x.cfg.bw) % 8 = 0) then shadowCopy v else v
  let v2 := if inLatch x.cfg l p then latchFetch x l p v1 else v1
  if inScreen x.cfg l p then drawScreen x l p v2
  else if inBorder x.cfg l p then putPair l p (borderNibble x) (borderNibble x) v2
  else v2

/-- `process_tick(t)` (R179). -/
def processTick (x : VideoInputs) (t : Nat) (v : Video) : Video :=
  match rasterPos x.cfg t with
  | none => v
  | some (l, p) => processAt x l p v

/-- n ticks from tick t on. -/
def renderTicks (x : VideoInputs) : Nat → Nat → Video → Video
  | 0, _, v => v
  | n + 1, t, v => renderTicks x n (t + 1) (processTick x t v)

/-- The cursor after a render to `target`. A target of 2^32 (a catch-up at tick 2^32 - 1) is past its 32 bits and the
spec states no value: a FREE VALUE (log 6). -/
def cursorAfter (target : Nat) (s : State) : BitVec 32 :=
  if target < 2 ^ 32 then BitVec.ofNat 32 target else Config.freeCursor s.freeCount

/-- `render_to(target)` (R180). -/
def renderTo (target : Nat) (s : State) : State :=
  { s with
    video :=
      if s.video.cursor.toNat < target then
        { renderTicks s.videoInputs (target - s.video.cursor.toNat) s.video.cursor.toNat s.video with
          cursor := cursorAfter target s }
      else s.video
    freeCount := if target < 2 ^ 32 then s.freeCount else s.freeCount + 1 }

/-! ## Frame boundary -/

/-- `start_new_frame()` (R190). -/
def startNewFrame (s : State) : State :=
  { s with
    tick := BitVec.ofNat 32 (s.tick.toNat % s.cfg.frameLen)
    video := { s.video with cursor := 0 }
    frameCtr := s.frameCtr + 1
    flashMask := if (s.frameCtr + 1).toNat % 16 = 0 then !s.flashMask else s.flashMask }

/-! ## The commands -/

/-- The effect of RENDER (R180). -/
def renderBody (t : BitVec 24) (s : State) : Except FaultInfo State :=
  .ok (renderTo t.toNat s)

/-- RENDER (R180). -/
def execRender (t : BitVec 24) (s : State) : Result := perform (.render t) s (renderBody t)

/-- The effect of NEWFRAME (R190). -/
def newframeBody (s : State) : Except FaultInfo State :=
  .ok (startNewFrame s)

/-- NEWFRAME (R190). -/
def execNewframe (s : State) : Result := perform .newframe s newframeBody

end Sys2Proof.Machine
end

