-- ==== Sys2Proof/Machine/Bus.lean ====
section
/-! DEFINITION. The CPU bus commands FETCH, READ, WRITE, TICK, IN, OUT and the bank write BANK (spec 40_bus.md). -/
namespace Sys2Proof.Machine

/-! ## Port sequences -/

/-- A step of a port sequence: a 1-tick step, or a memory contention check (R132). -/
inductive PortStep where
  | one
  | check
  deriving DecidableEq, Repr

/-- The four sequences of R132. -/
def portSteps (p : Addr) : List PortStep :=
  match inContended p, p.getLsbD 0 with
  | false, false => [.one, .check, .one, .one, .one]
  | false, true => [.one, .one, .one, .one]
  | true, false => [.check, .one, .check, .one, .one, .one]
  | true, true => [.check, .one, .check, .one, .check, .one, .check, .one]

/-- The ticks of one step: the check applies R131 to the port address at the current tick (R133). -/
def stepTicks (c : Config) (p : Addr) (t : Nat) : PortStep → Nat
  | .one => 1
  | .check => memWaitAt c t p

/-- The tick after each step, from tick t on. A step that would pass 2^32 - 1 raises code 2 with its increment (R133). -/
def portTicks (c : Config) (p : Addr) : List PortStep → Nat → Except FaultInfo (List Nat)
  | [], _ => .ok []
  | st :: rest, t =>
    if t + stepTicks c p t st < 2 ^ 32 then
      (portTicks c p rest (t + stepTicks c p t st)).map fun ts => (t + stepTicks c p t st) :: ts
    else .error ⟨.tickOverflow, stepTicks c p t st⟩

/-- One step of the sequence: `tick` becomes t, and rendering follows it (R133). -/
def portStepTo (s : State) (t : Nat) : State := renderTo t { s with tick := BitVec.ofNat 32 t }

/-- `port_seq(p)` (R133). A fault undoes the renders before it (60_exceptions.md R282), so the ticks are found first. -/
def portSeq (p : Addr) (s : State) : Except FaultInfo State :=
  (portTicks s.cfg p (portSteps p) s.tick.toNat).map fun ts => ts.foldl portStepTo s

/-! ## Register writes with a catch-up -/

/-- The fields a bank write changes once it is accepted (R148). -/
def bankFields (v : Byte) (s : State) : State :=
  { s with bank := v, locked := bankLock v, slots := slotMap v s.overlay }

/-- `set_bank_register(v)` (R148): nothing at all while locked. -/
def setBankRegister (v : Byte) (s : State) : State :=
  if s.locked then s else bankFields v (renderTo (s.tick.toNat + 1) s)

/-- The catch-up of WRITE (R143): only when the slot maps the screen page. -/
def catchUpForWrite (a : Addr) (s : State) : State :=
  if slotAt s a = .ram (screenPage s.bank) then renderTo (s.tick.toNat + 1) s else s

/-- `fetch_count <- min(fetch_count + 1, 2^32 - 1)` (R140). -/
def countFetch (s : State) : State :=
  { s with fetchCount := BitVec.ofNat 32 (min (s.fetchCount.toNat + 1) (2 ^ 32 - 1)) }

/-- What a port read gives: the injected value, or else PORT_DEFAULT (R145). -/
def portRead (s : State) (p : Addr) : Byte := (portValue s p).getD s.cfg.portDefault

/-- The catch-up of OUT (R146, R148): once, when a border write or an accepted bank write follows; where both follow,
"both renders reach the same target". -/
def catchUpForOut (p : Addr) (s : State) : State :=
  if isBorderPort p || (isBankPort p && !s.locked) then renderTo (s.tick.toNat + 1) s else s

/-- The register writes of OUT (R146): the border, then the bank register unless it is locked. -/
def portRegisters (p : Addr) (d : Byte) (s : State) : State :=
  let s1 := if isBorderPort p then { s with border := borderOf d } else s
  if isBankPort p && !s.locked then bankFields d s1 else s1

/-- What OUT does after its port sequence (R146). -/
def portWrite (p : Addr) (d : Byte) (s : State) : State := portRegisters p d (catchUpForOut p s)

/-! ## The commands -/

/-- The effect of FETCH (R140). -/
def fetchBody (a : Nat) (s : State) : Except FaultInfo State :=
  (checkedAddr a).bind fun a =>
  let s := overlayUpdate a s
  (advanceTick (memWait s a) s).map fun s => respond (.byte (memRead s a)) (countFetch s)

/-- FETCH (R140). -/
def execFetch (a : Nat) (s : State) : Result := perform (.fetch a) s (fetchBody a)

/-- The effect of READ (R141). -/
def readBody (a : Nat) (s : State) : Except FaultInfo State :=
  (checkedAddr a).bind fun a =>
  (advanceTick (memWait s a) s).map fun s => respond (.byte (memRead s a)) s

/-- READ (R141). -/
def execRead (a : Nat) (s : State) : Result := perform (.read a) s (readBody a)

/-- The effect of WRITE (R143). -/
def writeBody (a : Nat) (d : Byte) (s : State) : Except FaultInfo State :=
  (checkedAddr a).bind fun a =>
  (advanceTick (memWait s a) s).map fun s => memWrite a d (catchUpForWrite a s)

/-- WRITE (R143). -/
def execWrite (a : Nat) (d : Byte) (s : State) : Result := perform (.write a d) s (writeBody a d)

/-- The effect of TICK (R144). -/
def tickBody (n : BitVec 24) (s : State) : Except FaultInfo State :=
  advanceTick n.toNat s

/-- TICK (R144). -/
def execTick (n : BitVec 24) (s : State) : Result := perform (.tick n) s (tickBody n)

/-- The effect of IN (R145). -/
def inpBody (p : Nat) (s : State) : Except FaultInfo State :=
  (checkedAddr p).bind fun p =>
  (portSeq p s).map fun s => respond (.byte (portRead s p)) s

/-- IN (R145). -/
def execInp (p : Nat) (s : State) : Result := perform (.inp p) s (inpBody p)

/-- The effect of OUT (R146). -/
def outBody (p : Nat) (d : Byte) (s : State) : Except FaultInfo State :=
  (checkedAddr p).bind fun p =>
  (portSeq p s).map fun s => portWrite p d s

/-- OUT (R146). -/
def execOut (p : Nat) (d : Byte) (s : State) : Result := perform (.out p d) s (outBody p d)

/-- The effect of BANK (R148). -/
def bankBody (v : Byte) (s : State) : Except FaultInfo State :=
  .ok (setBankRegister v s)

/-- BANK (R148). -/
def execBank (v : Byte) (s : State) : Result := perform (.bank v) s (bankBody v)

end Sys2Proof.Machine
end

