-- ==== Sys2Proof/Machine/HostCommands.lean ====
section
/-! DEFINITION. The host commands RESET, POKE, POKEP, SETSP, SETPC, PORTSET, GETGEOM (spec 43_host.md). -/
namespace Sys2Proof.Machine

/-- The state elements RESET writes (R241). Kept: the limits, `int_suppress`, `port_ovr`, `faults`, the configuration;
`phase` is already IDLE. -/
def resetState (s : State) : State :=
  { s with
    ram := []
    bank := 0
    locked := false
    overlay := false
    slots := slotMap 0 false
    tick := 0
    video := Video.reset s.cfg
    border := 0
    flashMask := false
    frameCtr := 0
    events := 0
    fetchCount := 0
    intLine := false
    marks := [] }

/-- The effect of RESET (R241). -/
def resetBody (s : State) : Except FaultInfo State :=
  .ok (cpuSignal .reset (cpuSignal (.int false) (resetState s)))

/-- RESET (R241). -/
def execReset (s : State) : Result := perform .reset s resetBody

/-- The effect of POKE (R243). -/
def pokeBody (a : Nat) (d : Byte) (s : State) : Except FaultInfo State :=
  (checkedAddr a).map fun a => memWrite a d (renderTo s.tick.toNat s)

/-- POKE (R243). -/
def execPoke (a : Nat) (d : Byte) (s : State) : Result := perform (.poke a d) s (pokeBody a d)

/-- The effect of POKEP (R244). -/
def pokepBody (pg : BitVec 3) (off : BitVec 14) (d : Byte) (s : State) : Except FaultInfo State :=
  .ok (setRamByte pg off d (renderTo s.tick.toNat s))

/-- POKEP (R244). -/
def execPokep (pg : BitVec 3) (off : BitVec 14) (d : Byte) (s : State) : Result := perform (.pokep pg off d) s (pokepBody pg off d)

/-- The effect of SETSP (R246). -/
def setspBody (v : BitVec 16) (s : State) : Except FaultInfo State :=
  .ok (cpuSignal (.setSp v) s)

/-- SETSP (R246). -/
def execSetsp (v : BitVec 16) (s : State) : Result := perform (.setsp v) s (setspBody v)

/-- The effect of SETPC (R247). -/
def setpcBody (v : BitVec 16) (s : State) : Except FaultInfo State :=
  .ok (cpuSignal (.setPc v) s)

/-- SETPC (R247). -/
def execSetpc (v : BitVec 16) (s : State) : Result := perform (.setpc v) s (setpcBody v)

/-- The effect of PORTSET (R248). -/
def portsetBody (p : Nat) (v : Byte) (s : State) : Except FaultInfo State :=
  (checkedAddr p).map fun p => { s with portOvr := Table.set none s.portOvr p.toNat (some v) }

/-- PORTSET (R248). -/
def execPortset (p : Nat) (v : Byte) (s : State) : Result := perform (.portset p v) s (portsetBody p v)

/-- The effect of GETGEOM (R249). -/
def getgeomBody (s : State) : Except FaultInfo State :=
  .ok (respond (.geometry s.cfg.bw s.cfg.bt s.cfg.bb s.cfg.width s.cfg.height) s)

/-- GETGEOM (R249). -/
def execGetgeom (s : State) : Result := perform .getgeom s getgeomBody

end Sys2Proof.Machine
end

