-- ==== Sys2Proof/Machine/Scheduler.lean ====
section
/-! DEFINITION. The frame and interrupt scheduler, its limits and marks (spec 42_scheduler.md): RUN, STEPEND, STOP,
SETMARK, TLIMIT, FLIMIT, INTSUP. -/
namespace Sys2Proof.Machine

/-- The interrupt level of the coming step (R212): the signed preceding tick lies in the window. -/
def intLevel (s : State) : Bool :=
  let prev : Int := (s.tick.toNat : Int) - 1
  !s.intSuppress && decide (0 ≤ prev) && decide (prev < (s.cfg.intLen : Int))

/-- `int_check()` (R212). -/
def intCheck (s : State) : State :=
  cpuSignal (.int (intLevel s)) { s with intLine := intLevel s }

/-- `begin_iteration()` (R213). -/
def beginIteration (s : State) : State :=
  cpuSignal .step { intCheck s with phase := .awaitStep }

/-- `limit_checks()` (R214). -/
def limitChecks (s : State) : State :=
  setEventIf (s.flimEn && decide (s.flim.toNat ≤ s.fetchCount.toNat)) evFetchLimit
    (setEventIf (s.tlimEn && decide (s.tlim.toNat ≤ s.tick.toNat)) evTickLimit s)

/-- The breakpoint check (R215). -/
def breakpointCheck (pc : Addr) (s : State) : State :=
  setEventIf (markBp (markAt s pc)) evBreakpoint s

/-- The frame length is reached (R211, R216, R217). -/
def frameEnded (s : State) : Bool := decide (s.cfg.frameLen ≤ s.tick.toNat)

/-- The first part of `loop_exit()` (R216): finish rendering and report the end of the frame. -/
def finishFrame (s : State) : State :=
  if frameEnded s then setEventIf true evEndOfFrame (renderTo s.cfg.frameLen s) else s

/-- `loop_exit()` (R216). -/
def loopExit (s : State) : State :=
  let s := finishFrame s
  respond (.events s.events) { cpuSignal (.int false) s with intLine := false, phase := .idle }

/-- `scheduler_after_step(pc)` (R217). -/
def schedulerAfterStep (pc : Addr) (s : State) : State :=
  let s := breakpointCheck pc (limitChecks s)
  if s.events ≠ 0 ∨ frameEnded s = true then loopExit s else beginIteration s

/-- The effect of RUN (R211). Its response comes when the loop exits (R110). -/
def runBody (s : State) : Except FaultInfo State :=
  let s := if frameEnded s then startNewFrame s else s
  .ok (respond .running (beginIteration { s with events := 0 }))

/-- RUN (R211). Its response comes when the loop exits (R110). -/
def execRun (s : State) : Result := perform .run s runBody

/-- The effect of STEPEND (40_bus.md R147). -/
def stependBody (pc : Nat) (s : State) : Except FaultInfo State :=
  (checkedAddr pc).map fun pc => schedulerAfterStep pc s

/-- STEPEND (40_bus.md R147). -/
def execStepend (pc : Nat) (s : State) : Result := perform (.stepend pc) s (stependBody pc)

/-- The effect of STOP (R218). -/
def stopBody (s : State) : Except FaultInfo State :=
  .ok (setEventIf true evStop s)

/-- STOP (R218). -/
def execStop (s : State) : Result := perform .stop s stopBody

/-- The effect of SETMARK (R219). -/
def setmarkBody (a : Nat) (f : BitVec 2) (s : State) : Except FaultInfo State :=
  (checkedAddr a).map fun a => { s with marks := Table.set 0 s.marks a.toNat f }

/-- SETMARK (R219). -/
def execSetmark (a : Nat) (f : BitVec 2) (s : State) : Result := perform (.setmark a f) s (setmarkBody a f)

/-- The effect of TLIMIT (R220). -/
def tlimitBody (e : Bool) (v : BitVec 24) (s : State) : Except FaultInfo State :=
  .ok { s with tlimEn := e, tlim := v }

/-- TLIMIT (R220). -/
def execTlimit (e : Bool) (v : BitVec 24) (s : State) : Result := perform (.tlimit e v) s (tlimitBody e v)

/-- The effect of FLIMIT (R221). -/
def flimitBody (e : Bool) (v : BitVec 24) (s : State) : Except FaultInfo State :=
  .ok { s with flimEn := e, flim := v, fetchCount := 0 }

/-- FLIMIT (R221). -/
def execFlimit (e : Bool) (v : BitVec 24) (s : State) : Result := perform (.flimit e v) s (flimitBody e v)

/-- The effect of INTSUP (R222). -/
def intsupBody (e : Bool) (s : State) : Except FaultInfo State :=
  .ok { s with intSuppress := e }

/-- INTSUP (R222). -/
def execIntsup (e : Bool) (s : State) : Result := perform (.intsup e) s (intsupBody e)

end Sys2Proof.Machine
end

