-- ==== Sys2Proof/Machine/Translator.lean ====
section
/-! DEFINITION. The pixel translator and GETFRAME (spec 44_pixel_translator.md). -/
namespace Sys2Proof.Machine

/-- A colour channel: the level where its bit is 1, else 0 (R271). -/
def channel (on : Bool) (lvl : Byte) : Byte := if on then lvl else 0

/-- `rgba(n)` (R271): A, B, G, R from bit 31 down. -/
def rgba (c : Config) (n : BitVec 4) : Word :=
  let lvl := if n.getLsbD 3 then c.lBright else c.lNormal
  0xFF#8 ++ channel (n.getLsbD 0) lvl ++ channel (n.getLsbD 2) lvl ++ channel (n.getLsbD 1) lvl

/-- `chunks[r][c]`; 0 outside the buffer, which no rule reads. -/
def chunkAt (v : Video) (r c : Nat) : Word := (v.chunks.getD r []).getD c 0

/-- The colour index of image pixel x of line r (R270, 10_state.md R44). -/
def pixelAt (v : Video) (r x : Nat) : BitVec 4 := (chunkAt v r (x / 8)).extractLsb' (4 * (x % 8)) 4

/-- The image, row by row (R270). -/
def frameImage (s : State) : List Word :=
  (List.range s.cfg.height).flatMap fun r =>
    (List.range s.cfg.width).map fun x => rgba s.cfg (pixelAt s.video r x)

/-- The effect of GETFRAME (R270): it does not render. -/
def getframeBody (s : State) : Except FaultInfo State :=
  .ok (respond (.frame s.cfg.width s.cfg.height (frameImage s)) s)

/-- GETFRAME (R270): it does not render. -/
def execGetframe (s : State) : Result := perform .getframe s getframeBody

end Sys2Proof.Machine
end

