-- ==== Sys2Proof/Machine/Dispatch.lean ====
section
/-! DEFINITION. exec: one arm per command, each a direct call of its meaning. -/
namespace Sys2Proof.Machine

def exec (i : Instr) (s : State) : Host.Outcome State Fault Refusal :=
  match i with
  | .fetch a => Sys2Proof.Machine.execFetch a s
  | .read a => Sys2Proof.Machine.execRead a s
  | .write a d => Sys2Proof.Machine.execWrite a d s
  | .tick n => Sys2Proof.Machine.execTick n s
  | .inp p => Sys2Proof.Machine.execInp p s
  | .out p d => Sys2Proof.Machine.execOut p d s
  | .stepend pc => Sys2Proof.Machine.execStepend pc s
  | .run => Sys2Proof.Machine.execRun s
  | .stop => Sys2Proof.Machine.execStop s
  | .reset => Sys2Proof.Machine.execReset s
  | .poke a d => Sys2Proof.Machine.execPoke a d s
  | .pokep pg off d => Sys2Proof.Machine.execPokep pg off d s
  | .setsp v => Sys2Proof.Machine.execSetsp v s
  | .setpc v => Sys2Proof.Machine.execSetpc v s
  | .portset p v => Sys2Proof.Machine.execPortset p v s
  | .setmark a f => Sys2Proof.Machine.execSetmark a f s
  | .tlimit e v => Sys2Proof.Machine.execTlimit e v s
  | .flimit e v => Sys2Proof.Machine.execFlimit e v s
  | .intsup e => Sys2Proof.Machine.execIntsup e s
  | .render t => Sys2Proof.Machine.execRender t s
  | .newframe => Sys2Proof.Machine.execNewframe s
  | .bank v => Sys2Proof.Machine.execBank v s
  | .getframe => Sys2Proof.Machine.execGetframe s
  | .getgeom => Sys2Proof.Machine.execGetgeom s

end Sys2Proof.Machine
end

