-- ==== Sys2Proof/Machine/Step.lean ====
section
/-! DEFINITION. One step: the oldest request of the stream is decoded and performed (spec 30_encoding.md R120;
20_memory.md R87). With no request the block holds its state (60_exceptions.md R293, log 10). -/
namespace Sys2Proof.Machine

/-- One step of the block. -/
def step (s : State) : Host.Outcome State Fault Refusal :=
  match takeRequest s with
  | none => .next s
  | some (.word w, s') =>
    match decode w with
    | .ok i => exec i s'
    | .error e => refuseWord e s'
  | some (.call i, s') => exec i s'

/-- The state whose next step runs a word of the opcode table: the word is the oldest request of the stream. -/
def State.withFetchWord (s : State) (nbits w : Nat) : State := placeWord (tableWord nbits w) s

end Sys2Proof.Machine
end

