-- ==== Sys2Proof/Machine/Assembler.lean ====
section
/-! DEFINITION. The one-line text form of commands and the pseudo-commands (spec 30_encoding.md R111, R118). A line
expands to real commands before it reaches the block. How a line is cut into tokens is a DESIGN CHOICE (log 14). -/
namespace Sys2Proof.Machine

/-! ## Pseudo-commands (R118) -/

/-- `LOADBYTES a, [b0, ...]`: byte i at `(a + i) mod 0x10000`, in ascending i. -/
def loadBytes (a : Addr) (bs : List Byte) : List Instr :=
  bs.zipIdx.map fun b => .poke ((a.toNat + b.2) % 0x10000) b.1

/-- `LOADPAGE pg, [b0, ..., b16383]`. -/
def loadPage (pg : BitVec 3) (bs : List Byte) : List Instr :=
  bs.zipIdx.map fun b => .pokep pg (BitVec.ofNat 14 b.2) b.1

/-- `SETSPPC sp, pc`. -/
def setSpPc (sp pc : BitVec 16) : List Instr := [.setsp sp, .setpc pc]

/-- `SETBANK v`. -/
def setBank (v : Byte) : List Instr := [.out 0x7FFD v]

/-- `BORDER c`. -/
def borderLine (c : Byte) : List Instr := [.out 0x00FE c]

/-- `NOPSTEP pc`: a 4-tick one-byte instruction of the CPU core. -/
def nopStep (pc : Addr) : List Instr := [.fetch pc.toNat, .tick 4, .stepend ((pc.toNat + 1) % 0x10000)]

/-! ## Text (R111) -/

/-- Why a line is no command: "an assembly error, not a command". -/
inductive AsmError where
  | notALine
  | operandTooLarge
  deriving DecidableEq, Repr

/-- An operand of a line. -/
inductive Operand where
  | number (n : Nat)
  | onWord
  | offWord
  | bytes (ns : List Nat)
  deriving DecidableEq, Repr

/-- The tokens of a line. -/
inductive Token where
  | text (cs : List Char)
  | comma
  | openList
  | closeList
  deriving DecidableEq, Repr

/-- End the text token collected in reverse. -/
def flushText (cur : List Char) (ts : List Token) : List Token :=
  match cur with
  | [] => ts
  | _ :: _ => .text cur.reverse :: ts

/-- Split a line into tokens; `;` starts a comment. -/
def lexLine : List Char → List Char → List Token
  | [], cur => flushText cur []
  | c :: cs, cur =>
    if c = ';' then flushText cur []
    else if c = ' ' ∨ c = '\t' ∨ c = '\r' ∨ c = '\n' then flushText cur (lexLine cs [])
    else if c = ',' then flushText cur (.comma :: lexLine cs [])
    else if c = '[' then flushText cur (.openList :: lexLine cs [])
    else if c = ']' then flushText cur (.closeList :: lexLine cs [])
    else lexLine cs (c :: cur)

/-- The value of a digit in a base of 10 or 16. -/
def digitValue (base : Nat) (c : Char) : Option Nat :=
  let n := c.toNat
  let v :=
    if 48 ≤ n ∧ n ≤ 57 then some (n - 48)
    else if 65 ≤ n ∧ n ≤ 70 then some (n - 55)
    else if 97 ≤ n ∧ n ≤ 102 then some (n - 87)
    else none
  v.filter fun d => decide (d < base)

/-- Digits from the left, `acc` being the value so far. -/
def digitsValue (base : Nat) : List Char → Nat → Option Nat
  | [], acc => some acc
  | c :: cs, acc => (digitValue base c).bind fun d => digitsValue base cs (acc * base + d)

/-- "Numbers are decimal or `0x` hexadecimal." -/
def numberOf : List Char → Option Nat
  | '0' :: 'x' :: c :: cs => digitsValue 16 (c :: cs) 0
  | [] => none
  | c :: cs => digitsValue 10 (c :: cs) 0

/-- The numbers of a list up to its closing bracket. DESIGN CHOICE (log 14): a comma after the last number is accepted,
so `[1,]` is `[1]`; R118 is silent on such text. -/
def listNumbers : List Token → Option (List Nat)
  | [.closeList] => some []
  | [.text cs, .closeList] => (numberOf cs).map fun n => [n]
  | .text cs :: .comma :: ts => (numberOf cs).bind fun n => (listNumbers ts).map fun ns => n :: ns
  | _ => none

/-- One operand from its tokens; a group with no token or with two words is none (DESIGN CHOICE, log 14). -/
def operandOf : List Token → Option Operand
  | [.text cs] =>
    if cs = ['o', 'n'] then some .onWord
    else if cs = ['o', 'f', 'f'] then some .offWord
    else (numberOf cs).map .number
  | .openList :: ts => (listNumbers ts).map .bytes
  | _ => none

/-- Cut the tokens after the mnemonic at the commas outside lists. -/
def operandGroups : List Token → Bool → List Token → List (List Token)
  | [], _, cur => [cur.reverse]
  | .comma :: ts, false, cur => cur.reverse :: operandGroups ts false []
  | .openList :: ts, _, cur => operandGroups ts true (.openList :: cur)
  | .closeList :: ts, _, cur => operandGroups ts false (.closeList :: cur)
  | t :: ts, inList, cur => operandGroups ts inList (t :: cur)

/-- All operands of a line. -/
def operandsOf (ts : List Token) : Option (List Operand) :=
  match ts with
  | [] => some []
  | _ :: _ => (operandGroups ts false []).mapM operandOf

/-- An operand that does not fit its field is an assembly error. -/
def fit (bits n : Nat) : Except AsmError (BitVec bits) :=
  if n < 2 ^ bits then .ok (BitVec.ofNat bits n) else .error .operandTooLarge

/-- A line with one operand of a width. -/
def line1 (b : Nat) (f : BitVec b → List Instr) (x : Nat) : Except AsmError (List Instr) := (fit b x).map f

/-- A line with two operands. -/
def line2 (b c : Nat) (f : BitVec b → BitVec c → List Instr) (x y : Nat) : Except AsmError (List Instr) :=
  (fit b x).bind fun u => (fit c y).map fun v => f u v

/-- What the operands of a line give. -/
abbrev LineForm := List Operand → Except AsmError (List Instr)

/-- A line without operands. -/
def form0 (is : List Instr) : LineForm
  | [] => .ok is
  | _ => .error .notALine

/-- A line with one number. -/
def form1 (b : Nat) (f : BitVec b → List Instr) : LineForm
  | [.number x] => line1 b f x
  | _ => .error .notALine

/-- A line with two numbers. -/
def form2 (b c : Nat) (f : BitVec b → BitVec c → List Instr) : LineForm
  | [.number x, .number y] => line2 b c f x y
  | _ => .error .notALine

/-- POKEP: a page, an offset and a byte. -/
def formPokep : LineForm
  | [.number pg, .number off, .number d] =>
    (fit 3 pg).bind fun pg => line2 14 8 (fun off d => [.pokep pg off d]) off d
  | _ => .error .notALine

/-- TLIMIT and FLIMIT: `on v`, or `off`. -/
def formLimit (f : Bool → BitVec 24 → Instr) : LineForm
  | [.onWord, .number v] => line1 24 (fun v => [f true v]) v
  | [.offWord] => .ok [f false 0]
  | _ => .error .notALine

/-- LOADBYTES: an address and a list of bytes. -/
def formLoadBytes : LineForm
  | [.number a, .bytes ns] => (fit 16 a).bind fun a => (ns.mapM (fit 8)).map fun bs => loadBytes a bs
  | _ => .error .notALine

/-- LOADPAGE: a page and its 16384 bytes. -/
def formLoadPage : LineForm
  | [.number pg, .bytes ns] =>
    if ns.length = 16384 then (fit 3 pg).bind fun pg => (ns.mapM (fit 8)).map fun bs => loadPage pg bs
    else .error .notALine
  | _ => .error .notALine

/-- The spellings of R111 for the bus and scheduler commands. -/
def commandForms : List (String × LineForm) :=
  [("FETCH", form1 16 fun a => [.fetch a.toNat]), ("READ", form1 16 fun a => [.read a.toNat]),
   ("WRITE", form2 16 8 fun a d => [.write a.toNat d]), ("TICK", form1 24 fun n => [.tick n]),
   ("IN", form1 16 fun p => [.inp p.toNat]), ("OUT", form2 16 8 fun p d => [.out p.toNat d]),
   ("STEPEND", form1 16 fun pc => [.stepend pc.toNat]), ("RUN", form0 [.run]), ("STOP", form0 [.stop]),
   ("SETMARK", form2 16 2 fun a f => [.setmark a.toNat f]), ("TLIMIT", formLimit .tlimit),
   ("FLIMIT", formLimit .flimit), ("INTSUP", form1 1 fun e => [.intsup (e.getLsbD 0)])]

/-- The spellings of R111 for the host and renderer commands. -/
def hostForms : List (String × LineForm) :=
  [("RESET", form0 [.reset]), ("POKE", form2 16 8 fun a d => [.poke a.toNat d]), ("POKEP", formPokep),
   ("SETSP", form1 16 fun v => [.setsp v]), ("SETPC", form1 16 fun v => [.setpc v]),
   ("PORTSET", form2 16 8 fun p d => [.portset p.toNat d]), ("RENDER", form1 24 fun t => [.render t]),
   ("NEWFRAME", form0 [.newframe]), ("BANK", form1 8 fun d => [.bank d]), ("GETFRAME", form0 [.getframe]),
   ("GETGEOM", form0 [.getgeom])]

/-- The pseudo-commands of R118. -/
def pseudoForms : List (String × LineForm) :=
  [("LOADBYTES", formLoadBytes), ("LOADPAGE", formLoadPage), ("SETSPPC", form2 16 16 setSpPc),
   ("SETBANK", form1 8 setBank), ("BORDER", form1 8 borderLine), ("NOPSTEP", form1 16 nopStep)]

/-- The form of a mnemonic. -/
def findForm (mnemonic : String) : List (String × LineForm) → Option LineForm
  | [] => none
  | (name, form) :: rest => if name = mnemonic then some form else findForm mnemonic rest

/-- The commands of a line, from its mnemonic and its operands. -/
def assemble (mnemonic : String) (ops : List Operand) : Except AsmError (List Instr) :=
  match findForm mnemonic (commandForms ++ hostForms ++ pseudoForms) with
  | some form => form ops
  | none => .error .notALine

/-- Assemble one line; an empty line or a comment gives no command. -/
def assembleLine (line : String) : Except AsmError (List Instr) :=
  match lexLine line.toList [] with
  | [] => .ok []
  | .text cs :: ts =>
    match operandsOf ts with
    | some ops => assemble (String.ofList cs) ops
    | none => .error .notALine
  | _ :: _ => .error .notALine

/-- Put the words of commands behind the stream. -/
def enqueue (is : List Instr) (s : State) : State :=
  { s with pending := s.pending ++ is.map fun i => .word (encode i) }

end Sys2Proof.Machine
end

