-- ==== Sys2Proof/Safety.lean ====
section
/-! DEFINITION. What claims are stated in: the invariant of the block's state, and a run without a fault. -/
namespace Sys2Proof.Machine

/-- Every row of the chunk buffer is there: H rows of CPR chunks (spec 10_state.md R44). -/
def Video.shaped (c : Config) (v : Video) : Prop :=
  v.chunks.length = c.height ∧ ∀ row ∈ v.chunks, row.length = c.chunksPerRow

/-- The invariant of the block. -/
structure State.Inv (s : State) : Prop where
  /-- R35: `slots` always equals `slot_map(bank, overlay)`. -/
  slots_eq : s.slots = slotMap s.bank s.overlay
  /-- R39: `locked = bank[5]`. -/
  locked_eq : s.locked = bankLock s.bank
  /-- R44 -/
  shaped : s.video.shaped s.cfg
  /-- R47: bits 7:5 are never set. -/
  events_high : s.events &&& 0xE0#8 = 0
  /-- R52: the line is low when no run is in progress. -/
  idle_line : s.phase = .idle → s.intLine = false
  /-- R55: a set. -/
  faults_nodup : s.faults.Nodup
  /-- The canonical forms of the tables (R33, R48, R53). -/
  ram_wf : Memory.wf s.ram = true
  marks_wf : Table.wf (0 : BitVec 2) 0x10000 s.marks = true
  ports_wf : Table.wf (none : Option Byte) 0x10000 s.portOvr = true

/-- R37: `cursor <= max(tick + 1, FRAME_LEN)`. -/
def State.CursorBounded (s : State) : Prop :=
  s.video.cursor.toNat ≤ max (s.tick.toNat + 1) s.cfg.frameLen

/-- R282: "no fault ever occurred". -/
def State.noFault (s : State) : Prop := s.faults = []

/-- The tick at which the port sequence of port p ends when it starts at tick t: the four rows of 40_bus.md R132, with
w the contention function. -/
def portEnd (w : Nat → Nat) (p : Addr) (t : Nat) : Nat :=
  if 0x4000 ≤ p.toNat ∧ p.toNat ≤ 0x7FFF then
    if p.getLsbD 0 then
      let f := fun u => u + w u + 1
      f (f (f (f t)))
    else
      let t1 := t + w t + 1
      t1 + w t1 + 3
  else t + 4

/-- The increments of n rounds "C, 1" that start at tick u, followed by 1-tick steps: that of the first step past
2^32 - 1 (40_bus.md R132, 60_exceptions.md R281). -/
def roundOverflow (w : Nat → Nat) : Nat → Nat → Nat
  | 0, _ => 1
  | n + 1, u => if 2 ^ 32 ≤ u + w u then w u else if 2 ^ 32 ≤ u + w u + 1 then 1 else roundOverflow w n (u + w u + 1)

/-- The tick increment a port sequence that passes 2^32 - 1 stops at (R281 "the tick increment"): the rows of R132 in
the contended range begin with two rounds "C, 1" for an even port and consist of four for an odd one; the other rows
take only single ticks. -/
def portOverflow (w : Nat → Nat) (p : Addr) (t : Nat) : Nat :=
  if 0x4000 ≤ p.toNat ∧ p.toNat ≤ 0x7FFF then roundOverflow w (if p.getLsbD 0 then 4 else 2) t else 1

/-- The raster position of a tick in the numbers of 41_render.md R171: tick t covers the pixels p and p + 1 of frame
line l. -/
def atRaster (c : Config) (t l p : Nat) : Prop :=
  (t : Int) + c.frameTickOffset = ((l * c.tpl + p / 2 : Nat) : Int) ∧ p % 2 = 0 ∧ p < 2 * c.tpl

/-- What a line gives whose operands are these (30_encoding.md R111): its commands if all of them fit their fields, else
"an assembly error, not a command". -/
def ifFits (fits : Prop) [Decidable fits] (is : List Instr) : Except AsmError (List Instr) :=
  if fits then .ok is else .error .operandTooLarge

/-- The configuration with another image for ROM page 3 (20_memory.md R73: "ROM page 3 is never mapped"). -/
def State.withRom3 (r : RomPage) (s : State) : State :=
  { s with cfg := { s.cfg with rom3 := r, ok := s.cfg.ok } }

end Sys2Proof.Machine
end

