-- ==== Sys2Proof/Certificates/Slice0/Obligations.lean ====
section
/-! DEFINITION. The statements for the provers. Each cites the rules of spec/ it follows. -/

open Sys2Proof Sys2Proof.Machine

/-! ## Encoding -/

/-- R101, R102, R106: no bit of an encoding is dropped. -/
def Obligations.DecodeOfEncodeIsTheCommand : Prop :=
  ∀ i : Instr, i.wellFormed = true → decode (encode i) = .ok i

/-- R101, R109: every bit of an accepted word is an opcode bit, an operand bit or a zero, so the word is the encoding
of what it decodes to, and that is well formed. -/
def Obligations.EncodeOfDecodeIsTheWord : Prop :=
  ∀ (w : Word) (i : Instr), decode w = .ok i → encode i = w ∧ i.wellFormed = true

/-- Words of 95_test_vectors.md section 2.1. -/
def Obligations.WrittenOutWordsDecode : Prop :=
  decode 0x08800000 = .ok (.fetch 0x8000) ∧ decode 0x18400080 = .ok (.write 0x4000 0x80) ∧
  decode 0x3000FE02 = .ok (.out 0x00FE 0x02) ∧ decode 0x67600047 = .ok (.pokep 7 0x1800 0x47) ∧
  decode 0x80800301 = .ok (.setmark 0x8003 1) ∧ decode 0x8C000064 = .ok (.tlimit true 100) ∧
  decode 0xA0004614 = .ok (.render 17940) ∧ decode 0xB0000013 = .ok (.bank 0x13)

/-- R107: "A word with such an OP is refused with code 3 (ILLEGAL_OPCODE, 60_exceptions.md rule R281), and no state
changes." The word leaves the stream (the model's choice, log 1). -/
def Obligations.UnassignedOpcodeRefused : Prop :=
  ∀ (s : State) (w : Word) (rest : List Request), s.pending = .word w :: rest →
    (w.toNat / 2 ^ 27 = 0 ∨ 0x19 ≤ w.toNat / 2 ^ 27) →
    step s = .next { s with pending := rest, response := .refused .illegalOpcode, signals := [] }

/-- R109: a legal opcode with a 1 in a must-be-zero bit is refused with code 4, in either phase. The word leaves the
stream (the model's choice, log 1). -/
def Obligations.ReservedFieldRefused : Prop :=
  ∀ (s : State) (w : Word) (rest : List Request) (m : Mnemonic), s.pending = .word w :: rest →
    w.toNat / 2 ^ 27 = m.opcode.toNat → w &&& m.zeroMask ≠ 0 →
    step s = .next { s with pending := rest, response := .refused .reservedField, signals := [] }

/-! ## Steps and outcomes -/

/-- R120, R87: a step performs the oldest request of the stream (the stream is log 1, hook calls are log 8). -/
def Obligations.StepPerformsTheOldestRequest : Prop :=
  ∀ (s : State) (rest : List Request) (i : Instr),
    (∀ w : Word, s.pending = .word w :: rest → decode w = .ok i → step s = exec i { s with pending := rest }) ∧
    (s.pending = .call i :: rest → step s = exec i { s with pending := rest })

/-- R293: "Between commands it holds its state indefinitely." That a step without a request is that wait is the
model's reading (log 10). -/
def Obligations.StepWithoutRequestHolds : Prop :=
  ∀ s : State, s.pending = [] → step s = .next s

/-- R280, R282, R283: every command ends in completion, refusal or fault. A refusal changes no state element. A fault
leaves the state before the command and adds its record, with the command's word where the command fits one: the
records are then those from before and that one. Completion touches no fault record. -/
def Obligations.EveryCommandEndsInOneOutcome : Prop :=
  ∀ (i : Instr) (s : State), ∃ t, exec i s = .next t ∧
    ((∃ c, t = { s with response := .refused c, signals := [] }) ∨
     (∃ c n w, (i.wellFormed = true → w = encode i) ∧
       t = { s with faults := addFault ⟨c, n, w⟩ s.faults, response := .fault c n, signals := [] } ∧
       ∀ r, r ∈ t.faults ↔ r ∈ s.faults ∨ r = ⟨c, n, w⟩) ∨
     (t.faults = s.faults ∧ (∀ c, t.response ≠ .refused c) ∧ ∀ c n, t.response ≠ .fault c n))

/-- R55: "A fault record is never removed, not even by RESET." Construction leaves none. -/
def Obligations.FaultRecordsStay : Prop :=
  (∀ s t : State, step s = .next t → ∀ r ∈ s.faults, r ∈ t.faults) ∧ ∀ c : Config, (State.ofConfig c).faults = []

/-- R79, R282: an address of 0x10000 or more on the hook interface raises code 1 and is not masked; its record is then
in the fault set beside the records from before. (The word recorded with the fault is the model's choice, log 8.) -/
def Obligations.WideAddressFaults : Prop :=
  ∀ (i : Instr) (a : Nat) (s : State), i.address? = some a → 0x10000 ≤ a →
    (i.mnemonic = .stepend → s.phase = .awaitStep) →
    (i.mnemonic = .poke ∨ i.mnemonic = .portset ∨ i.mnemonic = .setmark → s.phase = .idle) →
    ∃ t, exec i s = .next t ∧
      t = { s with faults := addFault ⟨.addrRange, a, encode i⟩ s.faults, response := .fault .addrRange a,
                   signals := [] } ∧
      ∀ r, r ∈ t.faults ↔ r ∈ s.faults ∨ r = ⟨.addrRange, a, encode i⟩

/-- R101, R281: no command word can carry an address of 0x10000 or more, so a word never raises code 1. -/
def Obligations.WordsRaiseNoAddressFault : Prop :=
  ∀ (s t : State) (w : Word) (rest : List Request), s.pending = .word w :: rest → step s = .next t →
    ∀ r ∈ t.faults, r.code = .addrRange → r ∈ s.faults

/-- R108: the IDLE-only commands are refused with code 5 in AWAIT_STEP, STEPEND with code 6 in IDLE, and in the other
phase, and for the other commands in both, there is no refusal. -/
def Obligations.PhaseAdmission : Prop :=
  ∀ (i : Instr) (s : State),
    let idleOnly := i.mnemonic ∈ [Mnemonic.run, .reset, .poke, .pokep, .setsp, .setpc, .portset, .setmark, .tlimit,
      .flimit, .intsup, .getframe, .getgeom]
    (idleOnly → s.phase = .awaitStep → exec i s = .next { s with response := .refused .busy, signals := [] }) ∧
    (i.mnemonic = .stepend → s.phase = .idle →
      exec i s = .next { s with response := .refused .notRunning, signals := [] }) ∧
    ((idleOnly → s.phase = .idle) → (i.mnemonic = .stepend → s.phase = .awaitStep) →
      ∀ t, exec i s = .next t → ∀ c, t.response ≠ .refused c)

/-! ## The CPU bus commands -/

/-- R140, R142: the overlay follows the fetch address before the read; the wait is R131's; `fetch_count` saturates; a
tick past 2^32 - 1 is a fault and nothing else changes. -/
def Obligations.FetchResult : Prop :=
  ∀ (s : State) (a : Addr),
    let inside : Bool := decide (0x3D00 ≤ a.toNat ∧ a.toNat ≤ 0x3DFF)
    let wait : Nat := if 0x4000 ≤ a.toNat ∧ a.toNat ≤ 0x7FFF then s.cfg.contentionWait s.tick.toNat else 0
    let u : State :=
      { s with overlay := inside, slots := if inside = s.overlay then s.slots else slotMap s.bank inside }
    (s.tick.toNat + wait < 2 ^ 32 →
      exec (.fetch a.toNat) s = .next
        { u with tick := BitVec.ofNat 32 (s.tick.toNat + wait),
                 fetchCount := BitVec.ofNat 32 (min (s.fetchCount.toNat + 1) (2 ^ 32 - 1)),
                 response := .byte (memRead u a), signals := [] }) ∧
    (2 ^ 32 ≤ s.tick.toNat + wait →
      exec (.fetch a.toNat) s = .next
        { s with faults := addFault ⟨.tickOverflow, wait, encode (.fetch a.toNat)⟩ s.faults,
                 response := .fault .tickOverflow wait, signals := [] })

/-- R141, R74, R73, R81: READ gives the byte the address map names, after its wait, and changes only `tick`. -/
def Obligations.ReadResult : Prop :=
  ∀ (s : State) (a : Addr), s.slots = slotMap s.bank s.overlay →
    let wait : Nat := if 0x4000 ≤ a.toNat ∧ a.toNat ≤ 0x7FFF then s.cfg.contentionWait s.tick.toNat else 0
    let off : BitVec 14 := BitVec.ofNat 14 (a.toNat % 0x4000)
    let b : Byte :=
      if a.toNat < 0x4000 then
        s.cfg.romByte (if s.overlay then 2 else if s.bank.getLsbD 4 then 1 else 0) off
      else if a.toNat < 0x8000 then ramByte s 5 off
      else if a.toNat < 0xC000 then ramByte s 2 off
      else ramByte s (BitVec.ofNat 3 (s.bank.toNat % 8)) off
    (s.tick.toNat + wait < 2 ^ 32 →
      exec (.read a.toNat) s = .next
        { s with tick := BitVec.ofNat 32 (s.tick.toNat + wait), response := .byte b, signals := [] }) ∧
    (2 ^ 32 ≤ s.tick.toNat + wait →
      exec (.read a.toNat) s = .next
        { s with faults := addFault ⟨.tickOverflow, wait, encode (.read a.toNat)⟩ s.faults,
                 response := .fault .tickOverflow wait, signals := [] })

/-- R143, R75: a write to 0x0000..0x3FFF changes no memory; elsewhere the byte of the mapped page is written, after a
render to the write's tick + 1 when that page is the screen page; no other byte and no other element changes. -/
def Obligations.WriteResult : Prop :=
  ∀ (s : State) (a : Addr) (d : Byte), s.slots = slotMap s.bank s.overlay → Memory.wf s.ram = true →
    let wait : Nat := if 0x4000 ≤ a.toNat ∧ a.toNat ≤ 0x7FFF then s.cfg.contentionWait s.tick.toNat else 0
    let off : BitVec 14 := BitVec.ofNat 14 (a.toNat % 0x4000)
    let page : BitVec 3 :=
      if a.toNat < 0x8000 then 5 else if a.toNat < 0xC000 then 2 else BitVec.ofNat 3 (s.bank.toNat % 8)
    let u : State := { s with tick := BitVec.ofNat 32 (s.tick.toNat + wait) }
    (s.tick.toNat + wait < 2 ^ 32 → a.toNat < 0x4000 →
      exec (.write a.toNat d) s = .next { u with response := .none, signals := [] }) ∧
    (s.tick.toNat + wait < 2 ^ 32 → 0x4000 ≤ a.toNat →
      ∃ m : Memory,
        exec (.write a.toNat d) s = .next
          { (if page = (if s.bank.getLsbD 3 then 7 else 5) then renderTo (s.tick.toNat + wait + 1) u else u) with
            ram := m, response := .none, signals := [] } ∧
        ∀ (p : BitVec 3) (o : BitVec 14), m.byte p o = if p = page ∧ o = off then d else ramByte s p o) ∧
    (2 ^ 32 ≤ s.tick.toNat + wait →
      exec (.write a.toNat d) s = .next
        { s with faults := addFault ⟨.tickOverflow, wait, encode (.write a.toNat d)⟩ s.faults,
                 response := .fault .tickOverflow wait, signals := [] })

/-- R144: TICK adds n, or raises `Fault(2, n)`. -/
def Obligations.TickResult : Prop :=
  ∀ (s : State) (n : BitVec 24),
    (s.tick.toNat + n.toNat ≤ 2 ^ 32 - 1 →
      exec (.tick n) s = .next
        { s with tick := BitVec.ofNat 32 (s.tick.toNat + n.toNat), response := .none, signals := [] }) ∧
    (2 ^ 32 - 1 < s.tick.toNat + n.toNat →
      exec (.tick n) s = .next
        { s with faults := addFault ⟨.tickOverflow, n.toNat, encode (.tick n)⟩ s.faults,
                 response := .fault .tickOverflow n.toNat, signals := [] })

/-- R145, R132, R133: IN runs its port sequence, which renders up to the tick it ends at, and answers the injected
value or PORT_DEFAULT. A sequence that would pass 2^32 - 1 raises code 2 with the increment of the step that would. -/
def Obligations.InResult : Prop :=
  ∀ (s : State) (p : Addr),
    let e := portEnd s.cfg.contentionWait p s.tick.toNat
    (e < 2 ^ 32 →
      exec (.inp p.toNat) s = .next
        { renderTo e { s with tick := BitVec.ofNat 32 e } with
          response := .byte ((portValue s p).getD s.cfg.portDefault), signals := [] }) ∧
    (2 ^ 32 ≤ e →
      let n := portOverflow s.cfg.contentionWait p s.tick.toNat
      exec (.inp p.toNat) s = .next
        { s with faults := addFault ⟨.tickOverflow, n, encode (.inp p.toNat)⟩ s.faults,
                 response := .fault .tickOverflow n, signals := [] })

/-- R146, R148, R116, R72: after the port sequence, an even port sets the border to D[2:0], a port with bits 15 and 1
clear sets the bank register unless it is locked; where either happens, rendering reaches the write's tick + 1 first. -/
def Obligations.OutResult : Prop :=
  ∀ (s : State) (p : Addr) (d : Byte),
    let e := portEnd s.cfg.contentionWait p s.tick.toNat
    let isBorder : Bool := decide (p.toNat % 2 = 0)
    let isBank : Bool := decide (p.toNat < 0x8000) && decide (p.toNat / 2 % 2 = 0) && !s.locked
    (e < 2 ^ 32 →
      exec (.out p.toNat d) s = .next
        { renderTo (if isBorder || isBank then e + 1 else e) { s with tick := BitVec.ofNat 32 e } with
          border := if isBorder then BitVec.ofNat 3 (d.toNat % 8) else s.border,
          bank := if isBank then d else s.bank,
          locked := if isBank then d.getLsbD 5 else s.locked,
          slots := if isBank then slotMap d s.overlay else s.slots,
          response := .none, signals := [] }) ∧
    (2 ^ 32 ≤ e →
      let n := portOverflow s.cfg.contentionWait p s.tick.toNat
      exec (.out p.toNat d) s = .next
        { s with faults := addFault ⟨.tickOverflow, n, encode (.out p.toNat d)⟩ s.faults,
                 response := .fault .tickOverflow n, signals := [] })

/-- R148, R317: BANK changes nothing while locked; otherwise it renders to `tick + 1` and writes all its fields, the
lock bit included. -/
def Obligations.BankResult : Prop :=
  ∀ (s : State) (v : Byte),
    (s.locked = true → exec (.bank v) s = .next { s with response := .none, signals := [] }) ∧
    (s.locked = false → exec (.bank v) s = .next
      { renderTo (s.tick.toNat + 1) s with
        bank := v, locked := v.getLsbD 5,
        slots := ⟨.rom (if s.overlay then 2 else if v.getLsbD 4 then 1 else 0), .ram 5, .ram 2,
          .ram (BitVec.ofNat 3 (v.toNat % 8))⟩,
        response := .none, signals := [] })

/-! ## The renderer and the frame boundary -/

/-- R180: RENDER with a target at or below the cursor changes nothing; above it, it is one processed tick (R179) and
then RENDER again; it ends with the cursor at the target. -/
def Obligations.RenderResult : Prop :=
  ∀ (s : State) (t : BitVec 24),
    (t.toNat ≤ s.video.cursor.toNat → exec (.render t) s = .next { s with response := .none, signals := [] }) ∧
    (s.video.cursor.toNat < t.toNat →
      exec (.render t) s = exec (.render t)
        { s with video := { processTick s.videoInputs s.video.cursor.toNat s.video with
                            cursor := s.video.cursor + 1 } } ∧
      ∃ v, exec (.render t) s = .next { s with video := v, response := .none, signals := [] } ∧
        v.cursor.toNat = t.toNat)

/-- R190: NEWFRAME. -/
def Obligations.NewframeResult : Prop :=
  ∀ s : State, exec .newframe s = .next
    { s with tick := BitVec.ofNat 32 (s.tick.toNat % (s.cfg.tpl * s.cfg.lpf)), video := { s.video with cursor := 0 },
             frameCtr := BitVec.ofNat 32 ((s.frameCtr.toNat + 1) % 2 ^ 32),
             flashMask := if (s.frameCtr.toNat + 1) % 2 ^ 32 % 16 = 0 then !s.flashMask else s.flashMask,
             response := .none, signals := [] }

/-- R191: 16 NEWFRAMEs in a row, from any state, toggle the flash mask exactly once. -/
def Obligations.SixteenFramesToggleFlashOnce : Prop :=
  ∀ s : State, ∃ k, k < 16 ∧ ∀ n, n ≤ 16 →
    ∃ t, Sys2Proof.core.run n { s with pending := List.replicate 16 (.word 0xA8000000) } = .next t ∧
      t.flashMask = (if n ≤ k then s.flashMask else !s.flashMask) ∧ t.frameCtr = s.frameCtr + BitVec.ofNat 32 n

/-- R171, R177 to R179: what one rendered tick draws outside the screen. A tick before the top left of the image
changes only the cursor, one outside the visible envelope no chunk, and one of the visible border sets its two pixels
to the border colour, bright bit 0, and changes no other pixel. -/
def Obligations.BorderTickDrawsTwoPixels : Prop :=
  ∀ (s : State) (t : BitVec 24), s.video.shaped s.cfg → t.toNat = s.video.cursor.toNat + 1 →
    ∃ u, exec (.render t) s = .next u ∧
      ((s.video.cursor.toNat : Int) + s.cfg.frameTickOffset < 0 →
        u.video = { s.video with cursor := s.video.cursor + 1 }) ∧
      ∀ l p, atRaster s.cfg s.video.cursor.toNat l p →
        let visible := l < s.cfg.bt + 192 + s.cfg.bb ∧ p < 2 * s.cfg.bw + 256
        let screen := s.cfg.bt ≤ l ∧ l < s.cfg.bt + 192 ∧ s.cfg.bw ≤ p ∧ p < s.cfg.bw + 256
        (¬ visible → u.video.chunks = s.video.chunks) ∧
        (visible → ¬ screen → ∀ r x,
          pixelAt u.video r x = if r = l ∧ x / 2 = p / 2 then s.border.setWidth 4 else pixelAt s.video r x)

/-- R176, R177, R114, R115: a rendered tick of the screen at (l, p), k = (p - BW) mod 8, puts pattern bits 7 - k and
6 - k of the shadow pair into nibbles p mod 8 and p mod 8 + 1 of chunk p div 8 of line l. The other 24 bits of that
chunk and all other chunks are unchanged. -/
def Obligations.ScreenTickDrawsTwoPixels : Prop :=
  ∀ (s : State) (t : BitVec 24) (l p : Nat), s.video.shaped s.cfg → t.toNat = s.video.cursor.toNat + 1 →
    atRaster s.cfg s.video.cursor.toNat l p → s.cfg.bt ≤ l ∧ l < s.cfg.bt + 192 →
    s.cfg.bw ≤ p ∧ p < s.cfg.bw + 256 →
    ∃ u, exec (.render t) s = .next u ∧
      let k := (p - s.cfg.bw) % 8
      let a := u.video.shadowAttr
      let index := fun bit : Nat =>
        (if a.getLsbD 6 then 8 else 0) +
          (if (u.video.shadowPat.getLsbD bit) ^^ (a.getLsbD 7 && s.flashMask) then a.toNat % 8 else a.toNat / 8 % 8)
      let chunk := chunkAt u.video l (p / 8)
      chunk.toNat / 2 ^ (4 * (p % 8)) % 16 = index (7 - k) ∧
      chunk.toNat / 2 ^ (4 * (p % 8 + 1)) % 16 = index (6 - k) ∧
      (∀ b, b < 32 → b / 8 ≠ p % 8 / 2 → chunk.getLsbD b = (chunkAt s.video l (p / 8)).getLsbD b) ∧
      ∀ r c, ¬ (r = l ∧ c = p / 8) → chunkAt u.video r c = chunkAt s.video r c

/-- R171, R174, R175, R179, R77: what one rendered tick does to the latches, their shadow copies and `fetch_ff`. The
first tick of a screen block copies the latches as they stood before the tick; a tick of the latch window loads the
latch that `fetch_ff` selects and inverts it; nothing else changes one of the five. -/
def Obligations.OneTickOfTheLatches : Prop :=
  ∀ (s : State) (t : BitVec 24), t.toNat = s.video.cursor.toNat + 1 →
    ∃ u, exec (.render t) s = .next u ∧
      ((s.video.cursor.toNat : Int) + s.cfg.frameTickOffset < 0 →
        u.video = { s.video with cursor := s.video.cursor + 1 }) ∧
      ∀ l p, atRaster s.cfg s.video.cursor.toNat l p →
        let line := s.cfg.bt ≤ l ∧ l < s.cfg.bt + 192
        let latch := line ∧ s.cfg.bw - 8 ≤ p ∧ p < s.cfg.bw + 248
        let copy := line ∧ s.cfg.bw ≤ p ∧ p < s.cfg.bw + 256 ∧ (p - s.cfg.bw) % 8 = 0
        let y := l - s.cfg.bt
        let c := (p - (s.cfg.bw - 8)) / 8
        let page : BitVec 3 := if s.bank.getLsbD 3 then 7 else 5
        u.video.latchPat = (if latch ∧ s.video.fetchFf = false
          then ramByte s page (BitVec.ofNat 14 (y / 64 * 2048 + y % 8 * 256 + y / 8 % 8 * 32 + c))
          else s.video.latchPat) ∧
        u.video.latchAttr = (if latch ∧ s.video.fetchFf = true
          then ramByte s page (BitVec.ofNat 14 (0x1800 + y / 8 * 32 + c)) else s.video.latchAttr) ∧
        u.video.fetchFf = (if latch then !s.video.fetchFf else s.video.fetchFf) ∧
        u.video.shadowPat = (if copy then s.video.latchPat else s.video.shadowPat) ∧
        u.video.shadowAttr = (if copy then s.video.latchAttr else s.video.shadowAttr)

/-- R174 to R177, R184, R114, R115: from a block start, the eight ticks of a block draw its eight pixels from the
pattern and attribute bytes of its own cell in the screen page, with ink and paper swapped when FLASH and the flash
mask are both set. This holds for both values of `fetch_ff` at the block start, and the block leaves it as it was. -/
def Obligations.BlockIsDrawnFromItsBytes : Prop :=
  ∀ (s : State) (t : BitVec 24) (y c k : Nat), s.video.shaped s.cfg → y < 192 → c < 32 → k < 8 →
    t.toNat = s.video.cursor.toNat + 8 →
    atRaster s.cfg s.video.cursor.toNat (s.cfg.bt + y) (s.cfg.bw - 8 + 8 * c) →
    let page : BitVec 3 := if s.bank.getLsbD 3 then 7 else 5
    let pat := ramByte s page (BitVec.ofNat 14 (y / 64 * 2048 + y % 8 * 256 + y / 8 % 8 * 32 + c))
    let attr := ramByte s page (BitVec.ofNat 14 (0x1800 + y / 8 * 32 + c))
    let isInk := (pat.getLsbD (7 - k)) ^^ (attr.getLsbD 7 && s.flashMask)
    ∃ u, exec (.render t) s = .next u ∧ u.video.fetchFf = s.video.fetchFf ∧
      (pixelAt u.video (s.cfg.bt + y) (s.cfg.bw + 8 * c + k)).toNat =
        (if attr.getLsbD 6 then 8 else 0) + (if isInk then attr.toNat % 8 else attr.toNat / 8 % 8)

/-- R181, R184, R313: when a WRITE that lands at tick W is drawn in a block whose latch ticks start at T0. With
`fetch_ff` 0 at T0 the pattern byte is the one as of tick T0 + 2, so a write up to W = T0 + 1 is drawn, and the
attribute byte the one as of T0 + 3, up to W = T0 + 2; with `fetch_ff` 1 they are the other way round. (At W = 2^32 - 1
the cursor after the catch-up is a free value, log 6.) -/
def Obligations.WriteIsDrawnFromItsTick : Prop :=
  ∀ (s u v : State) (a : Nat) (d : Byte) (t : BitVec 24) (y c k : Nat),
    s.video.shaped s.cfg → y < 192 → c < 32 → k < 8 → t.toNat = s.video.cursor.toNat + 8 →
    atRaster s.cfg s.video.cursor.toNat (s.cfg.bt + y) (s.cfg.bw - 8 + 8 * c) →
    exec (.write a d) s = .next u → u.tick.toNat < 2 ^ 32 - 1 → exec (.render t) u = .next v →
    let T0 := s.video.cursor.toNat
    let W := u.tick.toNat
    let page : BitVec 3 := if s.bank.getLsbD 3 then 7 else 5
    let pat := ramByte (if W ≤ T0 + (if s.video.fetchFf then 2 else 1) then u else s) page
      (BitVec.ofNat 14 (y / 64 * 2048 + y % 8 * 256 + y / 8 % 8 * 32 + c))
    let attr := ramByte (if W ≤ T0 + (if s.video.fetchFf then 1 else 2) then u else s) page
      (BitVec.ofNat 14 (0x1800 + y / 8 * 32 + c))
    let isInk := (pat.getLsbD (7 - k)) ^^ (attr.getLsbD 7 && s.flashMask)
    (pixelAt v.video (s.cfg.bt + y) (s.cfg.bw + 8 * c + k)).toNat =
      (if attr.getLsbD 6 then 8 else 0) + (if isInk then attr.toNat % 8 else attr.toNat / 8 % 8)

/-- R172: the pattern offsets are one-to-one and below 0x1800, the attribute offsets lie in 0x1800..0x1AFF. -/
def Obligations.ScreenLayoutIsOneToOne : Prop :=
  ∀ y c y' c' : Nat, y < 192 → c < 32 → y' < 192 → c' < 32 →
    (patternOff y c).toNat < 0x1800 ∧ 0x1800 ≤ (attrOff y c).toNat ∧ (attrOff y c).toNat ≤ 0x1AFF ∧
    (patternOff y c = patternOff y' c' → y = y' ∧ c = c') ∧
    (attrOff y c = attrOff y' c' → y / 8 = y' / 8 ∧ c = c')

/-- R182: rendering early changes nothing. Two RENDERs with rising targets are the second alone, and RENDER before or
after TICK gives the same state. -/
def Obligations.RenderingEarlyChangesNothing : Prop :=
  ∀ (s u : State) (v : BitVec 24), exec (.render v) s = .next u →
    (∀ v' : BitVec 24, v.toNat ≤ v'.toNat → exec (.render v') u = exec (.render v') s) ∧
    (∀ (n : BitVec 24) (w : State), exec (.tick n) s = .next w → w.response = .none →
      exec (.render v) w = exec (.tick n) u)

/-- R183: append-only rendering. No command but RUN, NEWFRAME and RESET, which restart the frame, changes a pixel of a
tick below the cursor. -/
def Obligations.RenderedPixelsStay : Prop :=
  ∀ (i : Instr) (s u : State) (t l p x : Nat), i ≠ .run → i ≠ .newframe → i ≠ .reset →
    exec i s = .next u → t < s.video.cursor.toNat → atRaster s.cfg t l p → (x = p ∨ x = p + 1) →
    pixelAt u.video l x = pixelAt s.video l x

/-! ## The scheduler -/

/-- R211, R212, R213: RUN in IDLE starts a frame if the last one is over, clears the events, presents the interrupt
level and asks for a step. (The answer "running" until the loop exits is the model's choice, log 9.) -/
def Obligations.RunResult : Prop :=
  ∀ s : State, s.phase = .idle →
    let f : State := if s.cfg.tpl * s.cfg.lpf ≤ s.tick.toNat then startNewFrame s else s
    let lvl : Bool := !s.intSuppress && decide (1 ≤ f.tick.toNat ∧ f.tick.toNat ≤ s.cfg.intLen)
    exec .run s = .next
      { f with events := 0, intLine := lvl, phase := .awaitStep, response := .running, signals := [.int lvl, .step] }

/-- R214, R215, R217, R213: a STEPEND after which no event bit is set and the frame is not over starts the next step
with its interrupt level. -/
def Obligations.StependContinues : Prop :=
  ∀ (s : State) (pc : Addr), s.phase = .awaitStep → s.events = 0 →
    (s.tlimEn = true → s.tick.toNat < s.tlim.toNat) → (s.flimEn = true → s.fetchCount.toNat < s.flim.toNat) →
    (markAt s pc).getLsbD 0 = false → s.tick.toNat < s.cfg.tpl * s.cfg.lpf →
    let lvl : Bool := !s.intSuppress && decide (1 ≤ s.tick.toNat ∧ s.tick.toNat ≤ s.cfg.intLen)
    exec (.stepend pc.toNat) s = .next
      { s with intLine := lvl, response := .none, signals := [.int lvl, .step] }

/-- R214 to R217, R285: the event bits accumulate; when any is set or the frame is over, the loop exits: the end of a
frame renders to FRAME_LEN and sets bit 4, the line drops, and RUN's response is the event mask. (That the STEPEND's
step carries RUN's response is the model's choice, log 9.) -/
def Obligations.StependExits : Prop :=
  ∀ (s : State) (pc : Addr), s.phase = .awaitStep →
    let tl : Bool := s.tlimEn && decide (s.tlim.toNat ≤ s.tick.toNat)
    let fl : Bool := s.flimEn && decide (s.flim.toNat ≤ s.fetchCount.toNat)
    let bp : Bool := (markAt s pc).getLsbD 0
    let ended : Bool := decide (s.cfg.tpl * s.cfg.lpf ≤ s.tick.toNat)
    let ev : Byte := s.events ||| (if tl then 0x02 else 0) ||| (if fl then 0x04 else 0) ||| (if bp then 0x08 else 0)
      ||| (if ended then 0x10 else 0)
    ev ≠ 0 →
    exec (.stepend pc.toNat) s = .next
      { (if ended then renderTo (s.cfg.tpl * s.cfg.lpf) s else s) with
        events := ev, intLine := false, phase := .idle, response := .events ev, signals := [.int false] }

/-- R218: STOP sets EV_STOP and nothing else, in either phase. -/
def Obligations.StopResult : Prop :=
  ∀ s : State, exec .stop s = .next { s with events := s.events ||| 0x01, response := .none, signals := [] }

/-- R218, R217: STOP during a run ends the loop at the next STEPEND, with bit 0 in the response. -/
def Obligations.StopEndsTheRun : Prop :=
  ∀ (s : State) (pc : Addr), s.phase = .awaitStep →
    ∃ u t ev, exec .stop s = .next u ∧ exec (.stepend pc.toNat) u = .next t ∧ t.phase = .idle ∧
      t.response = .events ev ∧ ev.getLsbD 0 = true

/-- R314: "A STOP issued while IDLE is lost." RUN after it is RUN without it. -/
def Obligations.StopWhileIdleIsLost : Prop :=
  ∀ s u : State, s.phase = .idle → exec .stop s = .next u → exec .run u = exec .run s

/-- R219, R248: SETMARK and PORTSET, in IDLE, write the one entry they name. -/
def Obligations.SetmarkAndPortsetResult : Prop :=
  ∀ (s : State) (a : Addr) (f : BitVec 2) (v : Byte), s.phase = .idle →
    Table.wf (0 : BitVec 2) 0x10000 s.marks = true → Table.wf (none : Option Byte) 0x10000 s.portOvr = true →
    (∃ t, exec (.setmark a.toNat f) s = .next t ∧
      t = { s with marks := t.marks, response := .none, signals := [] } ∧
      ∀ b, markAt t b = if b = a then f else markAt s b) ∧
    (∃ t, exec (.portset a.toNat v) s = .next t ∧
      t = { s with portOvr := t.portOvr, response := .none, signals := [] } ∧
      ∀ b, portValue t b = if b = a then some v else portValue s b)

/-- R220, R221, R222: the limits and the interrupt switch, in IDLE; FLIMIT also clears the count. -/
def Obligations.LimitAndSuppressResult : Prop :=
  ∀ (s : State) (e : Bool) (v : BitVec 24), s.phase = .idle →
    exec (.tlimit e v) s = .next { s with tlimEn := e, tlim := v, response := .none, signals := [] } ∧
    exec (.flimit e v) s = .next { s with flimEn := e, flim := v, fetchCount := 0, response := .none, signals := [] } ∧
    exec (.intsup e) s = .next { s with intSuppress := e, response := .none, signals := [] }

/-! ## Host commands -/

/-- R241: RESET in IDLE gives the constructed state of the same configuration, but for the elements it keeps. (The
stream and the free-value counter are the model's own, log 1 and log 6.) -/
def Obligations.ResetResult : Prop :=
  ∀ s : State, s.phase = .idle → exec .reset s = .next
    { State.ofConfig s.cfg with
      tlimEn := s.tlimEn, tlim := s.tlim, flimEn := s.flimEn, flim := s.flim, intSuppress := s.intSuppress,
      portOvr := s.portOvr, faults := s.faults, pending := s.pending, freeCount := s.freeCount }

/-- R243, R244, R320: POKE and POKEP in IDLE render to `tick`, then write one byte, through the mapping (dropped in
ROM) or into the named page; they take no tick. -/
def Obligations.PokeAndPokepResult : Prop :=
  ∀ (s : State) (a : Addr) (pg : BitVec 3) (off : BitVec 14) (d : Byte), s.phase = .idle →
    s.slots = slotMap s.bank s.overlay → Memory.wf s.ram = true →
    let page : BitVec 3 :=
      if a.toNat < 0x8000 then 5 else if a.toNat < 0xC000 then 2 else BitVec.ofNat 3 (s.bank.toNat % 8)
    let r : State := renderTo s.tick.toNat s
    (a.toNat < 0x4000 → exec (.poke a.toNat d) s = .next { r with response := .none, signals := [] }) ∧
    (0x4000 ≤ a.toNat → ∃ m : Memory,
      exec (.poke a.toNat d) s = .next { r with ram := m, response := .none, signals := [] } ∧
      ∀ (p : BitVec 3) (o : BitVec 14),
        m.byte p o = if p = page ∧ o = BitVec.ofNat 14 (a.toNat % 0x4000) then d else ramByte s p o) ∧
    (∃ m : Memory,
      exec (.pokep pg off d) s = .next { r with ram := m, response := .none, signals := [] } ∧
      ∀ (p : BitVec 3) (o : BitVec 14), m.byte p o = if p = pg ∧ o = off then d else ramByte s p o)

/-- R246, R247, R150: SETSP and SETPC in IDLE only signal the CPU core. -/
def Obligations.SetspAndSetpcResult : Prop :=
  ∀ (s : State) (v : BitVec 16), s.phase = .idle →
    exec (.setsp v) s = .next { s with response := .none, signals := [.setSp v] } ∧
    exec (.setpc v) s = .next { s with response := .none, signals := [.setPc v] }

/-- R249, R11: GETGEOM in IDLE answers (BW, BT, BB, W, H). -/
def Obligations.GetgeomResult : Prop :=
  ∀ s : State, s.phase = .idle → exec .getgeom s = .next
    { s with response := .geometry s.cfg.bw s.cfg.bt s.cfg.bb (2 * s.cfg.bw + 256) (s.cfg.bt + 192 + s.cfg.bb),
             signals := [] }

/-- R270, R271: GETFRAME in IDLE changes nothing and answers W, H and W*H words in row-major order; word r*W + x
translates pixel x of line r. -/
def Obligations.GetframeResult : Prop :=
  ∀ s : State, s.phase = .idle →
    let W := 2 * s.cfg.bw + 256
    let H := s.cfg.bt + 192 + s.cfg.bb
    ∃ img : List Word, exec .getframe s = .next { s with response := .frame W H img, signals := [] } ∧
      img.length = W * H ∧
      ∀ r x, r < H → x < W → ∃ w, img[r * W + x]? = some w ∧
        let n := (chunkAt s.video r (x / 8)).toNat / 2 ^ (4 * (x % 8)) % 16
        let lvl := if n / 8 = 1 then s.cfg.lBright.toNat else s.cfg.lNormal.toNat
        w.toNat = 0xFF * 2 ^ 24 + (n % 2 * lvl) * 2 ^ 16 + (n / 4 % 2 * lvl) * 2 ^ 8 + n / 2 % 2 * lvl

/-! ## The whole machine -/

/-- R35, R39, R44, R47, R52, R55 and the canonical forms: every step keeps the invariant. -/
def Obligations.StepKeepsTheInvariant : Prop :=
  ∀ s t : State, s.Inv → step s = .next t → t.Inv

/-- The invariant holds after reset, and after construction with any configuration. -/
def Obligations.ResetHasTheInvariant : Prop :=
  State.reset.Inv ∧ ∀ c : Config, (State.ofConfig c).Inv

/-- R37: `cursor <= max(tick + 1, FRAME_LEN)` is kept by every command but a RENDER with a target above that. -/
def Obligations.CursorStaysBounded : Prop :=
  ∀ (i : Instr) (s t : State), s.CursorBounded →
    (∀ v, i = .render v → v.toNat ≤ max (s.tick.toNat + 1) s.cfg.frameLen) → exec i s = .next t → t.CursorBounded

/-- R34, R56: no step changes the configuration, the ROM images among it. -/
def Obligations.ConfigurationNeverChanges : Prop :=
  ∀ s t : State, step s = .next t → t.cfg = s.cfg

/-- R39, R317: while locked, no command but RESET changes the bank register or the lock. -/
def Obligations.LockIsOneWay : Prop :=
  ∀ (i : Instr) (s t : State), s.locked = true → i ≠ .reset → exec i s = .next t →
    t.bank = s.bank ∧ t.locked = true

/-- R33, R35 to R54: which commands write which element. -/
def Obligations.EachElementHasItsWriters : Prop :=
  ∀ (i : Instr) (s t : State), exec i s = .next t →
    (i.mnemonic ∉ [Mnemonic.write, .poke, .pokep, .reset] → t.ram = s.ram) ∧
    (i.mnemonic ∉ [Mnemonic.out, .bank, .reset] → t.bank = s.bank ∧ t.locked = s.locked) ∧
    (i.mnemonic ∉ [Mnemonic.fetch, .out, .bank, .reset] → t.slots = s.slots) ∧
    (i.mnemonic ∉ [Mnemonic.write, .inp, .out, .bank, .poke, .pokep, .render, .newframe, .run, .stepend, .reset] →
      t.video = s.video) ∧
    (i.mnemonic ∉ [Mnemonic.fetch, .reset] → t.overlay = s.overlay) ∧
    (i.mnemonic ∉ [Mnemonic.out, .reset] → t.border = s.border) ∧
    (i.mnemonic ∉ [Mnemonic.newframe, .run, .reset] → t.flashMask = s.flashMask ∧ t.frameCtr = s.frameCtr) ∧
    (i.mnemonic ∉ [Mnemonic.setmark, .reset] → t.marks = s.marks) ∧
    (i.mnemonic ≠ .tlimit → t.tlimEn = s.tlimEn ∧ t.tlim = s.tlim) ∧
    (i.mnemonic ≠ .flimit → t.flimEn = s.flimEn ∧ t.flim = s.flim) ∧
    (i.mnemonic ∉ [Mnemonic.fetch, .flimit, .reset] → t.fetchCount = s.fetchCount) ∧
    (i.mnemonic ≠ .intsup → t.intSuppress = s.intSuppress) ∧
    (i.mnemonic ≠ .portset → t.portOvr = s.portOvr) ∧
    (i.mnemonic ∉ [Mnemonic.run, .stepend] → t.phase = s.phase) ∧
    (i.mnemonic ∉ [Mnemonic.run, .stop, .stepend, .reset] → t.events = s.events) ∧
    (i.mnemonic ∉ [Mnemonic.run, .stepend, .reset] → t.intLine = s.intLine) ∧
    (i.mnemonic ∉ [Mnemonic.fetch, .read, .write, .tick, .inp, .out, .newframe, .run, .reset] → t.tick = s.tick) ∧
    t.pending = s.pending

/-- R36: `tick` never decreases but by a frame start (NEWFRAME, RUN) or RESET. -/
def Obligations.TickNeverDecreases : Prop :=
  ∀ (i : Instr) (s t : State), i ≠ .newframe → i ≠ .run → i ≠ .reset → exec i s = .next t →
    s.tick.toNat ≤ t.tick.toNat

/-- R87, R91 and the property "writing then reading the same address ... returns the written value": a byte written at
0x4000..0xFFFF is read and fetched back. -/
def Obligations.WrittenByteReadsBack : Prop :=
  ∀ (s : State) (a : Addr) (d : Byte), s.slots = slotMap s.bank s.overlay → Memory.wf s.ram = true →
    0x4000 ≤ a.toNat → s.tick.toNat + 2 ^ 25 < 2 ^ 32 →
    ∃ u t f, exec (.write a.toNat d) s = .next u ∧ exec (.read a.toNat) u = .next t ∧ t.response = .byte d ∧
      exec (.fetch a.toNat) u = .next f ∧ f.response = .byte d

/-- R75, R78, R34: no command changes what a ROM page reads, and a WRITE to slot 0 changes no byte at all. -/
def Obligations.RomIsImmutable : Prop :=
  ∀ (s t : State), s.slots = slotMap s.bank s.overlay →
    (∀ (i : Instr), exec i s = .next t → ∀ p o, t.cfg.romByte p o = s.cfg.romByte p o) ∧
    (∀ (a : Addr) (d : Byte), a.toNat < 0x4000 → exec (.write a.toNat d) s = .next t →
      ∀ b : Addr, memRead t b = memRead s b)

/-- R73, I16: ROM page 3 is never mapped, so no command can show what it holds. -/
def Obligations.RomPageThreeIsNeverSeen : Prop :=
  ∀ (i : Instr) (s t : State) (r : RomPage), s.slots = slotMap s.bank s.overlay → exec i s = .next t →
    exec i (s.withRom3 r) = .next (t.withRom3 r)

/-- R48: "No rule reads VISITED." Two states whose marks differ only in VISITED bits answer every command alike, and
differ in nothing but the marks afterwards. -/
def Obligations.VisitedBitIsNeverRead : Prop :=
  ∀ (i : Instr) (s t : State) (m : List (Nat × BitVec 2)),
    (∀ n : Nat, (Table.get 0 m n).getLsbD 0 = (Table.get 0 s.marks n).getLsbD 0) → exec i s = .next t →
    ∃ m', exec i { s with marks := m } = .next { t with marks := m' }

/-- R242, I28: construction accepts exactly the configurations that meet the constraints (LPF >= 1 is log 5). -/
def Obligations.ConstructionChecksTheConfiguration : Prop :=
  ∀ r : RawConfig,
    let ok := r.bw % 4 = 0 ∧ 8 ≤ r.bw ∧ 2 * r.bw + 256 ≤ 2 * r.tpl ∧ 1 ≤ r.bt + 192 + r.bb ∧ 1 ≤ r.lpf
    (ok → ∃ c : Config, c.toRawConfig = r ∧ State.construct r = some (State.ofConfig c)) ∧
    (¬ ok → State.construct r = none)

/-- R311, R310: the construction column of the table, for any configuration. -/
def Obligations.ConstructionValues : Prop :=
  ∀ c : Config, let s := State.ofConfig c
    (∀ p o, ramByte s p o = 0) ∧ s.slots = ⟨.rom 0, .ram 5, .ram 2, .ram 0⟩ ∧ s.tick = 0 ∧ s.video.cursor = 0 ∧
    s.bank = 0 ∧ s.locked = false ∧ s.overlay = false ∧ s.border = 0 ∧ s.flashMask = false ∧ s.frameCtr = 0 ∧
    (∀ r k, chunkAt s.video r k = 0) ∧ s.video.latchPat = 0 ∧ s.video.latchAttr = 0 ∧ s.video.shadowPat = 0 ∧
    s.video.shadowAttr = 0 ∧ s.video.fetchFf = false ∧ s.events = 0 ∧ (∀ a, markAt s a = 0) ∧ s.tlimEn = false ∧
    s.tlim = 0 ∧ s.flimEn = false ∧ s.flim = 0 ∧ s.fetchCount = 0 ∧ s.intSuppress = false ∧ s.intLine = false ∧
    (∀ p, portValue s p = none) ∧ s.phase = .idle ∧ s.faults = [] ∧ s.cfg = c

/-! ## Text -/

/-- R111: "An operand that does not fit its field is an assembly error, not a command." Every command a line gives is
well formed, so its word decodes to it. -/
def Obligations.AssembledCommandsAreWellFormed : Prop :=
  ∀ (line : String) (is : List Instr), assembleLine line = .ok is → ∀ i ∈ is, i.wellFormed = true

/-- R111: for each mnemonic, operands that fit their fields give its command, and one of 2^width or more is "an
assembly error, not a command". -/
def Obligations.OperandsMustFitTheirFields : Prop :=
  (∀ x : Nat,
    assemble "FETCH" [.number x] = ifFits (x < 2 ^ 16) [.fetch x] ∧
    assemble "READ" [.number x] = ifFits (x < 2 ^ 16) [.read x] ∧
    assemble "IN" [.number x] = ifFits (x < 2 ^ 16) [.inp x] ∧
    assemble "STEPEND" [.number x] = ifFits (x < 2 ^ 16) [.stepend x] ∧
    assemble "SETSP" [.number x] = ifFits (x < 2 ^ 16) [.setsp (BitVec.ofNat 16 x)] ∧
    assemble "SETPC" [.number x] = ifFits (x < 2 ^ 16) [.setpc (BitVec.ofNat 16 x)] ∧
    assemble "TICK" [.number x] = ifFits (x < 2 ^ 24) [.tick (BitVec.ofNat 24 x)] ∧
    assemble "RENDER" [.number x] = ifFits (x < 2 ^ 24) [.render (BitVec.ofNat 24 x)] ∧
    assemble "TLIMIT" [.onWord, .number x] = ifFits (x < 2 ^ 24) [.tlimit true (BitVec.ofNat 24 x)] ∧
    assemble "FLIMIT" [.onWord, .number x] = ifFits (x < 2 ^ 24) [.flimit true (BitVec.ofNat 24 x)] ∧
    assemble "INTSUP" [.number x] = ifFits (x < 2) [.intsup (x = 1)] ∧
    assemble "BANK" [.number x] = ifFits (x < 2 ^ 8) [.bank (BitVec.ofNat 8 x)]) ∧
  (∀ x y : Nat,
    assemble "WRITE" [.number x, .number y] = ifFits (x < 2 ^ 16 ∧ y < 2 ^ 8) [.write x (BitVec.ofNat 8 y)] ∧
    assemble "OUT" [.number x, .number y] = ifFits (x < 2 ^ 16 ∧ y < 2 ^ 8) [.out x (BitVec.ofNat 8 y)] ∧
    assemble "POKE" [.number x, .number y] = ifFits (x < 2 ^ 16 ∧ y < 2 ^ 8) [.poke x (BitVec.ofNat 8 y)] ∧
    assemble "PORTSET" [.number x, .number y] = ifFits (x < 2 ^ 16 ∧ y < 2 ^ 8) [.portset x (BitVec.ofNat 8 y)] ∧
    assemble "SETMARK" [.number x, .number y] = ifFits (x < 2 ^ 16 ∧ y < 4) [.setmark x (BitVec.ofNat 2 y)]) ∧
  (∀ x y z : Nat, assemble "POKEP" [.number x, .number y, .number z] =
    ifFits (x < 8 ∧ y < 2 ^ 14 ∧ z < 2 ^ 8) [.pokep (BitVec.ofNat 3 x) (BitVec.ofNat 14 y) (BitVec.ofNat 8 z)]) ∧
  assemble "TLIMIT" [.offWord] = .ok [.tlimit false 0] ∧ assemble "FLIMIT" [.offWord] = .ok [.flimit false 0] ∧
  assemble "RUN" [] = .ok [.run] ∧ assemble "STOP" [] = .ok [.stop] ∧ assemble "RESET" [] = .ok [.reset] ∧
  assemble "NEWFRAME" [] = .ok [.newframe] ∧ assemble "GETFRAME" [] = .ok [.getframe] ∧
  assemble "GETGEOM" [] = .ok [.getgeom]

/-- R111: "One command per line: `MNEMONIC operand, operand ...`. `;` starts a comment." A line of a mnemonic and
decimal operands, or `on` and `off`, assembles as the mnemonic with those operands, and a comment changes nothing.
(That a space separates the mnemonic and may follow a comma, and the capitals, are log 14.) -/
def Obligations.LineIsItsMnemonicAndOperands : Prop :=
  (∀ (m : String) (x y z : Nat), m ≠ "" → (∀ ch ∈ m.toList, ch.isUpper = true) →
    assembleLine m = assemble m [] ∧
    assembleLine (m ++ " " ++ toString x) = assemble m [.number x] ∧
    assembleLine (m ++ " " ++ toString x ++ ", " ++ toString y) = assemble m [.number x, .number y] ∧
    assembleLine (m ++ " " ++ toString x ++ ", " ++ toString y ++ ", " ++ toString z) =
      assemble m [.number x, .number y, .number z] ∧
    assembleLine (m ++ " on, " ++ toString x) = assemble m [.onWord, .number x] ∧
    assembleLine (m ++ " off") = assemble m [.offWord]) ∧
  (∀ line comment : String, assembleLine (line ++ ";" ++ comment) = assembleLine line)

/-- R118, R83: the six pseudo-commands by name. LOADBYTES is POKE (a+i) mod 0x10000 in ascending i, LOADPAGE is
POKEP pg, i, bi, and the others expand as listed; an operand that does not fit is an error (R111). (A LOADPAGE of
another length is an error by log 14.) -/
def Obligations.PseudoCommandsExpand : Prop :=
  (∀ (a : Nat) (ns : List Nat),
    (a < 2 ^ 16 → (∀ n ∈ ns, n < 2 ^ 8) → ∃ is, assemble "LOADBYTES" [.number a, .bytes ns] = .ok is ∧
      is.length = ns.length ∧
      ∀ (i : Nat) (b : Nat), ns[i]? = some b → is[i]? = some (.poke ((a + i) % 0x10000) (BitVec.ofNat 8 b))) ∧
    (2 ^ 16 ≤ a ∨ (∃ n ∈ ns, 2 ^ 8 ≤ n) →
      assemble "LOADBYTES" [.number a, .bytes ns] = .error .operandTooLarge)) ∧
  (∀ (pg : Nat) (ns : List Nat),
    (pg < 8 → ns.length = 16384 → (∀ n ∈ ns, n < 2 ^ 8) →
      ∃ is, assemble "LOADPAGE" [.number pg, .bytes ns] = .ok is ∧ is.length = 16384 ∧
        ∀ (i : Nat) (b : Nat), ns[i]? = some b →
          is[i]? = some (.pokep (BitVec.ofNat 3 pg) (BitVec.ofNat 14 i) (BitVec.ofNat 8 b))) ∧
    (8 ≤ pg ∨ ns.length ≠ 16384 ∨ (∃ n ∈ ns, 2 ^ 8 ≤ n) →
      ∃ e, assemble "LOADPAGE" [.number pg, .bytes ns] = .error e)) ∧
  (∀ x y : Nat, assemble "SETSPPC" [.number x, .number y] =
    ifFits (x < 2 ^ 16 ∧ y < 2 ^ 16) [.setsp (BitVec.ofNat 16 x), .setpc (BitVec.ofNat 16 y)]) ∧
  (∀ x : Nat,
    assemble "SETBANK" [.number x] = ifFits (x < 2 ^ 8) [.out 0x7FFD (BitVec.ofNat 8 x)] ∧
    assemble "BORDER" [.number x] = ifFits (x < 2 ^ 8) [.out 0x00FE (BitVec.ofNat 8 x)] ∧
    assemble "NOPSTEP" [.number x] = ifFits (x < 2 ^ 16) [.fetch x, .tick 4, .stepend ((x + 1) % 0x10000)]) ∧
  (∀ (a : Addr) (bs : List Byte), (loadBytes a bs).length = bs.length ∧
    ∀ (i : Nat) (b : Byte), bs[i]? = some b → (loadBytes a bs)[i]? = some (.poke ((a.toNat + i) % 0x10000) b)) ∧
  (∀ (pg : BitVec 3) (bs : List Byte), (loadPage pg bs).length = bs.length ∧
    ∀ (i : Nat) (b : Byte), bs[i]? = some b → (loadPage pg bs)[i]? = some (.pokep pg (BitVec.ofNat 14 i) b)) ∧
  (∀ sp pc : BitVec 16, setSpPc sp pc = [.setsp sp, .setpc pc]) ∧
  (∀ v : Byte, setBank v = [.out 0x7FFD v] ∧ borderLine v = [.out 0x00FE v]) ∧
  (∀ pc : Addr, nopStep pc = [.fetch pc.toNat, .tick 4, .stepend ((pc.toNat + 1) % 0x10000)])
end

