-- ==== Sys2Proof/Laws/Assembler.lean ====
section
/-! SUPPORT. The text form of commands (spec 30_encoding.md R111, R118): what a fitted operand gives, and how a line is
cut at its separators. -/
namespace Sys2Proof.Machine

/-! ## Operands that fit -/

theorem fit_eq (b x : Nat) : fit b x = if x < 2 ^ b then .ok (BitVec.ofNat b x) else .error .operandTooLarge := rfl

theorem line1_eq (b : Nat) (f : BitVec b → List Instr) (x : Nat) :
    line1 b f x = ifFits (x < 2 ^ b) (f (BitVec.ofNat b x)) := by
  unfold line1 ifFits
  rw [fit_eq]
  split <;> rfl

theorem line2_eq (b c : Nat) (f : BitVec b → BitVec c → List Instr) (x y : Nat) :
    line2 b c f x y = ifFits (x < 2 ^ b ∧ y < 2 ^ c) (f (BitVec.ofNat b x) (BitVec.ofNat c y)) := by
  unfold line2 ifFits
  rw [fit_eq, fit_eq]
  by_cases hx : x < 2 ^ b <;> by_cases hy : y < 2 ^ c <;> simp [hx, hy, Except.bind, Except.map]

/-- An operand that fits a 16-bit field is the number itself. -/
theorem line1_addr (k : Nat → List Instr) (x : Nat) :
    line1 16 (fun a => k a.toNat) x = ifFits (x < 2 ^ 16) (k x) := by
  rw [line1_eq]
  unfold ifFits
  split
  · rw [BitVec.toNat_ofNat, Nat.mod_eq_of_lt ‹_›]
  · rfl

theorem line2_addr (c : Nat) (k : Nat → BitVec c → List Instr) (x y : Nat) :
    line2 16 c (fun a d => k a.toNat d) x y = ifFits (x < 2 ^ 16 ∧ y < 2 ^ c) (k x (BitVec.ofNat c y)) := by
  rw [line2_eq]
  unfold ifFits
  split
  · rename_i h
    rw [BitVec.toNat_ofNat, Nat.mod_eq_of_lt h.1]
  · rfl

theorem mapM_fit_of_fits {b : Nat} {ns : List Nat} (h : ∀ n ∈ ns, n < 2 ^ b) :
    ns.mapM (fit b) = .ok (ns.map (BitVec.ofNat b)) := by
  induction ns with
  | nil => rfl
  | cons n ns ih =>
    rw [List.mapM_cons, ih fun m hm => h m (List.mem_cons_of_mem _ hm), fit_eq, if_pos (h n (List.mem_cons_self ..))]
    rfl

theorem mapM_fit_of_too_large {b : Nat} {ns : List Nat} (h : ∃ n ∈ ns, 2 ^ b ≤ n) :
    ns.mapM (fit b) = .error .operandTooLarge := by
  induction ns with
  | nil => simp at h
  | cons n ns ih =>
    rw [List.mapM_cons, fit_eq]
    by_cases hn : n < 2 ^ b
    · obtain ⟨m, hm, hb⟩ := h
      obtain rfl | hm := List.mem_cons.1 hm
      · omega
      · rw [if_pos hn, ih ⟨m, hm, hb⟩]
        rfl
    · rw [if_neg hn]
      rfl

/-! ## Cutting a line -/

/-- A character that no rule of `lexLine` cuts at. -/
def plain (c : Char) : Prop :=
  c ≠ ';' ∧ c ≠ ' ' ∧ c ≠ '\t' ∧ c ≠ '\r' ∧ c ≠ '\n' ∧ c ≠ ',' ∧ c ≠ '[' ∧ c ≠ ']'

/-- Every separator has a code below 48 or is one of these three. -/
theorem plain_of_code {c : Char} (h : 48 ≤ c.toNat) (h1 : c.toNat ≠ 59) (h2 : c.toNat ≠ 91) (h3 : c.toNat ≠ 93) :
    plain c := by
  have ne : ∀ d : Char, (d.toNat < 48 ∨ d.toNat = 59 ∨ d.toNat = 91 ∨ d.toNat = 93) → c ≠ d := by
    rintro d hd rfl
    omega
  refine ⟨?_, ?_, ?_, ?_, ?_, ?_, ?_, ?_⟩ <;> exact ne _ (by decide)

theorem plain_of_isUpper {c : Char} (h : c.isUpper = true) : plain c := by
  have h' : 65 ≤ c.toNat ∧ c.toNat ≤ 90 := by
    simp [Char.isUpper] at h
    exact ⟨h.1, h.2⟩
  exact plain_of_code (by omega) (by omega) (by omega) (by omega)

theorem isDigit_code {c : Char} (h : c.isDigit = true) : 48 ≤ c.toNat ∧ c.toNat ≤ 57 := by
  simp [Char.isDigit] at h
  exact ⟨h.1, h.2⟩

theorem plain_of_isDigit {c : Char} (h : c.isDigit = true) : plain c := by
  have := isDigit_code h
  exact plain_of_code (by omega) (by omega) (by omega) (by omega)

theorem lexLine_plain (w rest cur : List Char) (h : ∀ c ∈ w, plain c) :
    lexLine (w ++ rest) cur = lexLine rest (w.reverse ++ cur) := by
  induction w generalizing cur with
  | nil => rfl
  | cons c w ih =>
    obtain ⟨h1, h2, h3, h4, h5, h6, h7, h8⟩ := h c (List.mem_cons_self ..)
    rw [List.cons_append, lexLine, if_neg h1, if_neg (by simp [h2, h3, h4, h5]), if_neg h6, if_neg h7, if_neg h8,
      ih (c :: cur) fun d hd => h d (List.mem_cons_of_mem _ hd)]
    simp

theorem flushText_reverse {w : List Char} (hw : w ≠ []) (ts : List Token) :
    flushText w.reverse ts = .text w :: ts := by
  unfold flushText
  cases h : w.reverse with
  | nil => exact absurd (by simpa using h) hw
  | cons a b =>
    have : (a :: b).reverse = w := by rw [← h]; simp
    simp [this]

/-- A word at the end of a line. -/
theorem lexLine_word {w : List Char} (hp : ∀ c ∈ w, plain c) (hw : w ≠ []) : lexLine w [] = [.text w] := by
  have h := lexLine_plain w [] [] hp
  rw [List.append_nil, List.append_nil] at h
  rw [h, lexLine, flushText_reverse hw]

/-- A word before a space. -/
theorem lexLine_word_space {w : List Char} (hp : ∀ c ∈ w, plain c) (hw : w ≠ []) (rest : List Char) :
    lexLine (w ++ ' ' :: rest) [] = .text w :: lexLine rest [] := by
  rw [lexLine_plain w _ [] hp, List.append_nil, lexLine, if_neg (by decide), if_pos (by simp), flushText_reverse hw]

/-- A word before a comma and a space. -/
theorem lexLine_word_comma {w : List Char} (hp : ∀ c ∈ w, plain c) (hw : w ≠ []) (rest : List Char) :
    lexLine (w ++ ',' :: ' ' :: rest) [] = .text w :: .comma :: lexLine rest [] := by
  rw [lexLine_plain w _ [] hp, List.append_nil, lexLine, if_neg (by decide), if_neg (by decide), if_pos rfl,
    flushText_reverse hw]
  simp [lexLine, flushText]

/-- `;` starts a comment. -/
theorem lexLine_comment (line comment cur : List Char) : lexLine (line ++ ';' :: comment) cur = lexLine line cur := by
  induction line generalizing cur with
  | nil => simp [lexLine]
  | cons c line ih => simp only [List.cons_append, lexLine, ih]

/-! ## Decimal numbers -/

theorem digitValue_decimal {c : Char} (h : c.isDigit = true) : digitValue 10 c = some (c.toNat - '0'.toNat) := by
  have h' := isDigit_code h
  simp only [digitValue]
  rw [if_pos h']
  simp [Option.filter]
  omega

theorem digitsValue_decimal (cs : List Char) (acc : Nat) (h : ∀ c ∈ cs, c.isDigit = true) :
    digitsValue 10 cs acc = some (Nat.ofDigitChars 10 cs acc) := by
  induction cs generalizing acc with
  | nil => simp [digitsValue]
  | cons c cs ih =>
    rw [digitsValue, digitValue_decimal (h c (List.mem_cons_self ..)), Option.bind_some,
      ih _ fun d hd => h d (List.mem_cons_of_mem _ hd)]
    simp [Nat.ofDigitChars_cons, Nat.mul_comm]

theorem isDigit_toDigits {x : Nat} {c : Char} (h : c ∈ Nat.toDigits 10 x) : c.isDigit = true :=
  Nat.isDigit_of_mem_toDigits (by decide) (by decide) h

theorem numberOf_toDigits (x : Nat) : numberOf (Nat.toDigits 10 x) = some x := by
  have hd : ∀ c ∈ Nat.toDigits 10 x, c.isDigit = true := fun _ => isDigit_toDigits
  have hne : Nat.toDigits 10 x ≠ [] := by simp
  have hv := digitsValue_decimal _ 0 hd
  rw [Nat.ofDigitChars_toDigits (by decide) (by decide)] at hv
  generalize Nat.toDigits 10 x = l at hd hne hv
  unfold numberOf
  split
  · exact absurd (hd 'x' (by simp)) (by decide)
  · exact absurd rfl hne
  · exact hv

/-- A decimal number is the operand it spells. -/
theorem operandOf_toDigits (x : Nat) : operandOf [.text (Nat.toDigits 10 x)] = some (.number x) := by
  have no : ∀ l, 'o' ∈ l → Nat.toDigits 10 x ≠ l := by
    rintro l hl rfl
    exact absurd (isDigit_toDigits hl) (by decide)
  rw [operandOf, if_neg (no _ (by simp)), if_neg (no _ (by simp)), numberOf_toDigits]
  rfl

theorem toList_toString (x : Nat) : (toString x).toList = Nat.toDigits 10 x := by
  show (Nat.repr x).toList = _
  simp

end Sys2Proof.Machine
end

