-- ==== Sys2Proof/Laws/State.lean ====
section
/-! SUPPORT. One lemma per field of State per named update, each true by rfl, so that no proof unfolds an update. -/
namespace Sys2Proof.Machine

variable (s : State)

/-! ### openCommand -/

@[simp] theorem openCommand_cfg : (openCommand s).cfg = s.cfg := rfl
@[simp] theorem openCommand_pending : (openCommand s).pending = s.pending := rfl
@[simp] theorem openCommand_ram : (openCommand s).ram = s.ram := rfl
@[simp] theorem openCommand_slots : (openCommand s).slots = s.slots := rfl
@[simp] theorem openCommand_bank : (openCommand s).bank = s.bank := rfl
@[simp] theorem openCommand_locked : (openCommand s).locked = s.locked := rfl
@[simp] theorem openCommand_overlay : (openCommand s).overlay = s.overlay := rfl
@[simp] theorem openCommand_tick : (openCommand s).tick = s.tick := rfl
@[simp] theorem openCommand_video : (openCommand s).video = s.video := rfl
@[simp] theorem openCommand_border : (openCommand s).border = s.border := rfl
@[simp] theorem openCommand_flashMask : (openCommand s).flashMask = s.flashMask := rfl
@[simp] theorem openCommand_frameCtr : (openCommand s).frameCtr = s.frameCtr := rfl
@[simp] theorem openCommand_events : (openCommand s).events = s.events := rfl
@[simp] theorem openCommand_marks : (openCommand s).marks = s.marks := rfl
@[simp] theorem openCommand_tlimEn : (openCommand s).tlimEn = s.tlimEn := rfl
@[simp] theorem openCommand_tlim : (openCommand s).tlim = s.tlim := rfl
@[simp] theorem openCommand_flimEn : (openCommand s).flimEn = s.flimEn := rfl
@[simp] theorem openCommand_flim : (openCommand s).flim = s.flim := rfl
@[simp] theorem openCommand_fetchCount : (openCommand s).fetchCount = s.fetchCount := rfl
@[simp] theorem openCommand_intSuppress : (openCommand s).intSuppress = s.intSuppress := rfl
@[simp] theorem openCommand_intLine : (openCommand s).intLine = s.intLine := rfl
@[simp] theorem openCommand_portOvr : (openCommand s).portOvr = s.portOvr := rfl
@[simp] theorem openCommand_phase : (openCommand s).phase = s.phase := rfl
@[simp] theorem openCommand_faults : (openCommand s).faults = s.faults := rfl
@[simp] theorem openCommand_response : (openCommand s).response = .none := rfl
@[simp] theorem openCommand_signals : (openCommand s).signals = [] := rfl
@[simp] theorem openCommand_freeCount : (openCommand s).freeCount = s.freeCount := rfl

/-! ### respond -/

@[simp] theorem respond_cfg (r : Response) : (respond r s).cfg = s.cfg := rfl
@[simp] theorem respond_pending (r : Response) : (respond r s).pending = s.pending := rfl
@[simp] theorem respond_ram (r : Response) : (respond r s).ram = s.ram := rfl
@[simp] theorem respond_slots (r : Response) : (respond r s).slots = s.slots := rfl
@[simp] theorem respond_bank (r : Response) : (respond r s).bank = s.bank := rfl
@[simp] theorem respond_locked (r : Response) : (respond r s).locked = s.locked := rfl
@[simp] theorem respond_overlay (r : Response) : (respond r s).overlay = s.overlay := rfl
@[simp] theorem respond_tick (r : Response) : (respond r s).tick = s.tick := rfl
@[simp] theorem respond_video (r : Response) : (respond r s).video = s.video := rfl
@[simp] theorem respond_border (r : Response) : (respond r s).border = s.border := rfl
@[simp] theorem respond_flashMask (r : Response) : (respond r s).flashMask = s.flashMask := rfl
@[simp] theorem respond_frameCtr (r : Response) : (respond r s).frameCtr = s.frameCtr := rfl
@[simp] theorem respond_events (r : Response) : (respond r s).events = s.events := rfl
@[simp] theorem respond_marks (r : Response) : (respond r s).marks = s.marks := rfl
@[simp] theorem respond_tlimEn (r : Response) : (respond r s).tlimEn = s.tlimEn := rfl
@[simp] theorem respond_tlim (r : Response) : (respond r s).tlim = s.tlim := rfl
@[simp] theorem respond_flimEn (r : Response) : (respond r s).flimEn = s.flimEn := rfl
@[simp] theorem respond_flim (r : Response) : (respond r s).flim = s.flim := rfl
@[simp] theorem respond_fetchCount (r : Response) : (respond r s).fetchCount = s.fetchCount := rfl
@[simp] theorem respond_intSuppress (r : Response) : (respond r s).intSuppress = s.intSuppress := rfl
@[simp] theorem respond_intLine (r : Response) : (respond r s).intLine = s.intLine := rfl
@[simp] theorem respond_portOvr (r : Response) : (respond r s).portOvr = s.portOvr := rfl
@[simp] theorem respond_phase (r : Response) : (respond r s).phase = s.phase := rfl
@[simp] theorem respond_faults (r : Response) : (respond r s).faults = s.faults := rfl
@[simp] theorem respond_response (r : Response) : (respond r s).response = r := rfl
@[simp] theorem respond_signals (r : Response) : (respond r s).signals = s.signals := rfl
@[simp] theorem respond_freeCount (r : Response) : (respond r s).freeCount = s.freeCount := rfl

/-! ### cpuSignal -/

@[simp] theorem cpuSignal_cfg (g : CpuSignal) : (cpuSignal g s).cfg = s.cfg := rfl
@[simp] theorem cpuSignal_pending (g : CpuSignal) : (cpuSignal g s).pending = s.pending := rfl
@[simp] theorem cpuSignal_ram (g : CpuSignal) : (cpuSignal g s).ram = s.ram := rfl
@[simp] theorem cpuSignal_slots (g : CpuSignal) : (cpuSignal g s).slots = s.slots := rfl
@[simp] theorem cpuSignal_bank (g : CpuSignal) : (cpuSignal g s).bank = s.bank := rfl
@[simp] theorem cpuSignal_locked (g : CpuSignal) : (cpuSignal g s).locked = s.locked := rfl
@[simp] theorem cpuSignal_overlay (g : CpuSignal) : (cpuSignal g s).overlay = s.overlay := rfl
@[simp] theorem cpuSignal_tick (g : CpuSignal) : (cpuSignal g s).tick = s.tick := rfl
@[simp] theorem cpuSignal_video (g : CpuSignal) : (cpuSignal g s).video = s.video := rfl
@[simp] theorem cpuSignal_border (g : CpuSignal) : (cpuSignal g s).border = s.border := rfl
@[simp] theorem cpuSignal_flashMask (g : CpuSignal) : (cpuSignal g s).flashMask = s.flashMask := rfl
@[simp] theorem cpuSignal_frameCtr (g : CpuSignal) : (cpuSignal g s).frameCtr = s.frameCtr := rfl
@[simp] theorem cpuSignal_events (g : CpuSignal) : (cpuSignal g s).events = s.events := rfl
@[simp] theorem cpuSignal_marks (g : CpuSignal) : (cpuSignal g s).marks = s.marks := rfl
@[simp] theorem cpuSignal_tlimEn (g : CpuSignal) : (cpuSignal g s).tlimEn = s.tlimEn := rfl
@[simp] theorem cpuSignal_tlim (g : CpuSignal) : (cpuSignal g s).tlim = s.tlim := rfl
@[simp] theorem cpuSignal_flimEn (g : CpuSignal) : (cpuSignal g s).flimEn = s.flimEn := rfl
@[simp] theorem cpuSignal_flim (g : CpuSignal) : (cpuSignal g s).flim = s.flim := rfl
@[simp] theorem cpuSignal_fetchCount (g : CpuSignal) : (cpuSignal g s).fetchCount = s.fetchCount := rfl
@[simp] theorem cpuSignal_intSuppress (g : CpuSignal) : (cpuSignal g s).intSuppress = s.intSuppress := rfl
@[simp] theorem cpuSignal_intLine (g : CpuSignal) : (cpuSignal g s).intLine = s.intLine := rfl
@[simp] theorem cpuSignal_portOvr (g : CpuSignal) : (cpuSignal g s).portOvr = s.portOvr := rfl
@[simp] theorem cpuSignal_phase (g : CpuSignal) : (cpuSignal g s).phase = s.phase := rfl
@[simp] theorem cpuSignal_faults (g : CpuSignal) : (cpuSignal g s).faults = s.faults := rfl
@[simp] theorem cpuSignal_response (g : CpuSignal) : (cpuSignal g s).response = s.response := rfl
@[simp] theorem cpuSignal_signals (g : CpuSignal) : (cpuSignal g s).signals = s.signals ++ [g] := rfl
@[simp] theorem cpuSignal_freeCount (g : CpuSignal) : (cpuSignal g s).freeCount = s.freeCount := rfl

/-! ### setEventIf -/

@[simp] theorem setEventIf_cfg (c : Bool) (ev : Byte) : (setEventIf c ev s).cfg = s.cfg := rfl
@[simp] theorem setEventIf_pending (c : Bool) (ev : Byte) : (setEventIf c ev s).pending = s.pending := rfl
@[simp] theorem setEventIf_ram (c : Bool) (ev : Byte) : (setEventIf c ev s).ram = s.ram := rfl
@[simp] theorem setEventIf_slots (c : Bool) (ev : Byte) : (setEventIf c ev s).slots = s.slots := rfl
@[simp] theorem setEventIf_bank (c : Bool) (ev : Byte) : (setEventIf c ev s).bank = s.bank := rfl
@[simp] theorem setEventIf_locked (c : Bool) (ev : Byte) : (setEventIf c ev s).locked = s.locked := rfl
@[simp] theorem setEventIf_overlay (c : Bool) (ev : Byte) : (setEventIf c ev s).overlay = s.overlay := rfl
@[simp] theorem setEventIf_tick (c : Bool) (ev : Byte) : (setEventIf c ev s).tick = s.tick := rfl
@[simp] theorem setEventIf_video (c : Bool) (ev : Byte) : (setEventIf c ev s).video = s.video := rfl
@[simp] theorem setEventIf_border (c : Bool) (ev : Byte) : (setEventIf c ev s).border = s.border := rfl
@[simp] theorem setEventIf_flashMask (c : Bool) (ev : Byte) : (setEventIf c ev s).flashMask = s.flashMask := rfl
@[simp] theorem setEventIf_frameCtr (c : Bool) (ev : Byte) : (setEventIf c ev s).frameCtr = s.frameCtr := rfl
@[simp] theorem setEventIf_events (c : Bool) (ev : Byte) : (setEventIf c ev s).events = if c then s.events ||| ev else s.events := rfl
@[simp] theorem setEventIf_marks (c : Bool) (ev : Byte) : (setEventIf c ev s).marks = s.marks := rfl
@[simp] theorem setEventIf_tlimEn (c : Bool) (ev : Byte) : (setEventIf c ev s).tlimEn = s.tlimEn := rfl
@[simp] theorem setEventIf_tlim (c : Bool) (ev : Byte) : (setEventIf c ev s).tlim = s.tlim := rfl
@[simp] theorem setEventIf_flimEn (c : Bool) (ev : Byte) : (setEventIf c ev s).flimEn = s.flimEn := rfl
@[simp] theorem setEventIf_flim (c : Bool) (ev : Byte) : (setEventIf c ev s).flim = s.flim := rfl
@[simp] theorem setEventIf_fetchCount (c : Bool) (ev : Byte) : (setEventIf c ev s).fetchCount = s.fetchCount := rfl
@[simp] theorem setEventIf_intSuppress (c : Bool) (ev : Byte) : (setEventIf c ev s).intSuppress = s.intSuppress := rfl
@[simp] theorem setEventIf_intLine (c : Bool) (ev : Byte) : (setEventIf c ev s).intLine = s.intLine := rfl
@[simp] theorem setEventIf_portOvr (c : Bool) (ev : Byte) : (setEventIf c ev s).portOvr = s.portOvr := rfl
@[simp] theorem setEventIf_phase (c : Bool) (ev : Byte) : (setEventIf c ev s).phase = s.phase := rfl
@[simp] theorem setEventIf_faults (c : Bool) (ev : Byte) : (setEventIf c ev s).faults = s.faults := rfl
@[simp] theorem setEventIf_response (c : Bool) (ev : Byte) : (setEventIf c ev s).response = s.response := rfl
@[simp] theorem setEventIf_signals (c : Bool) (ev : Byte) : (setEventIf c ev s).signals = s.signals := rfl
@[simp] theorem setEventIf_freeCount (c : Bool) (ev : Byte) : (setEventIf c ev s).freeCount = s.freeCount := rfl

/-! ### setRamByte -/

@[simp] theorem setRamByte_cfg (p : BitVec 3) (o : BitVec 14) (v : Byte) : (setRamByte p o v s).cfg = s.cfg := rfl
@[simp] theorem setRamByte_pending (p : BitVec 3) (o : BitVec 14) (v : Byte) : (setRamByte p o v s).pending = s.pending := rfl
@[simp] theorem setRamByte_ram (p : BitVec 3) (o : BitVec 14) (v : Byte) : (setRamByte p o v s).ram = s.ram.setByte p o v := rfl
@[simp] theorem setRamByte_slots (p : BitVec 3) (o : BitVec 14) (v : Byte) : (setRamByte p o v s).slots = s.slots := rfl
@[simp] theorem setRamByte_bank (p : BitVec 3) (o : BitVec 14) (v : Byte) : (setRamByte p o v s).bank = s.bank := rfl
@[simp] theorem setRamByte_locked (p : BitVec 3) (o : BitVec 14) (v : Byte) : (setRamByte p o v s).locked = s.locked := rfl
@[simp] theorem setRamByte_overlay (p : BitVec 3) (o : BitVec 14) (v : Byte) : (setRamByte p o v s).overlay = s.overlay := rfl
@[simp] theorem setRamByte_tick (p : BitVec 3) (o : BitVec 14) (v : Byte) : (setRamByte p o v s).tick = s.tick := rfl
@[simp] theorem setRamByte_video (p : BitVec 3) (o : BitVec 14) (v : Byte) : (setRamByte p o v s).video = s.video := rfl
@[simp] theorem setRamByte_border (p : BitVec 3) (o : BitVec 14) (v : Byte) : (setRamByte p o v s).border = s.border := rfl
@[simp] theorem setRamByte_flashMask (p : BitVec 3) (o : BitVec 14) (v : Byte) : (setRamByte p o v s).flashMask = s.flashMask := rfl
@[simp] theorem setRamByte_frameCtr (p : BitVec 3) (o : BitVec 14) (v : Byte) : (setRamByte p o v s).frameCtr = s.frameCtr := rfl
@[simp] theorem setRamByte_events (p : BitVec 3) (o : BitVec 14) (v : Byte) : (setRamByte p o v s).events = s.events := rfl
@[simp] theorem setRamByte_marks (p : BitVec 3) (o : BitVec 14) (v : Byte) : (setRamByte p o v s).marks = s.marks := rfl
@[simp] theorem setRamByte_tlimEn (p : BitVec 3) (o : BitVec 14) (v : Byte) : (setRamByte p o v s).tlimEn = s.tlimEn := rfl
@[simp] theorem setRamByte_tlim (p : BitVec 3) (o : BitVec 14) (v : Byte) : (setRamByte p o v s).tlim = s.tlim := rfl
@[simp] theorem setRamByte_flimEn (p : BitVec 3) (o : BitVec 14) (v : Byte) : (setRamByte p o v s).flimEn = s.flimEn := rfl
@[simp] theorem setRamByte_flim (p : BitVec 3) (o : BitVec 14) (v : Byte) : (setRamByte p o v s).flim = s.flim := rfl
@[simp] theorem setRamByte_fetchCount (p : BitVec 3) (o : BitVec 14) (v : Byte) : (setRamByte p o v s).fetchCount = s.fetchCount := rfl
@[simp] theorem setRamByte_intSuppress (p : BitVec 3) (o : BitVec 14) (v : Byte) : (setRamByte p o v s).intSuppress = s.intSuppress := rfl
@[simp] theorem setRamByte_intLine (p : BitVec 3) (o : BitVec 14) (v : Byte) : (setRamByte p o v s).intLine = s.intLine := rfl
@[simp] theorem setRamByte_portOvr (p : BitVec 3) (o : BitVec 14) (v : Byte) : (setRamByte p o v s).portOvr = s.portOvr := rfl
@[simp] theorem setRamByte_phase (p : BitVec 3) (o : BitVec 14) (v : Byte) : (setRamByte p o v s).phase = s.phase := rfl
@[simp] theorem setRamByte_faults (p : BitVec 3) (o : BitVec 14) (v : Byte) : (setRamByte p o v s).faults = s.faults := rfl
@[simp] theorem setRamByte_response (p : BitVec 3) (o : BitVec 14) (v : Byte) : (setRamByte p o v s).response = s.response := rfl
@[simp] theorem setRamByte_signals (p : BitVec 3) (o : BitVec 14) (v : Byte) : (setRamByte p o v s).signals = s.signals := rfl
@[simp] theorem setRamByte_freeCount (p : BitVec 3) (o : BitVec 14) (v : Byte) : (setRamByte p o v s).freeCount = s.freeCount := rfl

/-! ### renderTo -/

@[simp] theorem renderTo_cfg (n : Nat) : (renderTo n s).cfg = s.cfg := rfl
@[simp] theorem renderTo_pending (n : Nat) : (renderTo n s).pending = s.pending := rfl
@[simp] theorem renderTo_ram (n : Nat) : (renderTo n s).ram = s.ram := rfl
@[simp] theorem renderTo_slots (n : Nat) : (renderTo n s).slots = s.slots := rfl
@[simp] theorem renderTo_bank (n : Nat) : (renderTo n s).bank = s.bank := rfl
@[simp] theorem renderTo_locked (n : Nat) : (renderTo n s).locked = s.locked := rfl
@[simp] theorem renderTo_overlay (n : Nat) : (renderTo n s).overlay = s.overlay := rfl
@[simp] theorem renderTo_tick (n : Nat) : (renderTo n s).tick = s.tick := rfl
@[simp] theorem renderTo_border (n : Nat) : (renderTo n s).border = s.border := rfl
@[simp] theorem renderTo_flashMask (n : Nat) : (renderTo n s).flashMask = s.flashMask := rfl
@[simp] theorem renderTo_frameCtr (n : Nat) : (renderTo n s).frameCtr = s.frameCtr := rfl
@[simp] theorem renderTo_events (n : Nat) : (renderTo n s).events = s.events := rfl
@[simp] theorem renderTo_marks (n : Nat) : (renderTo n s).marks = s.marks := rfl
@[simp] theorem renderTo_tlimEn (n : Nat) : (renderTo n s).tlimEn = s.tlimEn := rfl
@[simp] theorem renderTo_tlim (n : Nat) : (renderTo n s).tlim = s.tlim := rfl
@[simp] theorem renderTo_flimEn (n : Nat) : (renderTo n s).flimEn = s.flimEn := rfl
@[simp] theorem renderTo_flim (n : Nat) : (renderTo n s).flim = s.flim := rfl
@[simp] theorem renderTo_fetchCount (n : Nat) : (renderTo n s).fetchCount = s.fetchCount := rfl
@[simp] theorem renderTo_intSuppress (n : Nat) : (renderTo n s).intSuppress = s.intSuppress := rfl
@[simp] theorem renderTo_intLine (n : Nat) : (renderTo n s).intLine = s.intLine := rfl
@[simp] theorem renderTo_portOvr (n : Nat) : (renderTo n s).portOvr = s.portOvr := rfl
@[simp] theorem renderTo_phase (n : Nat) : (renderTo n s).phase = s.phase := rfl
@[simp] theorem renderTo_faults (n : Nat) : (renderTo n s).faults = s.faults := rfl
@[simp] theorem renderTo_response (n : Nat) : (renderTo n s).response = s.response := rfl
@[simp] theorem renderTo_signals (n : Nat) : (renderTo n s).signals = s.signals := rfl

/-! ### startNewFrame -/

@[simp] theorem startNewFrame_cfg : (startNewFrame s).cfg = s.cfg := rfl
@[simp] theorem startNewFrame_pending : (startNewFrame s).pending = s.pending := rfl
@[simp] theorem startNewFrame_ram : (startNewFrame s).ram = s.ram := rfl
@[simp] theorem startNewFrame_slots : (startNewFrame s).slots = s.slots := rfl
@[simp] theorem startNewFrame_bank : (startNewFrame s).bank = s.bank := rfl
@[simp] theorem startNewFrame_locked : (startNewFrame s).locked = s.locked := rfl
@[simp] theorem startNewFrame_overlay : (startNewFrame s).overlay = s.overlay := rfl
@[simp] theorem startNewFrame_tick : (startNewFrame s).tick = BitVec.ofNat 32 (s.tick.toNat % s.cfg.frameLen) := rfl
@[simp] theorem startNewFrame_video : (startNewFrame s).video = { s.video with cursor := 0 } := rfl
@[simp] theorem startNewFrame_border : (startNewFrame s).border = s.border := rfl
@[simp] theorem startNewFrame_flashMask : (startNewFrame s).flashMask = if (s.frameCtr + 1).toNat % 16 = 0 then !s.flashMask else s.flashMask := rfl
@[simp] theorem startNewFrame_frameCtr : (startNewFrame s).frameCtr = s.frameCtr + 1 := rfl
@[simp] theorem startNewFrame_events : (startNewFrame s).events = s.events := rfl
@[simp] theorem startNewFrame_marks : (startNewFrame s).marks = s.marks := rfl
@[simp] theorem startNewFrame_tlimEn : (startNewFrame s).tlimEn = s.tlimEn := rfl
@[simp] theorem startNewFrame_tlim : (startNewFrame s).tlim = s.tlim := rfl
@[simp] theorem startNewFrame_flimEn : (startNewFrame s).flimEn = s.flimEn := rfl
@[simp] theorem startNewFrame_flim : (startNewFrame s).flim = s.flim := rfl
@[simp] theorem startNewFrame_fetchCount : (startNewFrame s).fetchCount = s.fetchCount := rfl
@[simp] theorem startNewFrame_intSuppress : (startNewFrame s).intSuppress = s.intSuppress := rfl
@[simp] theorem startNewFrame_intLine : (startNewFrame s).intLine = s.intLine := rfl
@[simp] theorem startNewFrame_portOvr : (startNewFrame s).portOvr = s.portOvr := rfl
@[simp] theorem startNewFrame_phase : (startNewFrame s).phase = s.phase := rfl
@[simp] theorem startNewFrame_faults : (startNewFrame s).faults = s.faults := rfl
@[simp] theorem startNewFrame_response : (startNewFrame s).response = s.response := rfl
@[simp] theorem startNewFrame_signals : (startNewFrame s).signals = s.signals := rfl
@[simp] theorem startNewFrame_freeCount : (startNewFrame s).freeCount = s.freeCount := rfl

/-! ### bankFields -/

@[simp] theorem bankFields_cfg (v : Byte) : (bankFields v s).cfg = s.cfg := rfl
@[simp] theorem bankFields_pending (v : Byte) : (bankFields v s).pending = s.pending := rfl
@[simp] theorem bankFields_ram (v : Byte) : (bankFields v s).ram = s.ram := rfl
@[simp] theorem bankFields_slots (v : Byte) : (bankFields v s).slots = slotMap v s.overlay := rfl
@[simp] theorem bankFields_bank (v : Byte) : (bankFields v s).bank = v := rfl
@[simp] theorem bankFields_locked (v : Byte) : (bankFields v s).locked = bankLock v := rfl
@[simp] theorem bankFields_overlay (v : Byte) : (bankFields v s).overlay = s.overlay := rfl
@[simp] theorem bankFields_tick (v : Byte) : (bankFields v s).tick = s.tick := rfl
@[simp] theorem bankFields_video (v : Byte) : (bankFields v s).video = s.video := rfl
@[simp] theorem bankFields_border (v : Byte) : (bankFields v s).border = s.border := rfl
@[simp] theorem bankFields_flashMask (v : Byte) : (bankFields v s).flashMask = s.flashMask := rfl
@[simp] theorem bankFields_frameCtr (v : Byte) : (bankFields v s).frameCtr = s.frameCtr := rfl
@[simp] theorem bankFields_events (v : Byte) : (bankFields v s).events = s.events := rfl
@[simp] theorem bankFields_marks (v : Byte) : (bankFields v s).marks = s.marks := rfl
@[simp] theorem bankFields_tlimEn (v : Byte) : (bankFields v s).tlimEn = s.tlimEn := rfl
@[simp] theorem bankFields_tlim (v : Byte) : (bankFields v s).tlim = s.tlim := rfl
@[simp] theorem bankFields_flimEn (v : Byte) : (bankFields v s).flimEn = s.flimEn := rfl
@[simp] theorem bankFields_flim (v : Byte) : (bankFields v s).flim = s.flim := rfl
@[simp] theorem bankFields_fetchCount (v : Byte) : (bankFields v s).fetchCount = s.fetchCount := rfl
@[simp] theorem bankFields_intSuppress (v : Byte) : (bankFields v s).intSuppress = s.intSuppress := rfl
@[simp] theorem bankFields_intLine (v : Byte) : (bankFields v s).intLine = s.intLine := rfl
@[simp] theorem bankFields_portOvr (v : Byte) : (bankFields v s).portOvr = s.portOvr := rfl
@[simp] theorem bankFields_phase (v : Byte) : (bankFields v s).phase = s.phase := rfl
@[simp] theorem bankFields_faults (v : Byte) : (bankFields v s).faults = s.faults := rfl
@[simp] theorem bankFields_response (v : Byte) : (bankFields v s).response = s.response := rfl
@[simp] theorem bankFields_signals (v : Byte) : (bankFields v s).signals = s.signals := rfl
@[simp] theorem bankFields_freeCount (v : Byte) : (bankFields v s).freeCount = s.freeCount := rfl

/-! ### countFetch -/

@[simp] theorem countFetch_cfg : (countFetch s).cfg = s.cfg := rfl
@[simp] theorem countFetch_pending : (countFetch s).pending = s.pending := rfl
@[simp] theorem countFetch_ram : (countFetch s).ram = s.ram := rfl
@[simp] theorem countFetch_slots : (countFetch s).slots = s.slots := rfl
@[simp] theorem countFetch_bank : (countFetch s).bank = s.bank := rfl
@[simp] theorem countFetch_locked : (countFetch s).locked = s.locked := rfl
@[simp] theorem countFetch_overlay : (countFetch s).overlay = s.overlay := rfl
@[simp] theorem countFetch_tick : (countFetch s).tick = s.tick := rfl
@[simp] theorem countFetch_video : (countFetch s).video = s.video := rfl
@[simp] theorem countFetch_border : (countFetch s).border = s.border := rfl
@[simp] theorem countFetch_flashMask : (countFetch s).flashMask = s.flashMask := rfl
@[simp] theorem countFetch_frameCtr : (countFetch s).frameCtr = s.frameCtr := rfl
@[simp] theorem countFetch_events : (countFetch s).events = s.events := rfl
@[simp] theorem countFetch_marks : (countFetch s).marks = s.marks := rfl
@[simp] theorem countFetch_tlimEn : (countFetch s).tlimEn = s.tlimEn := rfl
@[simp] theorem countFetch_tlim : (countFetch s).tlim = s.tlim := rfl
@[simp] theorem countFetch_flimEn : (countFetch s).flimEn = s.flimEn := rfl
@[simp] theorem countFetch_flim : (countFetch s).flim = s.flim := rfl
@[simp] theorem countFetch_fetchCount : (countFetch s).fetchCount = BitVec.ofNat 32 (min (s.fetchCount.toNat + 1) (2 ^ 32 - 1)) := rfl
@[simp] theorem countFetch_intSuppress : (countFetch s).intSuppress = s.intSuppress := rfl
@[simp] theorem countFetch_intLine : (countFetch s).intLine = s.intLine := rfl
@[simp] theorem countFetch_portOvr : (countFetch s).portOvr = s.portOvr := rfl
@[simp] theorem countFetch_phase : (countFetch s).phase = s.phase := rfl
@[simp] theorem countFetch_faults : (countFetch s).faults = s.faults := rfl
@[simp] theorem countFetch_response : (countFetch s).response = s.response := rfl
@[simp] theorem countFetch_signals : (countFetch s).signals = s.signals := rfl
@[simp] theorem countFetch_freeCount : (countFetch s).freeCount = s.freeCount := rfl

/-! ### intCheck -/

@[simp] theorem intCheck_cfg : (intCheck s).cfg = s.cfg := rfl
@[simp] theorem intCheck_pending : (intCheck s).pending = s.pending := rfl
@[simp] theorem intCheck_ram : (intCheck s).ram = s.ram := rfl
@[simp] theorem intCheck_slots : (intCheck s).slots = s.slots := rfl
@[simp] theorem intCheck_bank : (intCheck s).bank = s.bank := rfl
@[simp] theorem intCheck_locked : (intCheck s).locked = s.locked := rfl
@[simp] theorem intCheck_overlay : (intCheck s).overlay = s.overlay := rfl
@[simp] theorem intCheck_tick : (intCheck s).tick = s.tick := rfl
@[simp] theorem intCheck_video : (intCheck s).video = s.video := rfl
@[simp] theorem intCheck_border : (intCheck s).border = s.border := rfl
@[simp] theorem intCheck_flashMask : (intCheck s).flashMask = s.flashMask := rfl
@[simp] theorem intCheck_frameCtr : (intCheck s).frameCtr = s.frameCtr := rfl
@[simp] theorem intCheck_events : (intCheck s).events = s.events := rfl
@[simp] theorem intCheck_marks : (intCheck s).marks = s.marks := rfl
@[simp] theorem intCheck_tlimEn : (intCheck s).tlimEn = s.tlimEn := rfl
@[simp] theorem intCheck_tlim : (intCheck s).tlim = s.tlim := rfl
@[simp] theorem intCheck_flimEn : (intCheck s).flimEn = s.flimEn := rfl
@[simp] theorem intCheck_flim : (intCheck s).flim = s.flim := rfl
@[simp] theorem intCheck_fetchCount : (intCheck s).fetchCount = s.fetchCount := rfl
@[simp] theorem intCheck_intSuppress : (intCheck s).intSuppress = s.intSuppress := rfl
@[simp] theorem intCheck_intLine : (intCheck s).intLine = intLevel s := rfl
@[simp] theorem intCheck_portOvr : (intCheck s).portOvr = s.portOvr := rfl
@[simp] theorem intCheck_phase : (intCheck s).phase = s.phase := rfl
@[simp] theorem intCheck_faults : (intCheck s).faults = s.faults := rfl
@[simp] theorem intCheck_response : (intCheck s).response = s.response := rfl
@[simp] theorem intCheck_signals : (intCheck s).signals = s.signals ++ [.int (intLevel s)] := rfl
@[simp] theorem intCheck_freeCount : (intCheck s).freeCount = s.freeCount := rfl

/-! ### resetState -/

@[simp] theorem resetState_cfg : (resetState s).cfg = s.cfg := rfl
@[simp] theorem resetState_pending : (resetState s).pending = s.pending := rfl
@[simp] theorem resetState_ram : (resetState s).ram = [] := rfl
@[simp] theorem resetState_slots : (resetState s).slots = slotMap 0 false := rfl
@[simp] theorem resetState_bank : (resetState s).bank = 0 := rfl
@[simp] theorem resetState_locked : (resetState s).locked = false := rfl
@[simp] theorem resetState_overlay : (resetState s).overlay = false := rfl
@[simp] theorem resetState_tick : (resetState s).tick = 0 := rfl
@[simp] theorem resetState_video : (resetState s).video = Video.reset s.cfg := rfl
@[simp] theorem resetState_border : (resetState s).border = 0 := rfl
@[simp] theorem resetState_flashMask : (resetState s).flashMask = false := rfl
@[simp] theorem resetState_frameCtr : (resetState s).frameCtr = 0 := rfl
@[simp] theorem resetState_events : (resetState s).events = 0 := rfl
@[simp] theorem resetState_marks : (resetState s).marks = [] := rfl
@[simp] theorem resetState_tlimEn : (resetState s).tlimEn = s.tlimEn := rfl
@[simp] theorem resetState_tlim : (resetState s).tlim = s.tlim := rfl
@[simp] theorem resetState_flimEn : (resetState s).flimEn = s.flimEn := rfl
@[simp] theorem resetState_flim : (resetState s).flim = s.flim := rfl
@[simp] theorem resetState_fetchCount : (resetState s).fetchCount = 0 := rfl
@[simp] theorem resetState_intSuppress : (resetState s).intSuppress = s.intSuppress := rfl
@[simp] theorem resetState_intLine : (resetState s).intLine = false := rfl
@[simp] theorem resetState_portOvr : (resetState s).portOvr = s.portOvr := rfl
@[simp] theorem resetState_phase : (resetState s).phase = s.phase := rfl
@[simp] theorem resetState_faults : (resetState s).faults = s.faults := rfl
@[simp] theorem resetState_response : (resetState s).response = s.response := rfl
@[simp] theorem resetState_signals : (resetState s).signals = s.signals := rfl
@[simp] theorem resetState_freeCount : (resetState s).freeCount = s.freeCount := rfl

/-! ### overlayUpdate -/

@[simp] theorem overlayUpdate_cfg (a : Addr) : (overlayUpdate a s).cfg = s.cfg := rfl
@[simp] theorem overlayUpdate_pending (a : Addr) : (overlayUpdate a s).pending = s.pending := rfl
@[simp] theorem overlayUpdate_ram (a : Addr) : (overlayUpdate a s).ram = s.ram := rfl
@[simp] theorem overlayUpdate_slots (a : Addr) : (overlayUpdate a s).slots =
    if isOverlayTrapAddress a = s.overlay then s.slots else slotMap s.bank (isOverlayTrapAddress a) := rfl
@[simp] theorem overlayUpdate_bank (a : Addr) : (overlayUpdate a s).bank = s.bank := rfl
@[simp] theorem overlayUpdate_locked (a : Addr) : (overlayUpdate a s).locked = s.locked := rfl
@[simp] theorem overlayUpdate_overlay (a : Addr) : (overlayUpdate a s).overlay = isOverlayTrapAddress a := rfl
@[simp] theorem overlayUpdate_tick (a : Addr) : (overlayUpdate a s).tick = s.tick := rfl
@[simp] theorem overlayUpdate_video (a : Addr) : (overlayUpdate a s).video = s.video := rfl
@[simp] theorem overlayUpdate_border (a : Addr) : (overlayUpdate a s).border = s.border := rfl
@[simp] theorem overlayUpdate_flashMask (a : Addr) : (overlayUpdate a s).flashMask = s.flashMask := rfl
@[simp] theorem overlayUpdate_frameCtr (a : Addr) : (overlayUpdate a s).frameCtr = s.frameCtr := rfl
@[simp] theorem overlayUpdate_events (a : Addr) : (overlayUpdate a s).events = s.events := rfl
@[simp] theorem overlayUpdate_marks (a : Addr) : (overlayUpdate a s).marks = s.marks := rfl
@[simp] theorem overlayUpdate_tlimEn (a : Addr) : (overlayUpdate a s).tlimEn = s.tlimEn := rfl
@[simp] theorem overlayUpdate_tlim (a : Addr) : (overlayUpdate a s).tlim = s.tlim := rfl
@[simp] theorem overlayUpdate_flimEn (a : Addr) : (overlayUpdate a s).flimEn = s.flimEn := rfl
@[simp] theorem overlayUpdate_flim (a : Addr) : (overlayUpdate a s).flim = s.flim := rfl
@[simp] theorem overlayUpdate_fetchCount (a : Addr) : (overlayUpdate a s).fetchCount = s.fetchCount := rfl
@[simp] theorem overlayUpdate_intSuppress (a : Addr) : (overlayUpdate a s).intSuppress = s.intSuppress := rfl
@[simp] theorem overlayUpdate_intLine (a : Addr) : (overlayUpdate a s).intLine = s.intLine := rfl
@[simp] theorem overlayUpdate_portOvr (a : Addr) : (overlayUpdate a s).portOvr = s.portOvr := rfl
@[simp] theorem overlayUpdate_phase (a : Addr) : (overlayUpdate a s).phase = s.phase := rfl
@[simp] theorem overlayUpdate_faults (a : Addr) : (overlayUpdate a s).faults = s.faults := rfl
@[simp] theorem overlayUpdate_response (a : Addr) : (overlayUpdate a s).response = s.response := rfl
@[simp] theorem overlayUpdate_signals (a : Addr) : (overlayUpdate a s).signals = s.signals := rfl
@[simp] theorem overlayUpdate_freeCount (a : Addr) : (overlayUpdate a s).freeCount = s.freeCount := rfl

end Sys2Proof.Machine
end

