-- ==== Sys2Proof/Laws/Table.lean ====
section
/-! SUPPORT. Reading after writing a sparse table, and that writing keeps its canonical form. -/
namespace Sys2Proof

section
variable {α : Type} [DecidableEq α] {d : α}

/-- Below its lowest key a canonical table reads as unlisted. -/
theorem Table.get_below {bound : Nat} :
    ∀ {t : Table α} {lo n : Nat}, Table.wfFrom d bound lo t = true → n < lo → Table.get d t n = d
  | [], _, _, _, _ => rfl
  | (k, v) :: t, lo, n, h, hn => by
    simp only [Table.wfFrom, Bool.and_eq_true, decide_eq_true_eq] at h
    have hk : k ≠ n := by omega
    simp only [Table.get, if_neg hk]
    exact Table.get_below h.2 (by omega)

theorem Table.wfFrom_weaken {bound lo lo' : Nat} {t : Table α} (h : Table.wfFrom d bound lo t = true)
    (hl : lo' ≤ lo) : Table.wfFrom d bound lo' t = true := by
  cases t with
  | nil => rfl
  | cons x t =>
    simp only [Table.wfFrom, Bool.and_eq_true, decide_eq_true_eq] at h ⊢
    exact ⟨⟨⟨by omega, h.1.1.2⟩, h.1.2⟩, h.2⟩

/-- Writing keeps the canonical form. -/
theorem Table.wfFrom_set {bound : Nat} {v : α} :
    ∀ {t : Table α} {lo n : Nat}, Table.wfFrom d bound lo t = true → lo ≤ n → n < bound →
      Table.wfFrom d bound lo (Table.set d t n v) = true
  | [], lo, n, _, hl, hb => by
    by_cases hv : v = d <;> simp [Table.set, Table.wfFrom, hv, hl, hb]
  | (k, w) :: t, lo, n, h, hl, hb => by
    have h' := h
    simp only [Table.wfFrom, Bool.and_eq_true, decide_eq_true_eq] at h
    obtain ⟨⟨⟨h1, h2⟩, h3⟩, h4⟩ := h
    simp only [Table.set]
    split
    · split
      · exact h'
      · rename_i hv
        simp only [Table.wfFrom, Bool.and_eq_true, decide_eq_true_eq]
        exact ⟨⟨⟨hl, hb⟩, hv⟩, ⟨⟨by omega, h2⟩, h3⟩, h4⟩
    · split
      · split
        · exact Table.wfFrom_weaken h4 (by omega)
        · rename_i hk hv
          subst hk
          simp only [Table.wfFrom, Bool.and_eq_true, decide_eq_true_eq]
          exact ⟨⟨⟨h1, h2⟩, hv⟩, h4⟩
      · simp only [Table.wfFrom, Bool.and_eq_true, decide_eq_true_eq]
        exact ⟨⟨⟨h1, h2⟩, h3⟩, Table.wfFrom_set h4 (by omega) hb⟩

theorem Table.wf_set {bound n : Nat} {v : α} {t : Table α} (h : Table.wf d bound t = true) (hb : n < bound) :
    Table.wf d bound (Table.set d t n v) = true :=
  Table.wfFrom_set h (Nat.zero_le n) hb

/-- A key not written reads as before, in any table. -/
theorem Table.get_set_other {v : α} {n m : Nat} (hne : m ≠ n) :
    ∀ t : Table α, Table.get d (Table.set d t n v) m = Table.get d t m
  | [] => by
    have : n ≠ m := fun h => hne h.symm
    by_cases hv : v = d <;> simp [Table.set, Table.get, hv, this]
  | (k, w) :: t => by
    have hn : n ≠ m := fun h => hne h.symm
    simp only [Table.set]
    split
    · split <;> simp [Table.get, hn]
    · split
      · rename_i hk
        subst hk
        split <;> simp [Table.get, hn]
      · simp only [Table.get]
        split
        · rfl
        · exact Table.get_set_other hne t

/-- The key written reads as written, in a canonical table. -/
theorem Table.get_set_same {bound n : Nat} {v : α} :
    ∀ {t : Table α} {lo : Nat}, Table.wfFrom d bound lo t = true → Table.get d (Table.set d t n v) n = v
  | [], _, _ => by by_cases hv : v = d <;> simp [Table.set, Table.get, hv]
  | (k, w) :: t, lo, h => by
    have h' := h
    simp only [Table.wfFrom, Bool.and_eq_true, decide_eq_true_eq] at h
    simp only [Table.set]
    split
    · rename_i hlt
      split
      · rename_i hv
        have hk : k ≠ n := by omega
        rw [hv]
        simp only [Table.get, if_neg hk]
        exact Table.get_below h.2 (by omega)
      · simp [Table.get]
    · split
      · rename_i hk
        split
        · rename_i hv
          rw [hv]
          exact Table.get_below h.2 (by omega)
        · simp [Table.get]
      · rename_i hk
        have hk' : k ≠ n := fun h => hk h.symm
        simp only [Table.get, if_neg hk']
        exact Table.get_set_same h.2

/-- What a table reads after a write. -/
theorem Table.get_set {bound n m : Nat} {v : α} {t : Table α} (h : Table.wf d bound t = true) :
    Table.get d (Table.set d t n v) m = if m = n then v else Table.get d t m := by
  split
  · rename_i hm
    rw [hm]
    exact Table.get_set_same h
  · rename_i hm
    exact Table.get_set_other hm t

end

end Sys2Proof
end

