-- ==== Sys2Proof/Laws/Ops.lean ====
section
/-! SUPPORT. What the shared operations can do, each said once: how a command ends, addresses, ticks, banking, memory,
port sequences; and what each command's effect answers when it completes. -/
namespace Sys2Proof.Machine

/-! ## How a command ends -/

/-- The effect of a command, by command. -/
def bodyOf : Instr → State → Except FaultInfo State
  | .fetch a => fetchBody a
  | .read a => readBody a
  | .write a d => writeBody a d
  | .tick n => tickBody n
  | .inp p => inpBody p
  | .out p d => outBody p d
  | .stepend pc => stependBody pc
  | .run => runBody
  | .stop => stopBody
  | .reset => resetBody
  | .poke a d => pokeBody a d
  | .pokep pg off d => pokepBody pg off d
  | .setsp v => setspBody v
  | .setpc v => setpcBody v
  | .portset p v => portsetBody p v
  | .setmark a f => setmarkBody a f
  | .tlimit e v => tlimitBody e v
  | .flimit e v => flimitBody e v
  | .intsup e => intsupBody e
  | .render t => renderBody t
  | .newframe => newframeBody
  | .bank v => bankBody v
  | .getframe => getframeBody
  | .getgeom => getgeomBody

/-- Every command is admission, then its effect (R120). -/
theorem exec_eq_perform (i : Instr) (s : State) : exec i s = perform i s (bodyOf i) := by cases i <;> rfl

section
variable {i : Instr} {s : State} {body : State → Except FaultInfo State}

theorem perform_refused {c : RefusalCode} (h : phaseRefusal (Admission.of i.mnemonic) s.phase = some c) :
    perform i s body = .next { s with response := .refused c, signals := [] } := by
  simp [perform, h, refuseCommand]

theorem perform_ok {t : State} (h : phaseRefusal (Admission.of i.mnemonic) s.phase = none)
    (hb : body (openCommand s) = .ok t) : perform i s body = .next t := by
  simp [perform, h, hb]

theorem perform_error {f : FaultInfo} (h : phaseRefusal (Admission.of i.mnemonic) s.phase = none)
    (hb : body (openCommand s) = .error f) :
    perform i s body = .next { s with faults := addFault ⟨f.code, f.info, encode i⟩ s.faults,
                                      response := .fault f.code f.info, signals := [] } := by
  simp [perform, h, hb, raiseFault]

end

/-- The three ways a command ends (R280): refused, completed, or faulted. -/
theorem exec_cases {i : Instr} {s t : State} (h : exec i s = .next t) :
    (∃ c, phaseRefusal (Admission.of i.mnemonic) s.phase = some c ∧
      t = { s with response := .refused c, signals := [] }) ∨
    (phaseRefusal (Admission.of i.mnemonic) s.phase = none ∧ bodyOf i (openCommand s) = .ok t) ∨
    (phaseRefusal (Admission.of i.mnemonic) s.phase = none ∧ ∃ f, bodyOf i (openCommand s) = .error f ∧
      t = { s with faults := addFault ⟨f.code, f.info, encode i⟩ s.faults, response := .fault f.code f.info,
                   signals := [] }) := by
  rw [exec_eq_perform] at h
  cases hr : phaseRefusal (Admission.of i.mnemonic) s.phase with
  | some c =>
    rw [perform_refused hr] at h
    exact .inl ⟨c, rfl, by simpa using h.symm⟩
  | none =>
    cases hb : bodyOf i (openCommand s) with
    | ok u =>
      rw [perform_ok hr hb] at h
      exact .inr (.inl ⟨rfl, by simpa using h⟩)
    | error f =>
      rw [perform_error hr hb] at h
      exact .inr (.inr ⟨rfl, f, rfl, by simpa using h.symm⟩)

/-- A command that completes, from its admission and its effect. -/
theorem exec_ok {i : Instr} {s t : State} (h : phaseRefusal (Admission.of i.mnemonic) s.phase = none)
    (hb : bodyOf i (openCommand s) = .ok t) : exec i s = .next t := by
  rw [exec_eq_perform]
  exact perform_ok h hb

theorem exec_error {i : Instr} {s : State} {f : FaultInfo}
    (h : phaseRefusal (Admission.of i.mnemonic) s.phase = none) (hb : bodyOf i (openCommand s) = .error f) :
    exec i s = .next { s with faults := addFault ⟨f.code, f.info, encode i⟩ s.faults,
                              response := .fault f.code f.info, signals := [] } := by
  rw [exec_eq_perform]
  exact perform_error h hb

/-- Every command answers a next state. -/
theorem exec_next (i : Instr) (s : State) : ∃ t, exec i s = .next t := by
  rw [exec_eq_perform]
  cases hr : phaseRefusal (Admission.of i.mnemonic) s.phase with
  | some c => exact ⟨_, perform_refused hr⟩
  | none =>
    cases hb : bodyOf i (openCommand s) with
    | ok u => exact ⟨_, perform_ok hr hb⟩
    | error f => exact ⟨_, perform_error hr hb⟩

theorem mem_addFault {r x : FaultRecord} {fs : List FaultRecord} : r ∈ addFault x fs ↔ r ∈ fs ∨ r = x := by
  unfold addFault
  split
  · constructor
    · exact .inl
    · rintro (h | rfl) <;> assumption
  · simp

theorem addFault_nodup {x : FaultRecord} {fs : List FaultRecord} (h : fs.Nodup) : (addFault x fs).Nodup := by
  unfold addFault
  split
  · exact h
  · rename_i hx
    rw [List.nodup_append]
    exact ⟨h, by simp, by rintro a ha b hb rfl; simp at hb; exact hx (hb ▸ ha)⟩

/-! ## The stream -/

theorem step_word {s : State} {w : Word} {i : Instr} {rest : List Request} (h : s.pending = .word w :: rest)
    (hd : decode w = .ok i) : step s = exec i { s with pending := rest } := by
  simp [step, takeRequest, h, hd]

theorem step_call {s : State} {i : Instr} {rest : List Request} (h : s.pending = .call i :: rest) :
    step s = exec i { s with pending := rest } := by
  simp [step, takeRequest, h]

theorem step_rejected {s : State} {w : Word} {e : DecodeError} {rest : List Request}
    (h : s.pending = .word w :: rest) (hd : decode w = .error e) :
    step s = .next { s with
      pending := rest
      response := .refused (match e with | .illegalOpcode => .illegalOpcode | .reservedField => .reservedField)
      signals := [] } := by
  cases e <;> simp [step, takeRequest, h, hd, refuseWord, refuseCommand]

theorem step_empty {s : State} (h : s.pending = []) : step s = .next s := by
  simp [step, takeRequest, h]

/-- What a step can do: hold, refuse a word, or perform a command on the state without its request. -/
theorem step_cases {s t : State} (h : step s = .next t) :
    (s.pending = [] ∧ t = s) ∨
    (∃ c rest, t = { s with pending := rest, response := .refused c, signals := [] }) ∨
    (∃ i rest, exec i { s with pending := rest } = .next t) := by
  cases hp : s.pending with
  | nil =>
    rw [step_empty hp] at h
    exact .inl ⟨rfl, by simpa using h.symm⟩
  | cons r rest =>
    cases r with
    | word w =>
      cases hd : decode w with
      | ok i =>
        rw [step_word hp hd] at h
        exact .inr (.inr ⟨i, rest, h⟩)
      | error e =>
        rw [step_rejected hp hd] at h
        exact .inr (.inl ⟨_, rest, by simpa using h.symm⟩)
    | call i =>
      rw [step_call hp] at h
      exact .inr (.inr ⟨i, rest, h⟩)

/-! ## Addresses -/

@[simp] theorem checkedAddr_toNat (a : Addr) : checkedAddr a.toNat = .ok a := by
  have := a.isLt
  simp [checkedAddr, this]

theorem checkedAddr_wide {a : Nat} (h : 0x10000 ≤ a) : checkedAddr a = .error ⟨.addrRange, a⟩ := by
  simp [checkedAddr, Nat.not_lt.mpr h]

/-- An address that passes the check is 16 bits wide. -/
theorem checkedAddr_ok {a : Nat} {x : Addr} (h : checkedAddr a = .ok x) : a = x.toNat := by
  unfold checkedAddr at h
  split at h
  · rename_i ha
    have : BitVec.ofNat 16 a = x := by simpa using h
    rw [← this, BitVec.toNat_ofNat]
    omega
  · cases h

theorem checkedAddr_error {a : Nat} {f : FaultInfo} (h : checkedAddr a = .error f) :
    0x10000 ≤ a ∧ f = ⟨.addrRange, a⟩ := by
  unfold checkedAddr at h
  split at h
  · cases h
  · exact ⟨by omega, by simpa using h.symm⟩

/-! ## Ticks -/

theorem advanceTick_ok {n : Nat} {s : State} (h : s.tick.toNat + n < 2 ^ 32) :
    advanceTick n s = .ok { s with tick := BitVec.ofNat 32 (s.tick.toNat + n) } := if_pos h

theorem advanceTick_error {n : Nat} {s : State} (h : 2 ^ 32 ≤ s.tick.toNat + n) :
    advanceTick n s = .error ⟨.tickOverflow, n⟩ := if_neg (Nat.not_lt.mpr h)

theorem advanceTick_cases (n : Nat) (s : State) :
    (s.tick.toNat + n < 2 ^ 32 ∧ advanceTick n s = .ok { s with tick := BitVec.ofNat 32 (s.tick.toNat + n) }) ∨
    (2 ^ 32 ≤ s.tick.toNat + n ∧ advanceTick n s = .error ⟨.tickOverflow, n⟩) := by
  by_cases h : s.tick.toNat + n < 2 ^ 32
  · exact .inl ⟨h, advanceTick_ok h⟩
  · exact .inr ⟨Nat.not_lt.mp h, advanceTick_error (Nat.not_lt.mp h)⟩

/-- R131, in numbers. -/
theorem memWaitAt_eq (c : Config) (t : Nat) (a : Addr) :
    memWaitAt c t a = if 0x4000 ≤ a.toNat ∧ a.toNat ≤ 0x7FFF then c.contentionWait t else 0 := by
  simp [memWaitAt, inContended]

/-- R10: each value of CONTENTION_WAIT is below 2^24. -/
theorem memWaitAt_lt (c : Config) (t : Nat) (a : Addr) : memWaitAt c t a < 2 ^ 24 := by
  unfold memWaitAt Config.contentionWait
  split
  · exact BitVec.isLt _
  · decide

/-! ## Banking and memory -/

theorem ramKey_lt (p : BitVec 3) (o : BitVec 14) : ramKey p o < Memory.size := by
  have := p.isLt
  have := o.isLt
  unfold ramKey Memory.size
  omega

theorem ramKey_inj {p p' : BitVec 3} {o o' : BitVec 14} : ramKey p o = ramKey p' o' ↔ p = p' ∧ o = o' := by
  have := p.isLt
  have := o.isLt
  have := p'.isLt
  have := o'.isLt
  constructor
  · intro h
    unfold ramKey at h
    exact ⟨BitVec.eq_of_toNat_eq (by omega), BitVec.eq_of_toNat_eq (by omega)⟩
  · rintro ⟨rfl, rfl⟩
    rfl

/-- RAM after a write. -/
theorem Memory.byte_setByte {m : Memory} (h : m.wf = true) (p p' : BitVec 3) (o o' : BitVec 14) (v : Byte) :
    Memory.byte (Memory.setByte p o v m) p' o' = if p' = p ∧ o' = o then v else Memory.byte m p' o' := by
  unfold Memory.byte Memory.setByte
  rw [Table.get_set h]
  simp only [ramKey_inj]

/-- Bytes not written read as before, in any RAM. -/
theorem Memory.byte_setByte_other {m : Memory} {p p' : BitVec 3} {o o' : BitVec 14} {v : Byte}
    (h : ¬ (p' = p ∧ o' = o)) : Memory.byte (Memory.setByte p o v m) p' o' = Memory.byte m p' o' :=
  Table.get_set_other (fun hk => h (ramKey_inj.mp hk)) m

/-- Writing a byte keeps RAM's canonical form. -/
theorem Memory.wf_setByte {m : Memory} (h : m.wf = true) (p : BitVec 3) (o : BitVec 14) (v : Byte) :
    (Memory.setByte p o v m).wf = true :=
  Table.wf_set h (ramKey_lt p o)

theorem slotOf_toNat (a : Addr) : (slotOf a).toNat = a.toNat / 0x4000 := by
  have := a.isLt
  simp [slotOf, BitVec.extractLsb'_toNat, Nat.shiftRight_eq_div_pow]
  omega

theorem offOf_toNat (a : Addr) : (offOf a).toNat = a.toNat % 0x4000 := by
  simp [offOf, BitVec.extractLsb'_toNat]

theorem offOf_eq (a : Addr) : offOf a = BitVec.ofNat 14 (a.toNat % 0x4000) := by
  apply BitVec.eq_of_toNat_eq
  rw [offOf_toNat, BitVec.toNat_ofNat]
  omega

theorem bankRamsel_eq (v : Byte) : bankRamsel v = BitVec.ofNat 3 (v.toNat % 8) := by
  apply BitVec.eq_of_toNat_eq
  simp [bankRamsel, BitVec.extractLsb'_toNat]

theorem borderOf_eq (v : Byte) : borderOf v = BitVec.ofNat 3 (v.toNat % 8) := by
  apply BitVec.eq_of_toNat_eq
  simp [borderOf, BitVec.extractLsb'_toNat]

/-- The address map (R73, R81): which page a quarter of the address space names. -/
theorem slotAt_slotMap {s : State} (h : s.slots = slotMap s.bank s.overlay) (a : Addr) :
    slotAt s a =
      if a.toNat < 0x4000 then .rom (if s.overlay then 2 else if bankRomsel s.bank then 1 else 0)
      else if a.toNat < 0x8000 then .ram 5
      else if a.toNat < 0xC000 then .ram 2
      else .ram (bankRamsel s.bank) := by
  have ha := a.isLt
  unfold slotAt SlotTable.entry
  rw [slotOf_toNat, h]
  by_cases h1 : a.toNat < 0x4000
  · have : a.toNat / 0x4000 = 0 := by omega
    simp [this, h1, slotMap]
  · by_cases h2 : a.toNat < 0x8000
    · have : a.toNat / 0x4000 = 1 := by omega
      simp [this, h1, h2, slotMap]
    · by_cases h3 : a.toNat < 0xC000
      · have : a.toNat / 0x4000 = 2 := by omega
        simp [this, h1, h2, h3, slotMap]
      · have : a.toNat / 0x4000 = 3 := by omega
        simp [this, h1, h2, h3, slotMap]

/-- What MemWrite does (R75): nothing in ROM, one byte in RAM. -/
theorem memWrite_cases (a : Addr) (v : Byte) (s : State) :
    (∃ p, slotAt s a = .rom p ∧ memWrite a v s = s) ∨
    (∃ p, slotAt s a = .ram p ∧ memWrite a v s = setRamByte p (offOf a) v s) := by
  unfold memWrite
  cases h : slotAt s a with
  | rom p => exact .inl ⟨p, rfl, rfl⟩
  | ram p => exact .inr ⟨p, rfl, rfl⟩

/-- A memory write touches only RAM. -/
theorem memWrite_eq (a : Addr) (v : Byte) (s : State) : memWrite a v s = { s with ram := (memWrite a v s).ram } := by
  obtain ⟨_, _, h⟩ | ⟨_, _, h⟩ := memWrite_cases a v s <;> (rw [h]; try rfl)

/-- Every memory operation keeps RAM's canonical form: a byte of a page ... -/
theorem setRamByte_wf {s : State} (h : s.ram.wf = true) (p : BitVec 3) (o : BitVec 14) (v : Byte) :
    (setRamByte p o v s).ram.wf = true := Memory.wf_setByte h p o v

/-- ... and a byte through the address map. -/
theorem memWrite_wf {s : State} (h : s.ram.wf = true) (a : Addr) (v : Byte) : (memWrite a v s).ram.wf = true := by
  obtain ⟨_, _, e⟩ | ⟨_, _, e⟩ := memWrite_cases a v s <;> rw [e]
  · exact h
  · exact setRamByte_wf h _ _ _

/-- Setting an event bit below bit 5 leaves bits 7:5 clear (R47). -/
theorem setEventIf_high {s : State} {c : Bool} {ev : Byte} (he : ev &&& 0xE0#8 = 0) (h : s.events &&& 0xE0#8 = 0) :
    (setEventIf c ev s).events &&& 0xE0#8 = 0 := by
  cases c
  · exact h
  · change (s.events ||| ev) &&& 0xE0#8 = 0
    rw [BitVec.and_or_distrib_right, h, he]
    rfl

/-! ## What each effect answers when it completes

The commands that have none here answer `.ok` of a named update by definition. -/

section
variable {s t : State}

theorem fetchBody_ok {a : Nat} (h : fetchBody a s = .ok t) :
    ∃ x : Addr, a = x.toNat ∧ s.tick.toNat + memWait s x < 2 ^ 32 ∧
      t = respond (.byte (memRead (overlayUpdate x s) x))
        (countFetch { overlayUpdate x s with tick := BitVec.ofNat 32 (s.tick.toNat + memWait s x) }) := by
  unfold fetchBody at h
  cases hx : checkedAddr a with
  | error f => rw [hx] at h; cases h
  | ok x =>
    rw [hx] at h
    refine ⟨x, checkedAddr_ok hx, ?_⟩
    obtain ⟨hl, ho⟩ | ⟨_, he⟩ := advanceTick_cases (memWait (overlayUpdate x s) x) (overlayUpdate x s)
    · simp only [Except.bind, ho] at h
      exact ⟨hl, (Except.ok.inj h).symm⟩
    · simp only [Except.bind, he] at h
      cases h

theorem readBody_ok {a : Nat} (h : readBody a s = .ok t) :
    ∃ x : Addr, a = x.toNat ∧ s.tick.toNat + memWait s x < 2 ^ 32 ∧
      t = respond (.byte (memRead s x)) { s with tick := BitVec.ofNat 32 (s.tick.toNat + memWait s x) } := by
  unfold readBody at h
  cases hx : checkedAddr a with
  | error f => rw [hx] at h; cases h
  | ok x =>
    rw [hx] at h
    refine ⟨x, checkedAddr_ok hx, ?_⟩
    obtain ⟨hl, ho⟩ | ⟨_, he⟩ := advanceTick_cases (memWait s x) s
    · simp only [Except.bind, ho] at h
      exact ⟨hl, (Except.ok.inj h).symm⟩
    · simp only [Except.bind, he] at h
      cases h

theorem writeBody_ok {a : Nat} {d : Byte} (h : writeBody a d s = .ok t) :
    ∃ x : Addr, a = x.toNat ∧ s.tick.toNat + memWait s x < 2 ^ 32 ∧
      t = memWrite x d
        (catchUpForWrite x { s with tick := BitVec.ofNat 32 (s.tick.toNat + memWait s x) }) := by
  unfold writeBody at h
  cases hx : checkedAddr a with
  | error f => rw [hx] at h; cases h
  | ok x =>
    rw [hx] at h
    refine ⟨x, checkedAddr_ok hx, ?_⟩
    obtain ⟨hl, ho⟩ | ⟨_, he⟩ := advanceTick_cases (memWait s x) s
    · simp only [Except.bind, ho] at h
      exact ⟨hl, (Except.ok.inj h).symm⟩
    · simp only [Except.bind, he] at h
      cases h

theorem tickBody_ok {n : BitVec 24} (h : tickBody n s = .ok t) :
    s.tick.toNat + n.toNat < 2 ^ 32 ∧ t = { s with tick := BitVec.ofNat 32 (s.tick.toNat + n.toNat) } := by
  unfold tickBody at h
  obtain ⟨hl, ho⟩ | ⟨_, he⟩ := advanceTick_cases n.toNat s
  · rw [ho] at h
    exact ⟨hl, (Except.ok.inj h).symm⟩
  · rw [he] at h
    cases h

/-- An effect behind the address check. -/
theorem checked_map_ok {a : Nat} {f : Addr → State} (h : (checkedAddr a).map f = .ok t) :
    ∃ x : Addr, a = x.toNat ∧ t = f x := by
  cases hx : checkedAddr a with
  | error e => rw [hx] at h; cases h
  | ok x =>
    rw [hx] at h
    exact ⟨x, checkedAddr_ok hx, (Except.ok.inj h).symm⟩

theorem inpBody_ok {p : Nat} (h : inpBody p s = .ok t) :
    ∃ (x : Addr) (u : State), p = x.toNat ∧ portSeq x s = .ok u ∧ t = respond (.byte (portRead u x)) u := by
  unfold inpBody at h
  cases hx : checkedAddr p with
  | error f => rw [hx] at h; cases h
  | ok x =>
    rw [hx] at h
    simp only [Except.bind] at h
    cases hq : portSeq x s with
    | error f => rw [hq] at h; cases h
    | ok u =>
      rw [hq] at h
      exact ⟨x, u, checkedAddr_ok hx, hq, (Except.ok.inj h).symm⟩

theorem outBody_ok {p : Nat} {d : Byte} (h : outBody p d s = .ok t) :
    ∃ (x : Addr) (u : State), p = x.toNat ∧ portSeq x s = .ok u ∧ t = portWrite x d u := by
  unfold outBody at h
  cases hx : checkedAddr p with
  | error f => rw [hx] at h; cases h
  | ok x =>
    rw [hx] at h
    simp only [Except.bind] at h
    cases hq : portSeq x s with
    | error f => rw [hq] at h; cases h
    | ok u =>
      rw [hq] at h
      exact ⟨x, u, checkedAddr_ok hx, hq, (Except.ok.inj h).symm⟩

end

end Sys2Proof.Machine
end

