-- ==== Sys2Proof/Laws/Render.lean ====
section
/-! SUPPORT. The renderer (spec 41_render.md R171 to R183): what one tick can draw, that ticks compose, and that
rendering writes only the renderer's own elements. -/
namespace Sys2Proof.Machine

/-! ## Offsets, levels and words as numbers -/

/-- Concatenation as arithmetic. -/
theorem toNat_append_add {m n : Nat} (x : BitVec m) (y : BitVec n) : (x ++ y).toNat = x.toNat * 2 ^ n + y.toNat := by
  rw [BitVec.toNat_append, ← Nat.shiftLeft_add_eq_or_of_lt y.isLt, Nat.shiftLeft_eq]

/-- `pattern_off` as a number (R172). -/
theorem patternOff_toNat {y c : Nat} (hy : y < 192) (hc : c < 32) :
    (patternOff y c).toNat = y / 64 * 2048 + y % 8 * 256 + y / 8 % 8 * 32 + c := by
  unfold patternOff
  dsimp only
  rw [BitVec.toNat_setWidth]
  simp only [toNat_append_add, BitVec.extractLsb'_toNat, BitVec.toNat_ofNat, Nat.shiftRight_eq_div_pow]
  have h8 : y % 2 ^ 8 = y := Nat.mod_eq_of_lt (by omega)
  have h5 : c % 2 ^ 5 = c := Nat.mod_eq_of_lt hc
  have h6 : y / 2 ^ 6 % 2 ^ 2 = y / 64 := Nat.mod_eq_of_lt (by omega)
  rw [h8, h5, h6, Nat.mod_eq_of_lt (by omega)]
  omega

/-- `attr_off` as a number (R172). -/
theorem attrOff_toNat {y c : Nat} (hy : y < 192) (hc : c < 32) : (attrOff y c).toNat = 0x1800 + y / 8 * 32 + c := by
  unfold attrOff
  rw [BitVec.toNat_ofNat]
  omega

theorem channel_toNat (on : Bool) (lvl : Byte) : (channel on lvl).toNat = on.toNat * lvl.toNat := by
  cases on <;> simp [channel]

/-- `rgba` as a number (R271). -/
theorem rgba_toNat (c : Config) (n : BitVec 4) :
    (rgba c n).toNat = 0xFF * 2 ^ 24
      + ((n.getLsbD 0).toNat * (if n.getLsbD 3 then c.lBright else c.lNormal).toNat) * 2 ^ 16
      + ((n.getLsbD 2).toNat * (if n.getLsbD 3 then c.lBright else c.lNormal).toNat) * 2 ^ 8
      + (n.getLsbD 1).toNat * (if n.getLsbD 3 then c.lBright else c.lNormal).toNat := by
  unfold rgba
  dsimp only
  simp only [toNat_append_add, channel_toNat, BitVec.toNat_ofNat]
  ring

/-! ## Pixels and chunks -/

/-- Bit b of a merged chunk (R177): the new byte inside byte j, the old chunk elsewhere. -/
theorem getLsbD_mergePair {j b : Nat} (hj : j < 4) (hb : b < 32) (n0 n1 : BitVec 4) (ch : Word) :
    (mergePair j n0 n1 ch).getLsbD b =
      if b / 8 = j then (if b % 8 < 4 then n0.getLsbD (b % 8) else n1.getLsbD (b % 8 - 4)) else ch.getLsbD b := by
  simp only [mergePair, BitVec.getLsbD_or, BitVec.getLsbD_and, BitVec.getLsbD_not, BitVec.getLsbD_shiftLeft,
    BitVec.getLsbD_setWidth, BitVec.getLsbD_append]
  interval_cases j <;> interval_cases b <;> simp

/-- Pixel k of a merged chunk. -/
theorem extract_mergePair {j k : Nat} (hj : j < 4) (hk : k < 8) (n0 n1 : BitVec 4) (ch : Word) :
    (mergePair j n0 n1 ch).extractLsb' (4 * k) 4 =
      if k / 2 = j then (if k % 2 = 0 then n0 else n1) else ch.extractLsb' (4 * k) 4 := by
  apply BitVec.eq_of_getLsbD_eq
  intro i hi
  rw [BitVec.getLsbD_extractLsb', getLsbD_mergePair hj (by omega)]
  have h8 : (4 * k + i) / 8 = k / 2 := by omega
  simp only [hi, decide_true, Bool.true_and, h8]
  by_cases h : k / 2 = j
  · rw [if_pos h, if_pos h]
    by_cases hp : k % 2 = 0
    · have : (4 * k + i) % 8 = i := by omega
      rw [if_pos hp, this, if_pos hi]
    · have : (4 * k + i) % 8 = 4 + i := by omega
      rw [if_neg hp, this, if_neg (by omega)]
      congr 1
      omega
  · rw [if_neg h, if_neg h, BitVec.getLsbD_extractLsb']
    simp [hi]

/-- Pixel k of a chunk as a number (R177). -/
theorem extract_nibble_toNat (ch : Word) (k : Nat) : (ch.extractLsb' (4 * k) 4).toNat = ch.toNat / 2 ^ (4 * k) % 16 := by
  rw [BitVec.extractLsb'_toNat, Nat.shiftRight_eq_div_pow]

/-- A chunk after a pair is put: the targeted chunk is merged, if it exists. -/
theorem chunkAt_putPair (l p : Nat) (n0 n1 : BitVec 4) (v : Video) (r c : Nat) :
    chunkAt (putPair l p n0 n1 v) r c =
      if r = l ∧ c = p / 8 ∧ l < v.chunks.length ∧ c < (v.chunks.getD l []).length
      then mergePair (p % 8 / 2) n0 n1 (chunkAt v r c) else chunkAt v r c := by
  unfold chunkAt putPair
  simp only [List.getD_eq_getElem?_getD, List.getElem?_modify]
  by_cases hr : r = l
  · subst hr
    cases hv : v.chunks[r]? with
    | none =>
      have : ¬ r < v.chunks.length := by
        intro hlt
        rw [List.getElem?_eq_getElem hlt] at hv
        cases hv
      simp [this]
    | some row =>
      have hlt : r < v.chunks.length := by
        by_contra hn
        rw [List.getElem?_eq_none (by omega)] at hv
        cases hv
      simp only [if_true, Option.map_eq_map, Option.map_some, Option.getD_some, List.getElem?_modify, true_and, hlt]
      by_cases hc : c = p / 8
      · subst hc
        by_cases hl : p / 8 < row.length
        · simp [hl]
        · rw [List.getElem?_eq_none (by omega)]
          simp [hl]
      · have : ¬ p / 8 = c := fun h => hc h.symm
        simp [hc, this]
  · have : ¬ l = r := fun h => hr h.symm
    simp [hr, this]

/-- A pixel outside the pair is unchanged, whatever the buffer's shape (R177: "the other 24 bits"). -/
theorem pixelAt_putPair_other {l p : Nat} {n0 n1 : BitVec 4} {v : Video} {r x : Nat} (h : ¬ (r = l ∧ x / 2 = p / 2)) :
    pixelAt (putPair l p n0 n1 v) r x = pixelAt v r x := by
  unfold pixelAt
  rw [chunkAt_putPair]
  split
  · rename_i hc
    rw [extract_mergePair (by omega) (by omega), if_neg]
    intro hh
    exact h ⟨hc.1, by omega⟩
  · rfl

/-- A pixel of the pair is the pixel drawn. -/
theorem pixelAt_putPair_pair {l p : Nat} {n0 n1 : BitVec 4} {v : Video} {x : Nat} (hx : x / 2 = p / 2)
    (hl : l < v.chunks.length) (hc : p / 8 < (v.chunks.getD l []).length) :
    pixelAt (putPair l p n0 n1 v) l x = if x % 2 = 0 then n0 else n1 := by
  unfold pixelAt
  have h8 : x / 8 = p / 8 := by omega
  rw [chunkAt_putPair, if_pos ⟨rfl, h8, hl, by rw [h8]; exact hc⟩, extract_mergePair (by omega) (by omega),
    if_pos (by omega)]
  have : x % 8 % 2 = x % 2 := by omega
  rw [this]

/-- What a video of the right shape has room for. -/
theorem Video.shaped_room {c : Config} {v : Video} (h : v.shaped c) {l p : Nat} (hl : l < c.height)
    (hp : p < c.width) : l < v.chunks.length ∧ p / 8 < (v.chunks.getD l []).length := by
  have hlen : l < v.chunks.length := by rw [h.1]; exact hl
  refine ⟨hlen, ?_⟩
  have hrow := h.2 v.chunks[l] (List.getElem_mem hlen)
  rw [List.getD_eq_getElem?_getD, List.getElem?_eq_getElem hlen, Option.getD_some, hrow]
  have hw : c.width % 8 = 0 := by
    have := c.ok
    simp only [RawConfig.valid, Bool.and_eq_true, decide_eq_true_eq] at this
    unfold Config.width
    omega
  unfold Config.chunksPerRow
  omega

theorem putPair_shaped {c : Config} {v : Video} (h : v.shaped c) (l p : Nat) (n0 n1 : BitVec 4) :
    (putPair l p n0 n1 v).shaped c := by
  refine ⟨by simpa [putPair] using h.1, ?_⟩
  intro row hrow
  obtain ⟨i, hi, rfl⟩ := List.getElem_of_mem hrow
  simp only [putPair, List.getElem_modify]
  have hlen : i < v.chunks.length := by simpa [putPair] using hi
  have := h.2 v.chunks[i] (List.getElem_mem hlen)
  split <;> simp [this]

theorem Video.reset_shaped (c : Config) : (Video.reset c).shaped c := by
  refine ⟨List.length_replicate .., fun row h => ?_⟩
  rw [List.eq_of_mem_replicate h]
  exact List.length_replicate ..

/-! ## One tick -/

section
variable (x : VideoInputs)

/-- The latches and the flip-flop after the copy and the fetch of a tick; the chunks stay (R174, R175). -/
theorem latchFetch_chunks (l p : Nat) (v : Video) : (latchFetch x l p v).chunks = v.chunks := by
  unfold latchFetch
  split <;> rfl

theorem latchFetch_cursor (l p : Nat) (v : Video) : (latchFetch x l p v).cursor = v.cursor := by
  unfold latchFetch
  split <;> rfl

theorem latchFetch_shadow (l p : Nat) (v : Video) :
    (latchFetch x l p v).shadowPat = v.shadowPat ∧ (latchFetch x l p v).shadowAttr = v.shadowAttr := by
  unfold latchFetch
  split <;> exact ⟨rfl, rfl⟩

/-- The video before a tick draws. -/
def beforeDraw (l p : Nat) (v : Video) : Video :=
  let v1 := if inScreen x.cfg l p && decide ((p - x.cfg.bw) % 8 = 0) then shadowCopy v else v
  if inLatch x.cfg l p then latchFetch x l p v1 else v1

theorem beforeDraw_chunks (l p : Nat) (v : Video) : (beforeDraw x l p v).chunks = v.chunks := by
  unfold beforeDraw
  dsimp only
  split <;> split <;> simp [latchFetch_chunks, shadowCopy]

theorem beforeDraw_cursor (l p : Nat) (v : Video) : (beforeDraw x l p v).cursor = v.cursor := by
  unfold beforeDraw
  dsimp only
  split <;> split <;> simp [latchFetch_cursor, shadowCopy]

/-- A screen block starts at this position: the latches are copied (R175). -/
def startsBlock (l p : Nat) : Bool := inScreen x.cfg l p && decide ((p - x.cfg.bw) % 8 = 0)

/-- The five latch elements before a tick draws (R174, R175): the copy takes the latches as they were. -/
theorem beforeDraw_latches (l p : Nat) (v : Video) :
    (beforeDraw x l p v).latchPat = (if inLatch x.cfg l p = true ∧ v.fetchFf = false
      then x.ram.byte (screenPage x.bank) (patternOff (l - x.cfg.bt) ((p - (x.cfg.bw - 8)) / 8)) else v.latchPat) ∧
    (beforeDraw x l p v).latchAttr = (if inLatch x.cfg l p = true ∧ v.fetchFf = true
      then x.ram.byte (screenPage x.bank) (attrOff (l - x.cfg.bt) ((p - (x.cfg.bw - 8)) / 8)) else v.latchAttr) ∧
    (beforeDraw x l p v).fetchFf = (if inLatch x.cfg l p = true then !v.fetchFf else v.fetchFf) ∧
    (beforeDraw x l p v).shadowPat = (if startsBlock x l p = true then v.latchPat else v.shadowPat) ∧
    (beforeDraw x l p v).shadowAttr = (if startsBlock x l p = true then v.latchAttr else v.shadowAttr) := by
  unfold beforeDraw startsBlock latchFetch shadowCopy
  cases inLatch x.cfg l p <;> cases inScreen x.cfg l p && decide ((p - x.cfg.bw) % 8 = 0) <;> cases hf : v.fetchFf <;>
    simp [hf]

/-- A tick draws one pair or nothing (R179). -/
theorem processAt_cases (l p : Nat) (v : Video) :
    processAt x l p v = beforeDraw x l p v ∨
    (inVisible x.cfg l p = true ∧ ∃ n0 n1, processAt x l p v = putPair l p n0 n1 (beforeDraw x l p v)) := by
  unfold processAt
  dsimp only
  change (if inScreen x.cfg l p then drawScreen x l p (beforeDraw x l p v)
    else if inBorder x.cfg l p then putPair l p (borderNibble x) (borderNibble x) (beforeDraw x l p v)
    else beforeDraw x l p v) = _ ∨ _ ∧ ∃ n0 n1, (if inScreen x.cfg l p then drawScreen x l p (beforeDraw x l p v)
    else if inBorder x.cfg l p then putPair l p (borderNibble x) (borderNibble x) (beforeDraw x l p v)
    else beforeDraw x l p v) = _
  by_cases h : inScreen x.cfg l p = true
  · right
    rw [if_pos h]
    refine ⟨?_, _, _, rfl⟩
    simp only [inScreen, screenLine, Bool.and_eq_true, decide_eq_true_eq] at h
    simp only [inVisible, Bool.and_eq_true, decide_eq_true_eq]
    unfold Config.height Config.width
    omega
  · rw [if_neg h]
    by_cases hb : inBorder x.cfg l p = true
    · right
      rw [if_pos hb]
      refine ⟨?_, _, _, rfl⟩
      simp only [inBorder, Bool.and_eq_true] at hb
      exact hb.1
    · left
      rw [if_neg hb]

/-- A tick of the screen draws its pair (R176, R179). -/
theorem processAt_screen {l p : Nat} (h : inScreen x.cfg l p = true) (v : Video) :
    processAt x l p v = drawScreen x l p (beforeDraw x l p v) := if_pos h

/-- Drawing touches no latch: after a tick they are as before its draw. -/
theorem processAt_latches (x : VideoInputs) (l p : Nat) (v : Video) :
    (processAt x l p v).latchPat = (beforeDraw x l p v).latchPat ∧
    (processAt x l p v).latchAttr = (beforeDraw x l p v).latchAttr ∧
    (processAt x l p v).shadowPat = (beforeDraw x l p v).shadowPat ∧
    (processAt x l p v).shadowAttr = (beforeDraw x l p v).shadowAttr ∧
    (processAt x l p v).fetchFf = (beforeDraw x l p v).fetchFf := by
  obtain h | ⟨_, n0, n1, h⟩ := processAt_cases x l p v <;> rw [h] <;> exact ⟨rfl, rfl, rfl, rfl, rfl⟩

theorem putPair_cursor (l p : Nat) (n0 n1 : BitVec 4) (v : Video) : (putPair l p n0 n1 v).cursor = v.cursor := rfl

theorem processTick_cursor (t : Nat) (v : Video) : (processTick x t v).cursor = v.cursor := by
  unfold processTick
  split
  · rfl
  · rename_i l p _
    obtain h | ⟨_, n0, n1, h⟩ := processAt_cases x l p v <;> rw [h]
    · exact beforeDraw_cursor x l p v
    · rw [putPair_cursor]
      exact beforeDraw_cursor x l p v

theorem processTick_shaped {v : Video} (h : v.shaped x.cfg) (t : Nat) : (processTick x t v).shaped x.cfg := by
  unfold processTick
  split
  · exact h
  · rename_i l p _
    have hb : (beforeDraw x l p v).shaped x.cfg := by
      unfold Video.shaped
      rw [beforeDraw_chunks]
      exact h
    obtain hc | ⟨_, n0, n1, hc⟩ := processAt_cases x l p v <;> rw [hc]
    · exact hb
    · exact putPair_shaped hb l p n0 n1

/-- A tick changes no pixel but the two of its own position (R183). -/
theorem pixelAt_processTick_other {t : Nat} {v : Video} {r q : Nat}
    (h : ∀ l p, rasterPos x.cfg t = some (l, p) → ¬ (r = l ∧ q / 2 = p / 2)) :
    pixelAt (processTick x t v) r q = pixelAt v r q := by
  unfold processTick
  split
  · rfl
  · rename_i l p hp
    have hb : pixelAt (beforeDraw x l p v) r q = pixelAt v r q := by
      unfold pixelAt chunkAt
      rw [beforeDraw_chunks]
    obtain hc | ⟨_, n0, n1, hc⟩ := processAt_cases x l p v <;> rw [hc]
    · exact hb
    · rw [pixelAt_putPair_other (h l p hp)]
      exact hb

end

/-! ## Raster positions -/

theorem Config.tpl_pos (c : Config) : 0 < c.tpl := by
  have := c.ok
  simp only [RawConfig.valid, Bool.and_eq_true, decide_eq_true_eq] at this
  omega

/-- A tick before the top left of the image has no position (R171). -/
theorem rasterPos_none {c : Config} {t : Nat} (h : (t : Int) + c.frameTickOffset < 0) : rasterPos c t = none := if_pos h

/-- The position of a tick, from the numbers of R171. -/
theorem rasterPos_of_atRaster {c : Config} {t l p : Nat} (h : atRaster c t l p) : rasterPos c t = some (l, p) := by
  obtain ⟨hft, he, hp⟩ := h
  unfold rasterPos
  dsimp only
  rw [hft, if_neg (by omega), Int.toNat_natCast, Nat.mul_comm]
  have hlt : p / 2 < c.tpl := by omega
  rw [Nat.mul_add_div (Config.tpl_pos c), Nat.mul_add_mod, Nat.div_eq_of_lt hlt, Nat.mod_eq_of_lt hlt]
  simp only [Nat.add_zero, Option.some.injEq, Prod.mk.injEq, true_and]
  omega

/-- The numbers of R171, from the position of a tick. -/
theorem atRaster_of_rasterPos {c : Config} {t l p : Nat} (h : rasterPos c t = some (l, p)) : atRaster c t l p := by
  unfold rasterPos at h
  dsimp only at h
  split at h
  · cases h
  · rename_i hneg
    simp only [Option.some.injEq, Prod.mk.injEq] at h
    have hlt := Nat.mod_lt ((t : Int) + c.frameTickOffset).toNat (Config.tpl_pos c)
    have hd := Nat.div_add_mod ((t : Int) + c.frameTickOffset).toNat c.tpl
    rw [h.1, Nat.mul_comm] at hd
    refine ⟨?_, by omega, by omega⟩
    have : p / 2 = ((t : Int) + c.frameTickOffset).toNat % c.tpl := by omega
    rw [this, hd]
    omega

/-- Positions are even and below 2*TPL (R171). -/
theorem rasterPos_even {c : Config} {t l p : Nat} (h : rasterPos c t = some (l, p)) : p % 2 = 0 ∧ p < 2 * c.tpl := by
  unfold rasterPos at h
  dsimp only at h
  split at h
  · cases h
  · have := Nat.mod_lt ((t : Int) + c.frameTickOffset).toNat (Config.tpl_pos c)
    simp only [Option.some.injEq, Prod.mk.injEq] at h
    omega

/-- The map from tick to position is one-to-one (R183). -/
theorem rasterPos_inj {c : Config} {t t' l p : Nat} (h : rasterPos c t = some (l, p))
    (h' : rasterPos c t' = some (l, p)) : t = t' := by
  unfold rasterPos at h h'
  dsimp only at h h'
  split at h
  · cases h
  · split at h'
    · cases h'
    · simp only [Option.some.injEq, Prod.mk.injEq] at h h'
      have e1 := Nat.div_add_mod ((t : Int) + c.frameTickOffset).toNat c.tpl
      have e2 := Nat.div_add_mod ((t' : Int) + c.frameTickOffset).toNat c.tpl
      have e3 : ((t : Int) + c.frameTickOffset).toNat / c.tpl = ((t' : Int) + c.frameTickOffset).toNat / c.tpl := by
        omega
      rw [e3] at e1
      omega

/-- The next tick on the same line is two pixels further (R171). -/
theorem rasterPos_succ {c : Config} {t l p : Nat} (h : rasterPos c t = some (l, p)) (hp : p + 2 < 2 * c.tpl) :
    rasterPos c (t + 1) = some (l, p + 2) := by
  unfold rasterPos at h ⊢
  dsimp only at h ⊢
  split at h
  · cases h
  · rename_i hneg
    simp only [Option.some.injEq, Prod.mk.injEq] at h
    obtain ⟨hl, hm⟩ := h
    rw [if_neg (by omega)]
    have e : ((↑(t + 1) : Int) + c.frameTickOffset).toNat = ((t : Int) + c.frameTickOffset).toNat + 1 := by omega
    rw [e]
    generalize ((t : Int) + c.frameTickOffset).toNat = n at *
    have e1 := Nat.div_add_mod n c.tpl
    have hlt : n % c.tpl + 1 < c.tpl := by omega
    have hd : (n + 1) / c.tpl = n / c.tpl := by
      rw [Nat.div_eq_of_lt_le]
      · rw [Nat.mul_comm]; omega
      · rw [Nat.mul_comm, Nat.mul_add]; omega
    have e2 := Nat.div_add_mod (n + 1) c.tpl
    rw [hd] at e2 ⊢
    simp only [Option.some.injEq, Prod.mk.injEq]
    omega

/-! ## Runs of ticks -/

section
variable (x : VideoInputs)

theorem renderTicks_add (m n t : Nat) (v : Video) :
    renderTicks x (m + n) t v = renderTicks x n (t + m) (renderTicks x m t v) := by
  induction m generalizing t v with
  | zero => simp [renderTicks]
  | succ m ih =>
    rw [Nat.succ_add]
    simp only [renderTicks]
    rw [ih]
    congr 1
    omega

theorem renderTicks_cursor (n t : Nat) (v : Video) : (renderTicks x n t v).cursor = v.cursor := by
  induction n generalizing t v with
  | zero => rfl
  | succ n ih => simp only [renderTicks]; rw [ih, processTick_cursor]

theorem renderTicks_shaped {v : Video} (h : v.shaped x.cfg) (n t : Nat) : (renderTicks x n t v).shaped x.cfg := by
  induction n generalizing t v with
  | zero => exact h
  | succ n ih => exact ih (processTick_shaped x h t) (t + 1)

/-- The cursor field plays no part in drawing. -/
theorem processTick_setCursor (t : Nat) (v : Video) (k : BitVec 32) :
    processTick x t { v with cursor := k } = { processTick x t v with cursor := k } := by
  unfold processTick
  split
  · rfl
  · unfold processAt latchFetch shadowCopy drawScreen
    dsimp only
    split_ifs <;> rfl

theorem renderTicks_setCursor (n t : Nat) (v : Video) (k : BitVec 32) :
    renderTicks x n t { v with cursor := k } = { renderTicks x n t v with cursor := k } := by
  induction n generalizing t v with
  | zero => rfl
  | succ n ih => simp only [renderTicks]; rw [processTick_setCursor, ih]

/-- Ticks from t on change no pixel of an earlier tick (R183). -/
theorem pixelAt_renderTicks_earlier {n t t0 l p q : Nat} {v : Video} (ht : t0 < t)
    (h : rasterPos x.cfg t0 = some (l, p)) (hq : q / 2 = p / 2) :
    pixelAt (renderTicks x n t v) l q = pixelAt v l q := by
  induction n generalizing t v with
  | zero => rfl
  | succ n ih =>
    simp only [renderTicks]
    rw [ih (by omega)]
    refine pixelAt_processTick_other x ?_
    rintro l' p' h' ⟨rfl, hp⟩
    have he := (rasterPos_even h).1
    have he' := (rasterPos_even h').1
    have : p' = p := by omega
    subst this
    have := rasterPos_inj h h'
    omega

end

/-! ## render_to -/

section
variable {s : State}

theorem renderTo_of_le {n : Nat} (h : n ≤ s.video.cursor.toNat) : renderTo n s = s := by
  have h1 : ¬ s.video.cursor.toNat < n := by omega
  have h2 : n < 2 ^ 32 := by have := s.video.cursor.isLt; omega
  simp only [renderTo, if_neg h1, if_pos h2]

theorem renderTo_videoInputs (n : Nat) (s : State) : (renderTo n s).videoInputs = s.videoInputs := rfl

theorem renderTo_video_of_lt {n : Nat} (h : s.video.cursor.toNat < n) :
    (renderTo n s).video =
      { renderTicks s.videoInputs (n - s.video.cursor.toNat) s.video.cursor.toNat s.video with
        cursor := cursorAfter n s } := by
  simp [renderTo, h]

/-- A render of one tick (R180). -/
theorem renderTo_one {n : Nat} (h : n = s.video.cursor.toNat + 1) (hn : n < 2 ^ 32) :
    (renderTo n s).video = { processTick s.videoInputs s.video.cursor.toNat s.video with cursor := s.video.cursor + 1 } := by
  have hd : n - s.video.cursor.toNat = 1 := by omega
  have hc : BitVec.ofNat 32 n = s.video.cursor + 1 := by
    apply BitVec.eq_of_toNat_eq
    rw [BitVec.toNat_add, BitVec.toNat_ofNat, h]
    rfl
  rw [renderTo_video_of_lt (by omega), hd, cursorAfter, if_pos hn, hc]
  rfl

/-- The cursor after a render to a 32-bit target (R180). -/
theorem renderTo_cursor {n : Nat} (hn : n < 2 ^ 32) :
    (renderTo n s).video.cursor.toNat = max s.video.cursor.toNat n := by
  by_cases h : s.video.cursor.toNat < n
  · rw [renderTo_video_of_lt h]
    simp only [cursorAfter, if_pos hn, BitVec.toNat_ofNat]
    rw [Nat.mod_eq_of_lt hn]
    omega
  · rw [renderTo_of_le (by omega)]
    omega

/-- No render passes its target (R180); past 32 bits the cursor is a free value (log 6). -/
theorem renderTo_cursor_le (n : Nat) (s : State) :
    (renderTo n s).video.cursor.toNat ≤ max s.video.cursor.toNat n := by
  by_cases hn : n < 2 ^ 32
  · rw [renderTo_cursor hn]
  · have := (renderTo n s).video.cursor.isLt
    omega

theorem renderTo_freeCount {n : Nat} (hn : n < 2 ^ 32) : (renderTo n s).freeCount = s.freeCount := if_pos hn

theorem renderTo_shaped {n : Nat} (h : s.video.shaped s.cfg) : (renderTo n s).video.shaped s.cfg := by
  by_cases hl : s.video.cursor.toNat < n
  · rw [renderTo_video_of_lt hl]
    exact renderTicks_shaped s.videoInputs h _ _
  · have : (renderTo n s).video = s.video := by simp [renderTo, hl]
    rw [this]
    exact h

/-- Rendering in two stages is rendering once (R182). -/
theorem renderTo_renderTo {m n : Nat} (h : m ≤ n) (hm : m < 2 ^ 32) : renderTo n (renderTo m s) = renderTo n s := by
  by_cases h1 : s.video.cursor.toNat < m
  · have hv := renderTo_video_of_lt h1
    have hc : (renderTo m s).video.cursor.toNat = m := by
      rw [renderTo_cursor hm]
      omega
    have hf := renderTo_freeCount (s := s) hm
    by_cases h2 : m < n
    · have hd : n - s.video.cursor.toNat = (m - s.video.cursor.toNat) + (n - m) := by omega
      have h3 : s.video.cursor.toNat < n := by omega
      have e : (renderTo n (renderTo m s)).video = (renderTo n s).video := by
        rw [renderTo_video_of_lt (by rw [hc]; exact h2), renderTo_video_of_lt h3, hc, renderTo_videoInputs, hv,
          renderTicks_setCursor, hd, renderTicks_add]
        have : s.video.cursor.toNat + (m - s.video.cursor.toNat) = m := by omega
        rw [this]
        simp only [cursorAfter, hf]
      have e2 : (renderTo n (renderTo m s)).freeCount = (renderTo n s).freeCount := by
        change (if n < 2 ^ 32 then (renderTo m s).freeCount else (renderTo m s).freeCount + 1) = _
        rw [hf]
        rfl
      calc renderTo n (renderTo m s)
          = { s with video := (renderTo n (renderTo m s)).video,
                     freeCount := (renderTo n (renderTo m s)).freeCount } := rfl
        _ = { s with video := (renderTo n s).video, freeCount := (renderTo n s).freeCount } := by rw [e, e2]
        _ = renderTo n s := rfl
    · have : m = n := by omega
      subst this
      exact renderTo_of_le (by omega)
  · rw [renderTo_of_le (n := m) (by omega)]

/-- Rendering changes no pixel of a tick below the cursor (R183). -/
theorem pixelAt_renderTo_earlier {n t0 l p q : Nat} (ht : t0 < s.video.cursor.toNat)
    (h : rasterPos s.cfg t0 = some (l, p)) (hq : q / 2 = p / 2) :
    pixelAt (renderTo n s).video l q = pixelAt s.video l q := by
  by_cases hl : s.video.cursor.toNat < n
  · rw [renderTo_video_of_lt hl]
    exact pixelAt_renderTicks_earlier s.videoInputs ht h hq
  · have : (renderTo n s).video = s.video := by simp [renderTo, hl]
    rw [this]

end

end Sys2Proof.Machine
end

