-- ==== Sys2Proof/Laws/Block.lean ====
section
/-! SUPPORT. One 8-pixel screen block (spec 41_render.md R174 to R177, R181, R184): its eight ticks, each with the inputs
of its own moment, draw the block from the bytes of its last pattern fetch and its last attribute fetch. -/
namespace Sys2Proof.Machine

/-! ## Ticks with their own inputs -/

/-- n ticks from tick t on, tick u with the inputs `X u`. -/
def ticksWith (X : Nat → VideoInputs) : Nat → Nat → Video → Video
  | 0, _, v => v
  | n + 1, t, v => ticksWith X n (t + 1) (processTick (X t) t v)

theorem ticksWith_eq_renderTicks {X : Nat → VideoInputs} {x : VideoInputs} {n t : Nat} {v : Video}
    (h : ∀ u, t ≤ u → u < t + n → X u = x) : ticksWith X n t v = renderTicks x n t v := by
  induction n generalizing t v with
  | zero => rfl
  | succ n ih =>
    simp only [ticksWith, renderTicks]
    rw [h t (Nat.le_refl t) (by omega)]
    exact ih fun u h1 h2 => h u (by omega) (by omega)

theorem ticksWith_add (X : Nat → VideoInputs) (m n t : Nat) (v : Video) :
    ticksWith X (m + n) t v = ticksWith X n (t + m) (ticksWith X m t v) := by
  induction m generalizing t v with
  | zero => simp [ticksWith]
  | succ m ih =>
    rw [Nat.succ_add]
    simp only [ticksWith]
    rw [ih]
    congr 1
    omega

/-- Two renders with a change of inputs between them, as one run of ticks. -/
theorem renderTicks_then (x x' : VideoInputs) (m n t : Nat) (v : Video) :
    renderTicks x' n (t + m) (renderTicks x m t v) = ticksWith (fun u => if u < t + m then x else x') (m + n) t v := by
  rw [ticksWith_add, ticksWith_eq_renderTicks (x := x) fun u _ h => if_pos h,
    ticksWith_eq_renderTicks (x := x') fun u h _ => if_neg (by omega)]

/-! ## The ticks of one block -/

/-- Block c of screen line y, seen by ticks that all have the same configuration, bank register and flash mask. -/
structure BlockView (X : Nat → VideoInputs) (c : Config) (b : Byte) (f : Bool) (y col : Nat) : Prop where
  cfg  : ∀ u, (X u).cfg = c
  bank : ∀ u, (X u).bank = b
  mask : ∀ u, (X u).flashMask = f
  line : y < 192
  col  : col < 32
  left : 8 ≤ c.bw
  even : c.bw % 4 = 0

section
variable {X : Nat → VideoInputs} {c : Config} {b : Byte} {f : Bool} {y col : Nat} {v : Video}

/-- The latches after a tick (R174, R175). -/
theorem processTick_latches {x : VideoInputs} {t l p : Nat} (h : rasterPos x.cfg t = some (l, p)) :
    (processTick x t v).latchPat = (if inLatch x.cfg l p = true ∧ v.fetchFf = false
      then x.ram.byte (screenPage x.bank) (patternOff (l - x.cfg.bt) ((p - (x.cfg.bw - 8)) / 8)) else v.latchPat) ∧
    (processTick x t v).latchAttr = (if inLatch x.cfg l p = true ∧ v.fetchFf = true
      then x.ram.byte (screenPage x.bank) (attrOff (l - x.cfg.bt) ((p - (x.cfg.bw - 8)) / 8)) else v.latchAttr) ∧
    (processTick x t v).fetchFf = (if inLatch x.cfg l p = true then !v.fetchFf else v.fetchFf) ∧
    (processTick x t v).shadowPat = (if startsBlock x l p = true then v.latchPat else v.shadowPat) ∧
    (processTick x t v).shadowAttr = (if startsBlock x l p = true then v.latchAttr else v.shadowAttr) := by
  have hp : processTick x t v = processAt x l p v := by
    unfold processTick
    rw [h]
  obtain ⟨e1, e2, e3, e4, e5⟩ := processAt_latches x l p v
  rw [hp, e1, e2, e3, e4, e5]
  exact beforeDraw_latches x l p v

/-- A tick of the block's own latch window (R174). -/
theorem BlockView.fetch (h : BlockView X c b f y col) {t p : Nat} (hr : rasterPos c t = some (c.bt + y, p))
    (h1 : c.bw - 8 + 8 * col ≤ p) (h2 : p < c.bw + 8 * col) :
    (processTick (X t) t v).latchPat =
      (if v.fetchFf = false then (X t).ram.byte (screenPage b) (patternOff y col) else v.latchPat) ∧
    (processTick (X t) t v).latchAttr =
      (if v.fetchFf = true then (X t).ram.byte (screenPage b) (attrOff y col) else v.latchAttr) ∧
    (processTick (X t) t v).fetchFf = !v.fetchFf := by
  have := h.line
  have := h.col
  have := h.left
  have hl : inLatch c (c.bt + y) p = true := by
    simp only [inLatch, screenLine, Bool.and_eq_true, decide_eq_true_eq]
    omega
  have hc : (p - (c.bw - 8)) / 8 = col := by omega
  have hy : c.bt + y - c.bt = y := by omega
  obtain ⟨e1, e2, e3, -, -⟩ := processTick_latches (x := X t) (v := v) (by rw [h.cfg]; exact hr)
  simp only [h.cfg, h.bank, hl, hc, hy, true_and, if_true] at e1 e2 e3
  exact ⟨e1, e2, e3⟩

/-- The four latch ticks of a block: the flip-flop is back, and the latches hold the bytes of the last two fetches
(R181, R184). -/
theorem BlockView.prefetch (h : BlockView X c b f y col) {t : Nat}
    (hr : ∀ i, i < 4 → rasterPos c (t + i) = some (c.bt + y, c.bw - 8 + 8 * col + 2 * i)) :
    (ticksWith X 4 t v).latchPat =
      (X (t + if v.fetchFf then 3 else 2)).ram.byte (screenPage b) (patternOff y col) ∧
    (ticksWith X 4 t v).latchAttr =
      (X (t + if v.fetchFf then 2 else 3)).ram.byte (screenPage b) (attrOff y col) ∧
    (ticksWith X 4 t v).fetchFf = v.fetchFf := by
  have hl := h.left
  have step : ∀ (i : Nat) (w : Video), i < 4 → _ := fun i w hi =>
    h.fetch (v := w) (hr i hi) (by omega) (by omega)
  simp only [ticksWith, Nat.add_assoc, Nat.reduceAdd]
  obtain ⟨p0, a0, f0⟩ := step 0 v (by omega)
  simp only [Nat.add_zero] at p0 a0 f0
  generalize processTick (X t) t v = v1 at *
  obtain ⟨p1, a1, f1⟩ := step 1 v1 (by omega)
  generalize processTick (X (t + 1)) (t + 1) v1 = v2 at *
  obtain ⟨p2, a2, f2⟩ := step 2 v2 (by omega)
  generalize processTick (X (t + 2)) (t + 2) v2 = v3 at *
  obtain ⟨p3, a3, f3⟩ := step 3 v3 (by omega)
  rw [p3, a3, f3]
  cases hf : v.fetchFf <;> simp_all

/-- A draw tick j of the block (R175, R176): what it shows, and what it leaves to the next one. -/
theorem BlockView.draw (h : BlockView X c b f y col) (hv : v.shaped c) {t j : Nat} (hj : j < 4)
    (hr : rasterPos c t = some (c.bt + y, c.bw + 8 * col + 2 * j)) {pat attr : Byte}
    (hp : (if j = 0 then v.latchPat else v.shadowPat) = pat)
    (ha : (if j = 0 then v.latchAttr else v.shadowAttr) = attr) :
    (processTick (X t) t v).shadowPat = pat ∧ (processTick (X t) t v).shadowAttr = attr ∧
    (processTick (X t) t v).fetchFf = (if col < 31 then !v.fetchFf else v.fetchFf) ∧
    ∀ q, q / 2 = j → pixelAt (processTick (X t) t v) (c.bt + y) (c.bw + 8 * col + q) =
      screenNibble f (pat.getLsbD (7 - q)) attr := by
  have := h.line
  have := h.col
  have := h.left
  have := h.even
  have hin : inScreen c (c.bt + y) (c.bw + 8 * col + 2 * j) = true := by
    simp only [inScreen, screenLine, Bool.and_eq_true, decide_eq_true_eq]
    omega
  have hst : startsBlock (X t) (c.bt + y) (c.bw + 8 * col + 2 * j) = decide (j = 0) := by
    simp only [startsBlock, h.cfg, hin, Bool.true_and]
    congr 1
    simp only [eq_iff_iff]
    omega
  have hla : inLatch c (c.bt + y) (c.bw + 8 * col + 2 * j) = decide (col < 31) := by
    simp only [inLatch, screenLine]
    by_cases hc : col < 31
    · simp only [hc, decide_true, Bool.and_eq_true, decide_eq_true_eq]
      omega
    · simp only [hc, decide_false, Bool.and_eq_false_iff, decide_eq_false_iff_not]
      omega
  obtain ⟨-, -, e3, e4, e5⟩ := processTick_latches (x := X t) (v := v) (by rw [h.cfg]; exact hr)
  simp only [h.cfg, hst, hla, decide_eq_true_eq] at e3 e4 e5
  rw [hp] at e4
  rw [ha] at e5
  refine ⟨e4, e5, e3, fun q hq => ?_⟩
  have hpt : processTick (X t) t v = drawScreen (X t) (c.bt + y) (c.bw + 8 * col + 2 * j)
      (beforeDraw (X t) (c.bt + y) (c.bw + 8 * col + 2 * j) v) := by
    have hin' : inScreen (X t).cfg (c.bt + y) (c.bw + 8 * col + 2 * j) = true := by rw [h.cfg]; exact hin
    unfold processTick
    rw [h.cfg, hr]
    unfold processAt beforeDraw
    simp only [hin', if_true]
  have hb4 : (beforeDraw (X t) (c.bt + y) (c.bw + 8 * col + 2 * j) v).shadowPat = pat := by
    rw [hpt] at e4
    exact e4
  have hb5 : (beforeDraw (X t) (c.bt + y) (c.bw + 8 * col + 2 * j) v).shadowAttr = attr := by
    rw [hpt] at e5
    exact e5
  have hroom := Video.shaped_room hv (l := c.bt + y) (p := c.bw + 8 * col + 2 * j) (by unfold Config.height; omega)
    (by unfold Config.width; omega)
  have bc := beforeDraw_chunks (X t) (c.bt + y) (c.bw + 8 * col + 2 * j) v
  have hk : (c.bw + 8 * col + 2 * j - c.bw) % 8 = 2 * j := by omega
  rw [hpt]
  unfold drawScreen
  dsimp only
  rw [pixelAt_putPair_pair (by omega) (by rw [bc]; exact hroom.1) (by rw [bc]; exact hroom.2), hb4, hb5, h.cfg, h.mask,
    hk]
  split
  · rw [show 7 - 2 * j = 7 - q by omega]
  · rw [show 6 - 2 * j = 7 - q by omega]

/-- A tick of the block's line changes no pixel of another pair. -/
theorem BlockView.other (h : BlockView X c b f y col) {t p q : Nat} (hr : rasterPos c t = some (c.bt + y, p))
    (hq : q / 2 ≠ p / 2) : pixelAt (processTick (X t) t v) (c.bt + y) q = pixelAt v (c.bt + y) q := by
  refine pixelAt_processTick_other (X t) fun l' p' h' hh => ?_
  rw [h.cfg, hr] at h'
  cases h'
  exact hq hh.2

theorem BlockView.shaped (h : BlockView X c b f y col) (hv : v.shaped c) (t : Nat) :
    (processTick (X t) t v).shaped c := by
  have := processTick_shaped (X t) (v := v) (by rw [h.cfg]; exact hv) t
  rwa [h.cfg] at this

/-- The four draw ticks of a block: its eight pixels from the two latched bytes, and the flip-flop is back. -/
theorem BlockView.show (h : BlockView X c b f y col) (hv : v.shaped c) {t : Nat}
    (hr : ∀ j, j < 4 → rasterPos c (t + j) = some (c.bt + y, c.bw + 8 * col + 2 * j)) :
    (ticksWith X 4 t v).fetchFf = v.fetchFf ∧
    ∀ k, k < 8 → pixelAt (ticksWith X 4 t v) (c.bt + y) (c.bw + 8 * col + k) =
      screenNibble f (v.latchPat.getLsbD (7 - k)) v.latchAttr := by
  have he := h.even
  have r0 := hr 0 (by omega)
  have r1 := hr 1 (by omega)
  have r2 := hr 2 (by omega)
  have r3 := hr 3 (by omega)
  obtain ⟨s0, a0, f0, d0⟩ := h.draw hv (j := 0) (by omega) r0 rfl rfl
  have v1 := h.shaped hv t
  simp only [Nat.add_zero, if_true] at s0 a0 f0 d0
  simp only [ticksWith, Nat.add_assoc t, Nat.reduceAdd]
  generalize processTick (X t) t v = w1 at *
  obtain ⟨s1, a1, f1, d1⟩ := h.draw v1 (j := 1) (by omega) r1 (by simpa using s0) (by simpa using a0)
  have v2 := h.shaped v1 (t + 1)
  have o1 := fun q hq => h.other (v := w1) (q := q) r1 hq
  generalize processTick (X (t + 1)) (t + 1) w1 = w2 at *
  obtain ⟨s2, a2, f2, d2⟩ := h.draw v2 (j := 2) (by omega) r2 (by simpa using s1) (by simpa using a1)
  have v3 := h.shaped v2 (t + 2)
  have o2 := fun q hq => h.other (v := w2) (q := q) r2 hq
  generalize processTick (X (t + 2)) (t + 2) w2 = w3 at *
  obtain ⟨-, -, f3, d3⟩ := h.draw v3 (j := 3) (by omega) r3 (by simpa using s2) (by simpa using a2)
  have o3 := fun q hq => h.other (v := w3) (q := q) r3 hq
  constructor
  · rw [f3, f2, f1, f0]
    split <;> simp
  · intro k hk
    have hj : k / 2 = 0 ∨ k / 2 = 1 ∨ k / 2 = 2 ∨ k / 2 = 3 := by omega
    obtain hj | hj | hj | hj := hj
    · rw [o3 _ (by omega), o2 _ (by omega), o1 _ (by omega)]
      exact d0 k hj
    · rw [o3 _ (by omega), o2 _ (by omega)]
      exact d1 k hj
    · rw [o3 _ (by omega)]
      exact d2 k hj
    · exact d3 k hj

/-- The eight ticks of a block from its first latch tick t (R181, R184). -/
theorem BlockView.pixels (h : BlockView X c b f y col) (hv : v.shaped c) {t : Nat}
    (hr : rasterPos c t = some (c.bt + y, c.bw - 8 + 8 * col)) :
    (ticksWith X 8 t v).fetchFf = v.fetchFf ∧
    ∀ k, k < 8 → pixelAt (ticksWith X 8 t v) (c.bt + y) (c.bw + 8 * col + k) =
      screenNibble f
        (((X (t + if v.fetchFf then 3 else 2)).ram.byte (screenPage b) (patternOff y col)).getLsbD (7 - k))
        ((X (t + if v.fetchFf then 2 else 3)).ram.byte (screenPage b) (attrOff y col)) := by
  have hl := h.left
  have hc := h.col
  have htpl : 2 * c.bw + 256 ≤ 2 * c.tpl := by
    have := c.ok
    simp only [RawConfig.valid, Bool.and_eq_true, decide_eq_true_eq] at this
    omega
  have hpos : ∀ i, i < 8 → rasterPos c (t + i) = some (c.bt + y, c.bw - 8 + 8 * col + 2 * i) := by
    intro i hi
    induction i with
    | zero => exact hr
    | succ i ih =>
      have hp : c.bw - 8 + 8 * col + 2 * i + 2 < 2 * c.tpl := by omega
      exact rasterPos_succ (ih (by omega)) hp
  obtain ⟨hp, ha, hf⟩ := h.prefetch (v := v) (t := t) fun i hi => hpos i (by omega)
  have hs : (ticksWith X 4 t v).shaped c := by
    simp only [ticksWith]
    exact h.shaped (h.shaped (h.shaped (h.shaped hv _) _) _) _
  have e8 : ticksWith X 8 t v = ticksWith X 4 (t + 4) (ticksWith X 4 t v) := ticksWith_add X 4 4 t v
  obtain ⟨g, d⟩ := h.show hs (t := t + 4) fun j hj => by
    rw [Nat.add_assoc, hpos (4 + j) (by omega)]
    congr 2
    omega
  rw [e8, g, hf]
  exact ⟨rfl, fun k hk => by rw [d k hk, hp, ha]⟩

end

/-! ## A colour index as a number -/

/-- `screen_nibble` as a number (R176, R113, R114). -/
theorem screenNibble_toNat (f bit : Bool) (a : Byte) :
    (screenNibble f bit a).toNat = (if a.getLsbD 6 then 8 else 0) +
      (if bit ^^ (a.getLsbD 7 && f) then a.toNat % 8 else a.toNat / 8 % 8) := by
  unfold screenNibble colourIndex attrFlash attrBright attrInk attrPaper
  dsimp only
  rw [toNat_append_add]
  cases a.getLsbD 7 <;> cases f <;> cases bit <;> cases a.getLsbD 6 <;>
    simp [BitVec.extractLsb'_toNat, Nat.shiftRight_eq_div_pow]

end Sys2Proof.Machine
end

