-- ==== Sys2Proof/Laws/Fields.lean ====
section
/-! SUPPORT. What the operations with a choice in them leave unchanged, one lemma per field: a memory write, the
catch-up of WRITE, an OUT, an accepted or locked bank write, and the step of the scheduler. -/
namespace Sys2Proof.Machine

section
variable {s : State}

/-! ### memWrite (R75) -/

@[simp] theorem memWrite_cfg (a : Addr) (v : Byte) : (memWrite a v s).cfg = s.cfg := by
  rw [memWrite_eq]
@[simp] theorem memWrite_pending (a : Addr) (v : Byte) : (memWrite a v s).pending = s.pending := by
  rw [memWrite_eq]
@[simp] theorem memWrite_slots (a : Addr) (v : Byte) : (memWrite a v s).slots = s.slots := by
  rw [memWrite_eq]
@[simp] theorem memWrite_bank (a : Addr) (v : Byte) : (memWrite a v s).bank = s.bank := by
  rw [memWrite_eq]
@[simp] theorem memWrite_locked (a : Addr) (v : Byte) : (memWrite a v s).locked = s.locked := by
  rw [memWrite_eq]
@[simp] theorem memWrite_overlay (a : Addr) (v : Byte) : (memWrite a v s).overlay = s.overlay := by
  rw [memWrite_eq]
@[simp] theorem memWrite_tick (a : Addr) (v : Byte) : (memWrite a v s).tick = s.tick := by
  rw [memWrite_eq]
@[simp] theorem memWrite_video (a : Addr) (v : Byte) : (memWrite a v s).video = s.video := by
  rw [memWrite_eq]
@[simp] theorem memWrite_border (a : Addr) (v : Byte) : (memWrite a v s).border = s.border := by
  rw [memWrite_eq]
@[simp] theorem memWrite_flashMask (a : Addr) (v : Byte) : (memWrite a v s).flashMask = s.flashMask := by
  rw [memWrite_eq]
@[simp] theorem memWrite_frameCtr (a : Addr) (v : Byte) : (memWrite a v s).frameCtr = s.frameCtr := by
  rw [memWrite_eq]
@[simp] theorem memWrite_events (a : Addr) (v : Byte) : (memWrite a v s).events = s.events := by
  rw [memWrite_eq]
@[simp] theorem memWrite_marks (a : Addr) (v : Byte) : (memWrite a v s).marks = s.marks := by
  rw [memWrite_eq]
@[simp] theorem memWrite_tlimEn (a : Addr) (v : Byte) : (memWrite a v s).tlimEn = s.tlimEn := by
  rw [memWrite_eq]
@[simp] theorem memWrite_tlim (a : Addr) (v : Byte) : (memWrite a v s).tlim = s.tlim := by
  rw [memWrite_eq]
@[simp] theorem memWrite_flimEn (a : Addr) (v : Byte) : (memWrite a v s).flimEn = s.flimEn := by
  rw [memWrite_eq]
@[simp] theorem memWrite_flim (a : Addr) (v : Byte) : (memWrite a v s).flim = s.flim := by
  rw [memWrite_eq]
@[simp] theorem memWrite_fetchCount (a : Addr) (v : Byte) : (memWrite a v s).fetchCount = s.fetchCount := by
  rw [memWrite_eq]
@[simp] theorem memWrite_intSuppress (a : Addr) (v : Byte) : (memWrite a v s).intSuppress = s.intSuppress := by
  rw [memWrite_eq]
@[simp] theorem memWrite_intLine (a : Addr) (v : Byte) : (memWrite a v s).intLine = s.intLine := by
  rw [memWrite_eq]
@[simp] theorem memWrite_portOvr (a : Addr) (v : Byte) : (memWrite a v s).portOvr = s.portOvr := by
  rw [memWrite_eq]
@[simp] theorem memWrite_phase (a : Addr) (v : Byte) : (memWrite a v s).phase = s.phase := by
  rw [memWrite_eq]
@[simp] theorem memWrite_faults (a : Addr) (v : Byte) : (memWrite a v s).faults = s.faults := by
  rw [memWrite_eq]
@[simp] theorem memWrite_response (a : Addr) (v : Byte) : (memWrite a v s).response = s.response := by
  rw [memWrite_eq]
@[simp] theorem memWrite_signals (a : Addr) (v : Byte) : (memWrite a v s).signals = s.signals := by
  rw [memWrite_eq]
@[simp] theorem memWrite_freeCount (a : Addr) (v : Byte) : (memWrite a v s).freeCount = s.freeCount := by
  rw [memWrite_eq]

/-! ### catchUpForWrite (R143) -/

@[simp] theorem catchUpForWrite_cfg (a : Addr) : (catchUpForWrite a s).cfg = s.cfg := by
  unfold catchUpForWrite; split <;> rfl
@[simp] theorem catchUpForWrite_pending (a : Addr) : (catchUpForWrite a s).pending = s.pending := by
  unfold catchUpForWrite; split <;> rfl
@[simp] theorem catchUpForWrite_ram (a : Addr) : (catchUpForWrite a s).ram = s.ram := by
  unfold catchUpForWrite; split <;> rfl
@[simp] theorem catchUpForWrite_slots (a : Addr) : (catchUpForWrite a s).slots = s.slots := by
  unfold catchUpForWrite; split <;> rfl
@[simp] theorem catchUpForWrite_bank (a : Addr) : (catchUpForWrite a s).bank = s.bank := by
  unfold catchUpForWrite; split <;> rfl
@[simp] theorem catchUpForWrite_locked (a : Addr) : (catchUpForWrite a s).locked = s.locked := by
  unfold catchUpForWrite; split <;> rfl
@[simp] theorem catchUpForWrite_overlay (a : Addr) : (catchUpForWrite a s).overlay = s.overlay := by
  unfold catchUpForWrite; split <;> rfl
@[simp] theorem catchUpForWrite_tick (a : Addr) : (catchUpForWrite a s).tick = s.tick := by
  unfold catchUpForWrite; split <;> rfl
@[simp] theorem catchUpForWrite_border (a : Addr) : (catchUpForWrite a s).border = s.border := by
  unfold catchUpForWrite; split <;> rfl
@[simp] theorem catchUpForWrite_flashMask (a : Addr) : (catchUpForWrite a s).flashMask = s.flashMask := by
  unfold catchUpForWrite; split <;> rfl
@[simp] theorem catchUpForWrite_frameCtr (a : Addr) : (catchUpForWrite a s).frameCtr = s.frameCtr := by
  unfold catchUpForWrite; split <;> rfl
@[simp] theorem catchUpForWrite_events (a : Addr) : (catchUpForWrite a s).events = s.events := by
  unfold catchUpForWrite; split <;> rfl
@[simp] theorem catchUpForWrite_marks (a : Addr) : (catchUpForWrite a s).marks = s.marks := by
  unfold catchUpForWrite; split <;> rfl
@[simp] theorem catchUpForWrite_tlimEn (a : Addr) : (catchUpForWrite a s).tlimEn = s.tlimEn := by
  unfold catchUpForWrite; split <;> rfl
@[simp] theorem catchUpForWrite_tlim (a : Addr) : (catchUpForWrite a s).tlim = s.tlim := by
  unfold catchUpForWrite; split <;> rfl
@[simp] theorem catchUpForWrite_flimEn (a : Addr) : (catchUpForWrite a s).flimEn = s.flimEn := by
  unfold catchUpForWrite; split <;> rfl
@[simp] theorem catchUpForWrite_flim (a : Addr) : (catchUpForWrite a s).flim = s.flim := by
  unfold catchUpForWrite; split <;> rfl
@[simp] theorem catchUpForWrite_fetchCount (a : Addr) : (catchUpForWrite a s).fetchCount = s.fetchCount := by
  unfold catchUpForWrite; split <;> rfl
@[simp] theorem catchUpForWrite_intSuppress (a : Addr) : (catchUpForWrite a s).intSuppress = s.intSuppress := by
  unfold catchUpForWrite; split <;> rfl
@[simp] theorem catchUpForWrite_intLine (a : Addr) : (catchUpForWrite a s).intLine = s.intLine := by
  unfold catchUpForWrite; split <;> rfl
@[simp] theorem catchUpForWrite_portOvr (a : Addr) : (catchUpForWrite a s).portOvr = s.portOvr := by
  unfold catchUpForWrite; split <;> rfl
@[simp] theorem catchUpForWrite_phase (a : Addr) : (catchUpForWrite a s).phase = s.phase := by
  unfold catchUpForWrite; split <;> rfl
@[simp] theorem catchUpForWrite_faults (a : Addr) : (catchUpForWrite a s).faults = s.faults := by
  unfold catchUpForWrite; split <;> rfl
@[simp] theorem catchUpForWrite_response (a : Addr) : (catchUpForWrite a s).response = s.response := by
  unfold catchUpForWrite; split <;> rfl
@[simp] theorem catchUpForWrite_signals (a : Addr) : (catchUpForWrite a s).signals = s.signals := by
  unfold catchUpForWrite; split <;> rfl

/-! ### portRegisters (R146) -/

@[simp] theorem portRegisters_cfg (p : Addr) (d : Byte) : (portRegisters p d s).cfg = s.cfg := by
  unfold portRegisters; dsimp only; split_ifs <;> rfl
@[simp] theorem portRegisters_pending (p : Addr) (d : Byte) : (portRegisters p d s).pending = s.pending := by
  unfold portRegisters; dsimp only; split_ifs <;> rfl
@[simp] theorem portRegisters_ram (p : Addr) (d : Byte) : (portRegisters p d s).ram = s.ram := by
  unfold portRegisters; dsimp only; split_ifs <;> rfl
@[simp] theorem portRegisters_overlay (p : Addr) (d : Byte) : (portRegisters p d s).overlay = s.overlay := by
  unfold portRegisters; dsimp only; split_ifs <;> rfl
@[simp] theorem portRegisters_tick (p : Addr) (d : Byte) : (portRegisters p d s).tick = s.tick := by
  unfold portRegisters; dsimp only; split_ifs <;> rfl
@[simp] theorem portRegisters_video (p : Addr) (d : Byte) : (portRegisters p d s).video = s.video := by
  unfold portRegisters; dsimp only; split_ifs <;> rfl
@[simp] theorem portRegisters_flashMask (p : Addr) (d : Byte) : (portRegisters p d s).flashMask = s.flashMask := by
  unfold portRegisters; dsimp only; split_ifs <;> rfl
@[simp] theorem portRegisters_frameCtr (p : Addr) (d : Byte) : (portRegisters p d s).frameCtr = s.frameCtr := by
  unfold portRegisters; dsimp only; split_ifs <;> rfl
@[simp] theorem portRegisters_events (p : Addr) (d : Byte) : (portRegisters p d s).events = s.events := by
  unfold portRegisters; dsimp only; split_ifs <;> rfl
@[simp] theorem portRegisters_marks (p : Addr) (d : Byte) : (portRegisters p d s).marks = s.marks := by
  unfold portRegisters; dsimp only; split_ifs <;> rfl
@[simp] theorem portRegisters_tlimEn (p : Addr) (d : Byte) : (portRegisters p d s).tlimEn = s.tlimEn := by
  unfold portRegisters; dsimp only; split_ifs <;> rfl
@[simp] theorem portRegisters_tlim (p : Addr) (d : Byte) : (portRegisters p d s).tlim = s.tlim := by
  unfold portRegisters; dsimp only; split_ifs <;> rfl
@[simp] theorem portRegisters_flimEn (p : Addr) (d : Byte) : (portRegisters p d s).flimEn = s.flimEn := by
  unfold portRegisters; dsimp only; split_ifs <;> rfl
@[simp] theorem portRegisters_flim (p : Addr) (d : Byte) : (portRegisters p d s).flim = s.flim := by
  unfold portRegisters; dsimp only; split_ifs <;> rfl
@[simp] theorem portRegisters_fetchCount (p : Addr) (d : Byte) : (portRegisters p d s).fetchCount = s.fetchCount := by
  unfold portRegisters; dsimp only; split_ifs <;> rfl
@[simp] theorem portRegisters_intSuppress (p : Addr) (d : Byte) : (portRegisters p d s).intSuppress = s.intSuppress := by
  unfold portRegisters; dsimp only; split_ifs <;> rfl
@[simp] theorem portRegisters_intLine (p : Addr) (d : Byte) : (portRegisters p d s).intLine = s.intLine := by
  unfold portRegisters; dsimp only; split_ifs <;> rfl
@[simp] theorem portRegisters_portOvr (p : Addr) (d : Byte) : (portRegisters p d s).portOvr = s.portOvr := by
  unfold portRegisters; dsimp only; split_ifs <;> rfl
@[simp] theorem portRegisters_phase (p : Addr) (d : Byte) : (portRegisters p d s).phase = s.phase := by
  unfold portRegisters; dsimp only; split_ifs <;> rfl
@[simp] theorem portRegisters_faults (p : Addr) (d : Byte) : (portRegisters p d s).faults = s.faults := by
  unfold portRegisters; dsimp only; split_ifs <;> rfl
@[simp] theorem portRegisters_response (p : Addr) (d : Byte) : (portRegisters p d s).response = s.response := by
  unfold portRegisters; dsimp only; split_ifs <;> rfl
@[simp] theorem portRegisters_signals (p : Addr) (d : Byte) : (portRegisters p d s).signals = s.signals := by
  unfold portRegisters; dsimp only; split_ifs <;> rfl
@[simp] theorem portRegisters_freeCount (p : Addr) (d : Byte) : (portRegisters p d s).freeCount = s.freeCount := by
  unfold portRegisters; dsimp only; split_ifs <;> rfl

/-! ### catchUpForOut (R146, R148) -/

@[simp] theorem catchUpForOut_cfg (p : Addr) : (catchUpForOut p s).cfg = s.cfg := by
  unfold catchUpForOut; split <;> rfl
@[simp] theorem catchUpForOut_pending (p : Addr) : (catchUpForOut p s).pending = s.pending := by
  unfold catchUpForOut; split <;> rfl
@[simp] theorem catchUpForOut_ram (p : Addr) : (catchUpForOut p s).ram = s.ram := by
  unfold catchUpForOut; split <;> rfl
@[simp] theorem catchUpForOut_slots (p : Addr) : (catchUpForOut p s).slots = s.slots := by
  unfold catchUpForOut; split <;> rfl
@[simp] theorem catchUpForOut_bank (p : Addr) : (catchUpForOut p s).bank = s.bank := by
  unfold catchUpForOut; split <;> rfl
@[simp] theorem catchUpForOut_locked (p : Addr) : (catchUpForOut p s).locked = s.locked := by
  unfold catchUpForOut; split <;> rfl
@[simp] theorem catchUpForOut_overlay (p : Addr) : (catchUpForOut p s).overlay = s.overlay := by
  unfold catchUpForOut; split <;> rfl
@[simp] theorem catchUpForOut_tick (p : Addr) : (catchUpForOut p s).tick = s.tick := by
  unfold catchUpForOut; split <;> rfl
@[simp] theorem catchUpForOut_border (p : Addr) : (catchUpForOut p s).border = s.border := by
  unfold catchUpForOut; split <;> rfl
@[simp] theorem catchUpForOut_flashMask (p : Addr) : (catchUpForOut p s).flashMask = s.flashMask := by
  unfold catchUpForOut; split <;> rfl
@[simp] theorem catchUpForOut_frameCtr (p : Addr) : (catchUpForOut p s).frameCtr = s.frameCtr := by
  unfold catchUpForOut; split <;> rfl
@[simp] theorem catchUpForOut_events (p : Addr) : (catchUpForOut p s).events = s.events := by
  unfold catchUpForOut; split <;> rfl
@[simp] theorem catchUpForOut_marks (p : Addr) : (catchUpForOut p s).marks = s.marks := by
  unfold catchUpForOut; split <;> rfl
@[simp] theorem catchUpForOut_tlimEn (p : Addr) : (catchUpForOut p s).tlimEn = s.tlimEn := by
  unfold catchUpForOut; split <;> rfl
@[simp] theorem catchUpForOut_tlim (p : Addr) : (catchUpForOut p s).tlim = s.tlim := by
  unfold catchUpForOut; split <;> rfl
@[simp] theorem catchUpForOut_flimEn (p : Addr) : (catchUpForOut p s).flimEn = s.flimEn := by
  unfold catchUpForOut; split <;> rfl
@[simp] theorem catchUpForOut_flim (p : Addr) : (catchUpForOut p s).flim = s.flim := by
  unfold catchUpForOut; split <;> rfl
@[simp] theorem catchUpForOut_fetchCount (p : Addr) : (catchUpForOut p s).fetchCount = s.fetchCount := by
  unfold catchUpForOut; split <;> rfl
@[simp] theorem catchUpForOut_intSuppress (p : Addr) : (catchUpForOut p s).intSuppress = s.intSuppress := by
  unfold catchUpForOut; split <;> rfl
@[simp] theorem catchUpForOut_intLine (p : Addr) : (catchUpForOut p s).intLine = s.intLine := by
  unfold catchUpForOut; split <;> rfl
@[simp] theorem catchUpForOut_portOvr (p : Addr) : (catchUpForOut p s).portOvr = s.portOvr := by
  unfold catchUpForOut; split <;> rfl
@[simp] theorem catchUpForOut_phase (p : Addr) : (catchUpForOut p s).phase = s.phase := by
  unfold catchUpForOut; split <;> rfl
@[simp] theorem catchUpForOut_faults (p : Addr) : (catchUpForOut p s).faults = s.faults := by
  unfold catchUpForOut; split <;> rfl
@[simp] theorem catchUpForOut_response (p : Addr) : (catchUpForOut p s).response = s.response := by
  unfold catchUpForOut; split <;> rfl
@[simp] theorem catchUpForOut_signals (p : Addr) : (catchUpForOut p s).signals = s.signals := by
  unfold catchUpForOut; split <;> rfl

/-! ### setBankRegister (R148) -/

@[simp] theorem setBankRegister_cfg (v : Byte) : (setBankRegister v s).cfg = s.cfg := by
  unfold setBankRegister; split <;> rfl
@[simp] theorem setBankRegister_pending (v : Byte) : (setBankRegister v s).pending = s.pending := by
  unfold setBankRegister; split <;> rfl
@[simp] theorem setBankRegister_ram (v : Byte) : (setBankRegister v s).ram = s.ram := by
  unfold setBankRegister; split <;> rfl
@[simp] theorem setBankRegister_overlay (v : Byte) : (setBankRegister v s).overlay = s.overlay := by
  unfold setBankRegister; split <;> rfl
@[simp] theorem setBankRegister_tick (v : Byte) : (setBankRegister v s).tick = s.tick := by
  unfold setBankRegister; split <;> rfl
@[simp] theorem setBankRegister_border (v : Byte) : (setBankRegister v s).border = s.border := by
  unfold setBankRegister; split <;> rfl
@[simp] theorem setBankRegister_flashMask (v : Byte) : (setBankRegister v s).flashMask = s.flashMask := by
  unfold setBankRegister; split <;> rfl
@[simp] theorem setBankRegister_frameCtr (v : Byte) : (setBankRegister v s).frameCtr = s.frameCtr := by
  unfold setBankRegister; split <;> rfl
@[simp] theorem setBankRegister_events (v : Byte) : (setBankRegister v s).events = s.events := by
  unfold setBankRegister; split <;> rfl
@[simp] theorem setBankRegister_marks (v : Byte) : (setBankRegister v s).marks = s.marks := by
  unfold setBankRegister; split <;> rfl
@[simp] theorem setBankRegister_tlimEn (v : Byte) : (setBankRegister v s).tlimEn = s.tlimEn := by
  unfold setBankRegister; split <;> rfl
@[simp] theorem setBankRegister_tlim (v : Byte) : (setBankRegister v s).tlim = s.tlim := by
  unfold setBankRegister; split <;> rfl
@[simp] theorem setBankRegister_flimEn (v : Byte) : (setBankRegister v s).flimEn = s.flimEn := by
  unfold setBankRegister; split <;> rfl
@[simp] theorem setBankRegister_flim (v : Byte) : (setBankRegister v s).flim = s.flim := by
  unfold setBankRegister; split <;> rfl
@[simp] theorem setBankRegister_fetchCount (v : Byte) : (setBankRegister v s).fetchCount = s.fetchCount := by
  unfold setBankRegister; split <;> rfl
@[simp] theorem setBankRegister_intSuppress (v : Byte) : (setBankRegister v s).intSuppress = s.intSuppress := by
  unfold setBankRegister; split <;> rfl
@[simp] theorem setBankRegister_intLine (v : Byte) : (setBankRegister v s).intLine = s.intLine := by
  unfold setBankRegister; split <;> rfl
@[simp] theorem setBankRegister_portOvr (v : Byte) : (setBankRegister v s).portOvr = s.portOvr := by
  unfold setBankRegister; split <;> rfl
@[simp] theorem setBankRegister_phase (v : Byte) : (setBankRegister v s).phase = s.phase := by
  unfold setBankRegister; split <;> rfl
@[simp] theorem setBankRegister_faults (v : Byte) : (setBankRegister v s).faults = s.faults := by
  unfold setBankRegister; split <;> rfl
@[simp] theorem setBankRegister_response (v : Byte) : (setBankRegister v s).response = s.response := by
  unfold setBankRegister; split <;> rfl
@[simp] theorem setBankRegister_signals (v : Byte) : (setBankRegister v s).signals = s.signals := by
  unfold setBankRegister; split <;> rfl

/-! ### schedulerAfterStep (R217) -/

/-- R212, in numbers. -/
theorem intLevel_eq (s : State) :
    intLevel s = (!s.intSuppress && decide (1 ≤ s.tick.toNat ∧ s.tick.toNat ≤ s.cfg.intLen)) := by
  unfold intLevel
  rw [Bool.and_assoc, ← Bool.decide_and]
  congr 1
  apply decide_eq_decide.2
  omega

/-- The checks of a step touch the event mask only (R214, R215). -/
theorem checks_eq (pc : Addr) (s : State) :
    breakpointCheck pc (limitChecks s) = { s with events := (breakpointCheck pc (limitChecks s)).events } := rfl

/-- What a STEPEND can touch (R217). -/
theorem schedulerAfterStep_eq (pc : Addr) (s : State) :
    schedulerAfterStep pc s =
      { s with video := (schedulerAfterStep pc s).video, events := (schedulerAfterStep pc s).events,
               intLine := (schedulerAfterStep pc s).intLine, phase := (schedulerAfterStep pc s).phase,
               response := (schedulerAfterStep pc s).response, signals := (schedulerAfterStep pc s).signals,
               freeCount := (schedulerAfterStep pc s).freeCount } := by
  unfold schedulerAfterStep
  dsimp only
  rw [checks_eq pc s]
  generalize (breakpointCheck pc (limitChecks s)).events = ev
  unfold loopExit finishFrame
  split_ifs <;> rfl

/-! ### schedulerAfterStep, field by field -/

@[simp] theorem schedulerAfterStep_cfg (pc : Addr) : (schedulerAfterStep pc s).cfg = s.cfg := by
  rw [schedulerAfterStep_eq]
@[simp] theorem schedulerAfterStep_pending (pc : Addr) : (schedulerAfterStep pc s).pending = s.pending := by
  rw [schedulerAfterStep_eq]
@[simp] theorem schedulerAfterStep_ram (pc : Addr) : (schedulerAfterStep pc s).ram = s.ram := by
  rw [schedulerAfterStep_eq]
@[simp] theorem schedulerAfterStep_slots (pc : Addr) : (schedulerAfterStep pc s).slots = s.slots := by
  rw [schedulerAfterStep_eq]
@[simp] theorem schedulerAfterStep_bank (pc : Addr) : (schedulerAfterStep pc s).bank = s.bank := by
  rw [schedulerAfterStep_eq]
@[simp] theorem schedulerAfterStep_locked (pc : Addr) : (schedulerAfterStep pc s).locked = s.locked := by
  rw [schedulerAfterStep_eq]
@[simp] theorem schedulerAfterStep_overlay (pc : Addr) : (schedulerAfterStep pc s).overlay = s.overlay := by
  rw [schedulerAfterStep_eq]
@[simp] theorem schedulerAfterStep_tick (pc : Addr) : (schedulerAfterStep pc s).tick = s.tick := by
  rw [schedulerAfterStep_eq]
@[simp] theorem schedulerAfterStep_border (pc : Addr) : (schedulerAfterStep pc s).border = s.border := by
  rw [schedulerAfterStep_eq]
@[simp] theorem schedulerAfterStep_flashMask (pc : Addr) : (schedulerAfterStep pc s).flashMask = s.flashMask := by
  rw [schedulerAfterStep_eq]
@[simp] theorem schedulerAfterStep_frameCtr (pc : Addr) : (schedulerAfterStep pc s).frameCtr = s.frameCtr := by
  rw [schedulerAfterStep_eq]
@[simp] theorem schedulerAfterStep_marks (pc : Addr) : (schedulerAfterStep pc s).marks = s.marks := by
  rw [schedulerAfterStep_eq]
@[simp] theorem schedulerAfterStep_tlimEn (pc : Addr) : (schedulerAfterStep pc s).tlimEn = s.tlimEn := by
  rw [schedulerAfterStep_eq]
@[simp] theorem schedulerAfterStep_tlim (pc : Addr) : (schedulerAfterStep pc s).tlim = s.tlim := by
  rw [schedulerAfterStep_eq]
@[simp] theorem schedulerAfterStep_flimEn (pc : Addr) : (schedulerAfterStep pc s).flimEn = s.flimEn := by
  rw [schedulerAfterStep_eq]
@[simp] theorem schedulerAfterStep_flim (pc : Addr) : (schedulerAfterStep pc s).flim = s.flim := by
  rw [schedulerAfterStep_eq]
@[simp] theorem schedulerAfterStep_fetchCount (pc : Addr) : (schedulerAfterStep pc s).fetchCount = s.fetchCount := by
  rw [schedulerAfterStep_eq]
@[simp] theorem schedulerAfterStep_intSuppress (pc : Addr) : (schedulerAfterStep pc s).intSuppress = s.intSuppress := by
  rw [schedulerAfterStep_eq]
@[simp] theorem schedulerAfterStep_portOvr (pc : Addr) : (schedulerAfterStep pc s).portOvr = s.portOvr := by
  rw [schedulerAfterStep_eq]
@[simp] theorem schedulerAfterStep_faults (pc : Addr) : (schedulerAfterStep pc s).faults = s.faults := by
  rw [schedulerAfterStep_eq]

/-- How a STEPEND ends (R217): the loop exits in IDLE with the line low, or the next step is asked for. -/
theorem schedulerAfterStep_phase (pc : Addr) (s : State) :
    ((schedulerAfterStep pc s).phase = .idle ∧ (schedulerAfterStep pc s).intLine = false) ∨
      (schedulerAfterStep pc s).phase = .awaitStep := by
  unfold schedulerAfterStep
  dsimp only
  split
  · exact .inl ⟨rfl, rfl⟩
  · exact .inr rfl

/-- The event mask after a STEPEND keeps bits 7:5 clear (R47). -/
theorem schedulerAfterStep_high {pc : Addr} {s : State} (h : s.events &&& 0xE0#8 = 0) :
    (schedulerAfterStep pc s).events &&& 0xE0#8 = 0 := by
  have hc : (breakpointCheck pc (limitChecks s)).events &&& 0xE0#8 = 0 :=
    setEventIf_high (by decide) (setEventIf_high (by decide) (setEventIf_high (by decide) h))
  unfold schedulerAfterStep
  dsimp only
  split
  · unfold loopExit finishFrame
    dsimp only
    split
    · exact setEventIf_high (by decide) hc
    · exact hc
  · exact hc

end

end Sys2Proof.Machine
end

