-- ==== Sys2Proof/Laws/Port.lean ====
section
/-! SUPPORT. Port sequences (spec 40_bus.md R132, R133): a sequence is one advance of `tick` and one render. -/
namespace Sys2Proof.Machine

/-- The tick after some steps, without the 32-bit bound. -/
def endTicks (c : Config) (p : Addr) : List PortStep → Nat → Nat
  | [], t => t
  | st :: rest, t => endTicks c p rest (t + stepTicks c p t st)

theorem le_endTicks (c : Config) (p : Addr) (steps : List PortStep) (t : Nat) : t ≤ endTicks c p steps t := by
  induction steps generalizing t with
  | nil => exact Nat.le_refl t
  | cons st rest ih => exact Nat.le_trans (Nat.le_add_right _ _) (ih _)

/-- The four rows of R132. -/
theorem endTicks_portSteps (c : Config) (p : Addr) (t : Nat) :
    endTicks c p (portSteps p) t = portEnd c.contentionWait p t := by
  unfold portSteps portEnd
  by_cases h : 0x4000 ≤ p.toNat ∧ p.toNat ≤ 0x7FFF
  · have hc : inContended p = true := by simp [inContended, h]
    rw [if_pos h, hc]
    by_cases h0 : p.getLsbD 0 = true
    · rw [if_pos h0, h0]
      simp [endTicks, stepTicks, memWaitAt, hc]
    · have h0' : p.getLsbD 0 = false := by simpa using h0
      rw [if_neg h0, h0']
      simp [endTicks, stepTicks, memWaitAt, hc]
  · have hc : inContended p = false := by
      unfold inContended
      simp only [Bool.and_eq_false_iff, decide_eq_false_iff_not]
      omega
    rw [if_neg h, hc]
    cases p.getLsbD 0 <;> simp [endTicks, stepTicks, memWaitAt, hc]

/-- The increment of the first step past 2^32 - 1; 1 where there is none. -/
def overflowStep (c : Config) (p : Addr) : List PortStep → Nat → Nat
  | [], _ => 1
  | st :: rest, t =>
    if t + stepTicks c p t st < 2 ^ 32 then overflowStep c p rest (t + stepTicks c p t st) else stepTicks c p t st

/-- One round "C, 1" of a contended port. -/
theorem overflowStep_round {c : Config} {p : Addr} (hc : inContended p = true) (rest : List PortStep) (t : Nat) :
    overflowStep c p (.check :: .one :: rest) t =
      if 2 ^ 32 ≤ t + c.contentionWait t then c.contentionWait t
      else if 2 ^ 32 ≤ t + c.contentionWait t + 1 then 1
      else overflowStep c p rest (t + c.contentionWait t + 1) := by
  simp only [overflowStep, stepTicks, memWaitAt, hc, if_true]
  split_ifs <;> first | rfl | omega

/-- Single ticks overflow with an increment of 1. -/
theorem overflowStep_ones (c : Config) (p : Addr) (n t : Nat) : overflowStep c p (List.replicate n .one) t = 1 := by
  induction n generalizing t with
  | zero => rfl
  | succ n ih =>
    simp only [List.replicate_succ, overflowStep, stepTicks, ih]
    split <;> rfl

/-- The increment at which each row of R132 overflows. -/
theorem overflowStep_portSteps (c : Config) (p : Addr) (t : Nat) :
    overflowStep c p (portSteps p) t = portOverflow c.contentionWait p t := by
  unfold portSteps portOverflow
  have ones := overflowStep_ones c p
  by_cases h : 0x4000 ≤ p.toNat ∧ p.toNat ≤ 0x7FFF
  · have hc : inContended p = true := by simp [inContended, h]
    rw [if_pos h, hc]
    cases p.getLsbD 0 with
    | false =>
      have h2 : ∀ u, overflowStep c p [.one, .one] u = 1 := ones 2
      simp only [overflowStep_round hc, if_false, Bool.false_eq_true, roundOverflow, h2]
    | true =>
      have h0 : ∀ u, overflowStep c p [] u = 1 := ones 0
      simp only [overflowStep_round hc, if_true, roundOverflow, h0]
  · have hc : inContended p = false := by
      unfold inContended
      simp only [Bool.and_eq_false_iff, decide_eq_false_iff_not]
      omega
    rw [if_neg h, hc]
    cases p.getLsbD 0 with
    | true => exact ones 4 t
    | false =>
      have h3 : ∀ u, overflowStep c p [.one, .one, .one] u = 1 := ones 3
      have hk : ∀ u, u < 2 ^ 32 → overflowStep c p [.check, .one, .one, .one] u = 1 := by
        intro u hu
        have e : stepTicks c p u .check = 0 := by simp [stepTicks, memWaitAt, hc]
        rw [overflowStep, e, if_pos (by omega)]
        exact h3 _
      change (if t + 1 < 2 ^ 32 then overflowStep c p [.check, .one, .one, .one] (t + 1) else 1) = 1
      split
      · exact hk _ ‹_›
      · rfl

/-- A sequence past 2^32 - 1 is a tick overflow with the increment of its first step past it; any other one has its
list of ticks. -/
theorem portTicks_cases (c : Config) (p : Addr) (steps : List PortStep) (t : Nat) :
    (endTicks c p steps t < 2 ^ 32 ∧ ∃ ts, portTicks c p steps t = .ok ts) ∨ steps = [] ∨
    (2 ^ 32 ≤ endTicks c p steps t ∧ portTicks c p steps t = .error ⟨.tickOverflow, overflowStep c p steps t⟩) := by
  induction steps generalizing t with
  | nil => exact .inr (.inl rfl)
  | cons st rest ih =>
    simp only [endTicks, portTicks, overflowStep]
    have hle := le_endTicks c p rest (t + stepTicks c p t st)
    by_cases hb : t + stepTicks c p t st < 2 ^ 32
    · rw [if_pos hb, if_pos hb]
      obtain ⟨hlt, ts, hts⟩ | rfl | ⟨hge, hn⟩ := ih (t + stepTicks c p t st)
      · exact .inl ⟨hlt, _, by rw [hts]; rfl⟩
      · exact .inl ⟨by simpa [endTicks] using hb, [t + stepTicks c p t st], rfl⟩
      · exact .inr (.inr ⟨hge, by rw [hn]; rfl⟩)
    · rw [if_neg hb, if_neg hb]
      exact .inr (.inr ⟨by omega, rfl⟩)

/-- Rendering after each step is rendering once at the end (R133, R182). -/
theorem foldl_portStepTo {c : Config} {p : Addr} {steps : List PortStep} {t : Nat} {ts : List Nat} {s : State}
    (ht : t < 2 ^ 32) (h : portTicks c p steps t = .ok ts) :
    ts.foldl portStepTo (renderTo t { s with tick := BitVec.ofNat 32 t }) =
      renderTo (endTicks c p steps t) { s with tick := BitVec.ofNat 32 (endTicks c p steps t) } := by
  induction steps generalizing t ts with
  | nil =>
    have : ts = [] := by simpa [portTicks] using h.symm
    subst this
    rfl
  | cons st rest ih =>
    simp only [portTicks] at h
    split at h
    · rename_i hb
      cases hr : portTicks c p rest (t + stepTicks c p t st) with
      | error f => rw [hr] at h; cases h
      | ok us =>
        rw [hr] at h
        have : ts = (t + stepTicks c p t st) :: us := (Except.ok.inj h).symm
        subst this
        simp only [List.foldl_cons, endTicks]
        have e : portStepTo (renderTo t { s with tick := BitVec.ofNat 32 t }) (t + stepTicks c p t st) =
            renderTo (t + stepTicks c p t st) { s with tick := BitVec.ofNat 32 (t + stepTicks c p t st) } :=
          renderTo_renderTo (s := { s with tick := BitVec.ofNat 32 (t + stepTicks c p t st) })
            (Nat.le_add_right _ _) ht
        rw [e]
        exact ih hb hr
    · cases h

/-- What a port sequence does (R133): it ends at the tick of R132 with one render to it, or overflows. -/
theorem portSeq_cases (p : Addr) (s : State) :
    (portEnd s.cfg.contentionWait p s.tick.toNat < 2 ^ 32 ∧
      portSeq p s = .ok (renderTo (portEnd s.cfg.contentionWait p s.tick.toNat)
        { s with tick := BitVec.ofNat 32 (portEnd s.cfg.contentionWait p s.tick.toNat) })) ∨
    (2 ^ 32 ≤ portEnd s.cfg.contentionWait p s.tick.toNat ∧
      portSeq p s = .error ⟨.tickOverflow, portOverflow s.cfg.contentionWait p s.tick.toNat⟩) := by
  rw [← endTicks_portSteps, ← overflowStep_portSteps]
  have hne : portSteps p ≠ [] := by
    unfold portSteps
    split <;> simp
  obtain ⟨hlt, ts, hts⟩ | hnil | ⟨hge, hn⟩ := portTicks_cases s.cfg p (portSteps p) s.tick.toNat
  · left
    refine ⟨hlt, ?_⟩
    unfold portSeq
    rw [hts]
    obtain ⟨st, rest, hs⟩ := List.exists_cons_of_ne_nil hne
    rw [hs] at hts hlt ⊢
    simp only [portTicks] at hts
    split at hts
    · rename_i hb
      cases hr : portTicks s.cfg p rest (s.tick.toNat + stepTicks s.cfg p s.tick.toNat st) with
      | error f => rw [hr] at hts; cases hts
      | ok us =>
        rw [hr] at hts
        have : ts = _ :: us := (Except.ok.inj hts).symm
        subst this
        exact congrArg Except.ok (foldl_portStepTo (s := s) hb hr)
    · cases hts
  · exact absurd hnil hne
  · right
    refine ⟨hge, ?_⟩
    unfold portSeq
    rw [hn]
    rfl

theorem le_portEnd (c : Config) (p : Addr) (t : Nat) : t ≤ portEnd c.contentionWait p t := by
  rw [← endTicks_portSteps]
  exact le_endTicks c p (portSteps p) t

/-- A port sequence that completes. -/
theorem portSeq_ok {p : Addr} {s u : State} (h : portSeq p s = .ok u) :
    ∃ e, e = portEnd s.cfg.contentionWait p s.tick.toNat ∧ e < 2 ^ 32 ∧ s.tick.toNat ≤ e ∧
      u = renderTo e { s with tick := BitVec.ofNat 32 e } := by
  obtain ⟨hlt, ho⟩ | ⟨_, he⟩ := portSeq_cases p s
  · rw [ho] at h
    exact ⟨_, rfl, hlt, le_portEnd _ _ _, (Except.ok.inj h).symm⟩
  · rw [he] at h
    cases h

end Sys2Proof.Machine
end

