-- ==== Sys2Proof/Laws/Bus.lean ====
section
/-! SUPPORT. The bus commands (spec 40_bus.md): the effect of each as one equation, and what a memory access reaches
through the address map (20_memory.md R73 to R77, R81). -/
namespace Sys2Proof.Machine

section
variable {s : State}

/-! ## Effects as equations -/

theorem fetchBody_eq {x : Addr} (h : s.tick.toNat + memWait s x < 2 ^ 32) :
    fetchBody x.toNat s = .ok (respond (.byte (memRead (overlayUpdate x s) x))
      (countFetch { overlayUpdate x s with tick := BitVec.ofNat 32 (s.tick.toNat + memWait s x) })) := by
  have ha : advanceTick (memWait (overlayUpdate x s) x) (overlayUpdate x s) =
      .ok { overlayUpdate x s with tick := BitVec.ofNat 32 (s.tick.toNat + memWait s x) } := if_pos h
  simp only [fetchBody, checkedAddr_toNat, Except.bind, ha]
  rfl

theorem fetchBody_overflow {x : Addr} (h : 2 ^ 32 ≤ s.tick.toNat + memWait s x) :
    fetchBody x.toNat s = .error ⟨.tickOverflow, memWait s x⟩ := by
  have ha : advanceTick (memWait (overlayUpdate x s) x) (overlayUpdate x s) = .error ⟨.tickOverflow, memWait s x⟩ :=
    if_neg (Nat.not_lt.mpr h)
  simp only [fetchBody, checkedAddr_toNat, Except.bind, ha]
  rfl

theorem readBody_eq {x : Addr} (h : s.tick.toNat + memWait s x < 2 ^ 32) :
    readBody x.toNat s =
      .ok (respond (.byte (memRead s x)) { s with tick := BitVec.ofNat 32 (s.tick.toNat + memWait s x) }) := by
  simp only [readBody, checkedAddr_toNat, Except.bind, advanceTick_ok h]
  rfl

theorem readBody_overflow {x : Addr} (h : 2 ^ 32 ≤ s.tick.toNat + memWait s x) :
    readBody x.toNat s = .error ⟨.tickOverflow, memWait s x⟩ := by
  simp only [readBody, checkedAddr_toNat, Except.bind, advanceTick_error h]
  rfl

theorem writeBody_eq {x : Addr} {d : Byte} (h : s.tick.toNat + memWait s x < 2 ^ 32) :
    writeBody x.toNat d s =
      .ok (memWrite x d (catchUpForWrite x { s with tick := BitVec.ofNat 32 (s.tick.toNat + memWait s x) })) := by
  simp only [writeBody, checkedAddr_toNat, Except.bind, advanceTick_ok h]
  rfl

theorem writeBody_overflow {x : Addr} {d : Byte} (h : 2 ^ 32 ≤ s.tick.toNat + memWait s x) :
    writeBody x.toNat d s = .error ⟨.tickOverflow, memWait s x⟩ := by
  simp only [writeBody, checkedAddr_toNat, Except.bind, advanceTick_error h]
  rfl

theorem inpBody_eq {x : Addr} (h : portEnd s.cfg.contentionWait x s.tick.toNat < 2 ^ 32) :
    inpBody x.toNat s = .ok (respond (.byte (portRead s x))
      (renderTo (portEnd s.cfg.contentionWait x s.tick.toNat)
        { s with tick := BitVec.ofNat 32 (portEnd s.cfg.contentionWait x s.tick.toNat) })) := by
  obtain ⟨_, ho⟩ | ⟨hge, _⟩ := portSeq_cases x s
  · simp only [inpBody, checkedAddr_toNat, Except.bind, ho]
    rfl
  · omega

theorem inpBody_overflow {x : Addr} (h : 2 ^ 32 ≤ portEnd s.cfg.contentionWait x s.tick.toNat) :
    inpBody x.toNat s = .error ⟨.tickOverflow, portOverflow s.cfg.contentionWait x s.tick.toNat⟩ := by
  obtain ⟨hlt, _⟩ | ⟨_, he⟩ := portSeq_cases x s
  · omega
  · simp only [inpBody, checkedAddr_toNat, Except.bind, he]
    rfl

theorem outBody_eq {x : Addr} {d : Byte} (h : portEnd s.cfg.contentionWait x s.tick.toNat < 2 ^ 32) :
    outBody x.toNat d s = .ok (portWrite x d
      (renderTo (portEnd s.cfg.contentionWait x s.tick.toNat)
        { s with tick := BitVec.ofNat 32 (portEnd s.cfg.contentionWait x s.tick.toNat) })) := by
  obtain ⟨_, ho⟩ | ⟨hge, _⟩ := portSeq_cases x s
  · simp only [outBody, checkedAddr_toNat, Except.bind, ho]
    rfl
  · omega

theorem outBody_overflow {x : Addr} {d : Byte} (h : 2 ^ 32 ≤ portEnd s.cfg.contentionWait x s.tick.toNat) :
    outBody x.toNat d s = .error ⟨.tickOverflow, portOverflow s.cfg.contentionWait x s.tick.toNat⟩ := by
  obtain ⟨hlt, _⟩ | ⟨_, he⟩ := portSeq_cases x s
  · omega
  · simp only [outBody, checkedAddr_toNat, Except.bind, he]
    rfl

/-! ## Through the address map -/

/-- Only the slot table decides what an address reaches. -/
theorem slotAt_congr {u : State} (h : u.slots = s.slots) (a : Addr) : slotAt u a = slotAt s a := by
  unfold slotAt
  rw [h]

theorem memRead_rom {a : Addr} {p : BitVec 2} (h : slotAt s a = .rom p) : memRead s a = s.cfg.romByte p (offOf a) := by
  simp [memRead, h]

theorem memRead_ram {a : Addr} {p : BitVec 3} (h : slotAt s a = .ram p) : memRead s a = ramByte s p (offOf a) := by
  simp [memRead, h]

/-- A WRITE into ROM leaves its advanced state as it is (R75). -/
theorem write_rom {a : Addr} {p : BitVec 2} {d : Byte} (h : slotAt s a = .rom p) :
    memWrite a d (catchUpForWrite a s) = s := by
  simp [memWrite, catchUpForWrite, h]

/-- A WRITE into RAM page p: a catch-up if it is the screen page, then the byte (R143). -/
theorem write_ram {a : Addr} {p : BitVec 3} {d : Byte} (h : slotAt s a = .ram p) :
    memWrite a d (catchUpForWrite a s) =
      setRamByte p (offOf a) d (if p = screenPage s.bank then renderTo (s.tick.toNat + 1) s else s) := by
  have hs : ∀ u : State, u.slots = s.slots → memWrite a d u = setRamByte p (offOf a) d u := by
    intro u hu
    simp [memWrite, slotAt_congr hu, h]
  unfold catchUpForWrite
  rw [h]
  by_cases hp : p = screenPage s.bank
  · rw [if_pos (congrArg SlotRef.ram hp), if_pos hp]
    exact hs _ rfl
  · rw [if_neg (fun hh => hp (SlotRef.ram.inj hh)), if_neg hp]
    exact hs _ rfl

/-- What memory reads after a write into RAM page p: the byte through every address that reaches it, else as before
(R74, R75). -/
theorem memRead_memWrite {a : Addr} {p : BitVec 3} {d : Byte} (h : slotAt s a = .ram p) (hm : s.ram.wf = true)
    (b : Addr) :
    memRead (memWrite a d s) b = if slotAt s b = .ram p ∧ offOf b = offOf a then d else memRead s b := by
  have hs : slotAt (memWrite a d s) b = slotAt s b := slotAt_congr (by rw [memWrite_slots]) b
  have hr : (memWrite a d s).ram = s.ram.setByte p (offOf a) d := by simp [memWrite, h, setRamByte]
  unfold memRead
  rw [hs]
  cases hb : slotAt s b with
  | rom q => simp
  | ram q =>
    simp only [ramByte, hr, Memory.byte_setByte hm, SlotRef.ram.injEq]

/-- The page an address at 0x4000 or above reaches (R73, R81). -/
theorem slotAt_ram (hs : s.slots = slotMap s.bank s.overlay) {a : Addr} (ha : 0x4000 ≤ a.toNat) :
    slotAt s a = .ram (if a.toNat < 0x8000 then 5 else if a.toNat < 0xC000 then 2 else bankRamsel s.bank) := by
  rw [slotAt_slotMap hs, if_neg (by omega)]
  split_ifs <;> rfl

/-- The page an address below 0x4000 reaches (R73). -/
theorem slotAt_rom (hs : s.slots = slotMap s.bank s.overlay) {a : Addr} (ha : a.toNat < 0x4000) :
    slotAt s a = .rom (if s.overlay then 2 else if bankRomsel s.bank then 1 else 0) := by
  rw [slotAt_slotMap hs, if_pos ha]

end

end Sys2Proof.Machine
end

