-- ==== Sys2Proof/Laws/Completes.lean ====
section
/-! SUPPORT. What a command does when its effect completes, said once for all 24 commands: the state it ends in.
Claims about every command go by cases on this relation. -/
namespace Sys2Proof.Machine

/-- `Completes i s t`: the effect of `i` takes `s` to `t`. -/
inductive Completes : Instr → State → State → Prop
  | fetch (x : Addr) (s : State) : s.tick.toNat + memWait s x < 2 ^ 32 →
      Completes (.fetch x.toNat) s (respond (.byte (memRead (overlayUpdate x s) x))
        (countFetch { overlayUpdate x s with tick := BitVec.ofNat 32 (s.tick.toNat + memWait s x) }))
  | read (x : Addr) (s : State) : s.tick.toNat + memWait s x < 2 ^ 32 →
      Completes (.read x.toNat) s
        (respond (.byte (memRead s x)) { s with tick := BitVec.ofNat 32 (s.tick.toNat + memWait s x) })
  | write (x : Addr) (d : Byte) (s : State) : s.tick.toNat + memWait s x < 2 ^ 32 →
      Completes (.write x.toNat d) s
        (memWrite x d (catchUpForWrite x { s with tick := BitVec.ofNat 32 (s.tick.toNat + memWait s x) }))
  | tick (n : BitVec 24) (s : State) : s.tick.toNat + n.toNat < 2 ^ 32 →
      Completes (.tick n) s { s with tick := BitVec.ofNat 32 (s.tick.toNat + n.toNat) }
  | inp (x : Addr) (e : Nat) (s : State) : e = portEnd s.cfg.contentionWait x s.tick.toNat → e < 2 ^ 32 →
      s.tick.toNat ≤ e → Completes (.inp x.toNat) s
        (respond (.byte (portRead s x)) (renderTo e { s with tick := BitVec.ofNat 32 e }))
  | out (x : Addr) (d : Byte) (e : Nat) (s : State) : e = portEnd s.cfg.contentionWait x s.tick.toNat → e < 2 ^ 32 →
      s.tick.toNat ≤ e → Completes (.out x.toNat d) s
        (portWrite x d (renderTo e { s with tick := BitVec.ofNat 32 e }))
  | stepend (x : Addr) (s : State) : Completes (.stepend x.toNat) s (schedulerAfterStep x s)
  | runNewFrame (s : State) : frameEnded s = true →
      Completes .run s (respond .running (beginIteration { startNewFrame s with events := 0 }))
  | run (s : State) : frameEnded s = false →
      Completes .run s (respond .running (beginIteration { s with events := 0 }))
  | stop (s : State) : Completes .stop s (setEventIf true evStop s)
  | reset (s : State) : Completes .reset s (cpuSignal .reset (cpuSignal (.int false) (resetState s)))
  | poke (x : Addr) (d : Byte) (s : State) :
      Completes (.poke x.toNat d) s (memWrite x d (renderTo s.tick.toNat s))
  | pokep (pg : BitVec 3) (off : BitVec 14) (d : Byte) (s : State) :
      Completes (.pokep pg off d) s (setRamByte pg off d (renderTo s.tick.toNat s))
  | setsp (v : BitVec 16) (s : State) : Completes (.setsp v) s (cpuSignal (.setSp v) s)
  | setpc (v : BitVec 16) (s : State) : Completes (.setpc v) s (cpuSignal (.setPc v) s)
  | portset (x : Addr) (v : Byte) (s : State) :
      Completes (.portset x.toNat v) s { s with portOvr := Table.set none s.portOvr x.toNat (some v) }
  | setmark (x : Addr) (f : BitVec 2) (s : State) :
      Completes (.setmark x.toNat f) s { s with marks := Table.set 0 s.marks x.toNat f }
  | tlimit (e : Bool) (v : BitVec 24) (s : State) : Completes (.tlimit e v) s { s with tlimEn := e, tlim := v }
  | flimit (e : Bool) (v : BitVec 24) (s : State) :
      Completes (.flimit e v) s { s with flimEn := e, flim := v, fetchCount := 0 }
  | intsup (e : Bool) (s : State) : Completes (.intsup e) s { s with intSuppress := e }
  | render (n : BitVec 24) (s : State) : Completes (.render n) s (renderTo n.toNat s)
  | newframe (s : State) : Completes .newframe s (startNewFrame s)
  | bank (v : Byte) (s : State) : Completes (.bank v) s (setBankRegister v s)
  | getframe (s : State) : Completes .getframe s (respond (.frame s.cfg.width s.cfg.height (frameImage s)) s)
  | getgeom (s : State) : Completes .getgeom s
      (respond (.geometry s.cfg.bw s.cfg.bt s.cfg.bb s.cfg.width s.cfg.height) s)

/-- An effect that completes is one of these. -/
theorem completes_of_bodyOf {i : Instr} {s t : State} (h : bodyOf i s = .ok t) : Completes i s t := by
  cases i with
  | fetch a => obtain ⟨x, rfl, hl, rfl⟩ := fetchBody_ok h; exact .fetch x s hl
  | read a => obtain ⟨x, rfl, hl, rfl⟩ := readBody_ok h; exact .read x s hl
  | write a d => obtain ⟨x, rfl, hl, rfl⟩ := writeBody_ok h; exact .write x d s hl
  | tick n => obtain ⟨hl, rfl⟩ := tickBody_ok h; exact .tick n s hl
  | inp p =>
    obtain ⟨x, u, rfl, hq, rfl⟩ := inpBody_ok h
    obtain ⟨e, he, hlt, hle, rfl⟩ := portSeq_ok hq
    exact .inp x e s he hlt hle
  | out p d =>
    obtain ⟨x, u, rfl, hq, rfl⟩ := outBody_ok h
    obtain ⟨e, he, hlt, hle, rfl⟩ := portSeq_ok hq
    exact .out x d e s he hlt hle
  | stepend pc => obtain ⟨x, rfl, rfl⟩ := checked_map_ok h; exact .stepend x s
  | poke a d => obtain ⟨x, rfl, rfl⟩ := checked_map_ok h; exact .poke x d s
  | portset p v => obtain ⟨x, rfl, rfl⟩ := checked_map_ok h; exact .portset x v s
  | setmark a f => obtain ⟨x, rfl, rfl⟩ := checked_map_ok h; exact .setmark x f s
  | run =>
    have h' : runBody s = .ok t := h
    unfold runBody at h'
    cases hf : frameEnded s with
    | true => rw [hf] at h'; cases Except.ok.inj h'; exact .runNewFrame s hf
    | false => rw [hf] at h'; cases Except.ok.inj h'; exact .run s hf
  | stop => cases Except.ok.inj h; exact .stop s
  | reset => cases Except.ok.inj h; exact .reset s
  | pokep pg off d => cases Except.ok.inj h; exact .pokep pg off d s
  | setsp v => cases Except.ok.inj h; exact .setsp v s
  | setpc v => cases Except.ok.inj h; exact .setpc v s
  | tlimit e v => cases Except.ok.inj h; exact .tlimit e v s
  | flimit e v => cases Except.ok.inj h; exact .flimit e v s
  | intsup e => cases Except.ok.inj h; exact .intsup e s
  | render n => cases Except.ok.inj h; exact .render n s
  | newframe => cases Except.ok.inj h; exact .newframe s
  | bank v => cases Except.ok.inj h; exact .bank v s
  | getframe => cases Except.ok.inj h; exact .getframe s
  | getgeom => cases Except.ok.inj h; exact .getgeom s

/-- The three ways a command ends, with what it does. -/
theorem exec_completes {i : Instr} {s t : State} (h : exec i s = .next t) :
    (∃ c, phaseRefusal (Admission.of i.mnemonic) s.phase = some c ∧
      t = { s with response := .refused c, signals := [] }) ∨
    (phaseRefusal (Admission.of i.mnemonic) s.phase = none ∧ Completes i (openCommand s) t) ∨
    (phaseRefusal (Admission.of i.mnemonic) s.phase = none ∧ ∃ f : FaultInfo,
      t = { s with faults := addFault ⟨f.code, f.info, encode i⟩ s.faults, response := .fault f.code f.info,
                   signals := [] }) := by
  obtain hr | ⟨hp, hb⟩ | ⟨hp, f, _, ht⟩ := exec_cases h
  · exact .inl hr
  · exact .inr (.inl ⟨hp, completes_of_bodyOf hb⟩)
  · exact .inr (.inr ⟨hp, f, ht⟩)

/-- What no effect touches: the configuration, the stream and the fault set (R55, R56, R282). -/
theorem Completes.keeps {i : Instr} {s t : State} (h : Completes i s t) :
    t.cfg = s.cfg ∧ t.pending = s.pending ∧ t.faults = s.faults := by
  cases h <;> try exact ⟨rfl, rfl, rfl⟩
  · simp
  · simp [portWrite]
  · simp
  · simp
  · simp

/-- A STEPEND answers the event mask, or nothing (R216, R217). -/
theorem schedulerAfterStep_response (pc : Addr) (s : State) :
    (schedulerAfterStep pc s).response = s.response ∨ ∃ m, (schedulerAfterStep pc s).response = .events m := by
  unfold schedulerAfterStep
  dsimp only
  rw [checks_eq pc s]
  split
  · exact .inr ⟨_, rfl⟩
  · exact .inl rfl

/-- An effect that completes answers no refusal and no fault (R280). -/
theorem Completes.answer {i : Instr} {s t : State} (h : Completes i s t) (hs : s.response = .none) :
    (∀ c, t.response ≠ .refused c) ∧ ∀ c n, t.response ≠ .fault c n := by
  have same : t.response = s.response → (∀ c, t.response ≠ .refused c) ∧ ∀ c n, t.response ≠ .fault c n := by
    intro h
    rw [h, hs]
    exact ⟨fun _ => by simp, fun _ _ => by simp⟩
  cases h with
  | fetch | read | inp | getframe | getgeom | run | runNewFrame => exact ⟨fun _ => by simp, fun _ _ => by simp⟩
  | stepend x =>
    obtain h | ⟨m, h⟩ := schedulerAfterStep_response x s
    · exact same h
    · rw [h]
      exact ⟨fun _ => by simp, fun _ _ => by simp⟩
  | write | poke | bank => exact same (by simp)
  | out => exact same (by simp [portWrite])
  | tick | stop | reset | pokep | setsp | setpc | portset | setmark | tlimit | flimit | intsup | render | newframe =>
    exact same rfl

/-- The two ways an effect faults (R281): a tick overflow, or the command's own address operand. -/
theorem bodyOf_error {i : Instr} {s : State} {f : FaultInfo} (h : bodyOf i s = .error f) :
    f.code = .tickOverflow ∨ ∃ a, i.address? = some a ∧ 0x10000 ≤ a ∧ f = ⟨.addrRange, a⟩ := by
  have ht : ∀ (n : Nat) (u : State) (g : FaultInfo), advanceTick n u = .error g → g.code = .tickOverflow := by
    intro n u g hg
    obtain ⟨_, ho⟩ | ⟨_, he⟩ := advanceTick_cases n u
    · rw [ho] at hg; cases hg
    · rw [he] at hg; cases hg; rfl
  have hq : ∀ (x : Addr) (u : State) (g : FaultInfo), portSeq x u = .error g → g.code = .tickOverflow := by
    intro x u g hg
    obtain ⟨_, ho⟩ | ⟨_, he⟩ := portSeq_cases x u
    · rw [ho] at hg; cases hg
    · rw [he] at hg; cases hg; rfl
  have hm : ∀ {α β : Type} {x : Except FaultInfo α} {k : α → β} {g : FaultInfo}, x.map k = .error g →
      x = .error g := by
    intro α β x k g hg
    cases x with
    | ok _ => cases hg
    | error e => cases hg; rfl
  have hb : ∀ {a : Nat} {k : Addr → Except FaultInfo State}, (checkedAddr a).bind k = .error f →
      (∃ x, k x = .error f) ∨ (0x10000 ≤ a ∧ f = ⟨.addrRange, a⟩) := by
    intro a k hk
    cases hc : checkedAddr a with
    | ok x => rw [hc] at hk; exact .inl ⟨x, hk⟩
    | error g =>
      rw [hc] at hk
      obtain ⟨hge, hg⟩ := checkedAddr_error hc
      cases hk
      exact .inr ⟨hge, hg⟩
  cases i with
  | fetch a =>
    obtain ⟨x, hx⟩ | ⟨hge, rfl⟩ := hb h
    · exact .inl (ht _ _ _ (hm hx))
    · exact .inr ⟨a, rfl, hge, rfl⟩
  | read a =>
    obtain ⟨x, hx⟩ | ⟨hge, rfl⟩ := hb h
    · exact .inl (ht _ _ _ (hm hx))
    · exact .inr ⟨a, rfl, hge, rfl⟩
  | write a d =>
    obtain ⟨x, hx⟩ | ⟨hge, rfl⟩ := hb h
    · exact .inl (ht _ _ _ (hm hx))
    · exact .inr ⟨a, rfl, hge, rfl⟩
  | tick n => exact .inl (ht _ _ _ h)
  | inp p =>
    obtain ⟨x, hx⟩ | ⟨hge, rfl⟩ := hb h
    · exact .inl (hq _ _ _ (hm hx))
    · exact .inr ⟨p, rfl, hge, rfl⟩
  | out p d =>
    obtain ⟨x, hx⟩ | ⟨hge, rfl⟩ := hb h
    · exact .inl (hq _ _ _ (hm hx))
    · exact .inr ⟨p, rfl, hge, rfl⟩
  | stepend a => exact .inr ⟨a, rfl, checkedAddr_error (hm h)⟩
  | poke a d => exact .inr ⟨a, rfl, checkedAddr_error (hm h)⟩
  | portset a v => exact .inr ⟨a, rfl, checkedAddr_error (hm h)⟩
  | setmark a v => exact .inr ⟨a, rfl, checkedAddr_error (hm h)⟩
  | run => cases h
  | stop => cases h
  | reset => cases h
  | pokep pg off d => cases h
  | setsp v => cases h
  | setpc v => cases h
  | tlimit e v => cases h
  | flimit e v => cases h
  | intsup e => cases h
  | render n => cases h
  | newframe => cases h
  | bank v => cases h
  | getframe => cases h
  | getgeom => cases h

/-- Rendering depends on the renderer's own elements and its inputs only (R182). -/
theorem renderTo_video_congr {s u : State} (h1 : u.video = s.video) (h2 : u.videoInputs = s.videoInputs)
    (h3 : u.freeCount = s.freeCount) (n : Nat) : (renderTo n u).video = (renderTo n s).video := by
  unfold renderTo cursorAfter
  rw [h1, h2, h3]

/-- Rendering to a target at or below the cursor. -/
theorem renderTo_zero (s : State) : renderTo 0 s = s := renderTo_of_le (Nat.zero_le _)

/-- A STEPEND renders to the end of the frame, or not at all (R216, R217). -/
theorem schedulerAfterStep_video (pc : Addr) (s : State) :
    (schedulerAfterStep pc s).video = s.video ∨
      (schedulerAfterStep pc s).video = (renderTo s.cfg.frameLen s).video := by
  unfold schedulerAfterStep
  dsimp only
  rw [checks_eq pc s]
  generalize (breakpointCheck pc (limitChecks s)).events = ev
  unfold loopExit finishFrame
  dsimp only
  split_ifs
  · exact .inr rfl
  · exact .inl rfl
  · exact .inl rfl

/-- What a command but RUN, NEWFRAME and RESET draws: a render to some target, which is at most one past the tick or
the frame length for every command but RENDER (R37, R180, R183). -/
theorem Completes.video {i : Instr} {s t : State} (h : Completes i s t) (h1 : i ≠ .run) (h2 : i ≠ .newframe)
    (h3 : i ≠ .reset) :
    ∃ n, t.video = (renderTo n s).video ∧
      ((∀ v, i = .render v → v.toNat ≤ max (t.tick.toNat + 1) s.cfg.frameLen) →
        n ≤ max (t.tick.toNat + 1) s.cfg.frameLen) := by
  have same : t.video = s.video → ∃ n, t.video = (renderTo n s).video ∧
      ((∀ v, i = .render v → v.toNat ≤ max (t.tick.toNat + 1) s.cfg.frameLen) →
        n ≤ max (t.tick.toNat + 1) s.cfg.frameLen) := fun h => ⟨0, by rw [renderTo_zero, h], fun _ => Nat.zero_le _⟩
  have small : ∀ e : Nat, e < 2 ^ 32 → (BitVec.ofNat 32 e).toNat = e := fun e he => by
    rw [BitVec.toNat_ofNat, Nat.mod_eq_of_lt he]
  cases h with
  | fetch x s hl => exact same rfl
  | read x s hl => exact same rfl
  | write x d s hl =>
    rw [memWrite_video, memWrite_tick, catchUpForWrite_tick]
    unfold catchUpForWrite
    split
    · exact ⟨_, renderTo_video_congr rfl rfl rfl _, fun _ => Nat.le_max_left _ _⟩
    · exact ⟨0, by rw [renderTo_zero], fun _ => Nat.zero_le _⟩
  | tick n s hl => exact same rfl
  | inp x e s he hl hle =>
    refine ⟨e, renderTo_video_congr rfl rfl rfl _, fun _ => ?_⟩
    exact Nat.le_trans (by change e ≤ (BitVec.ofNat 32 e).toNat + 1; rw [small e hl]; omega) (Nat.le_max_left _ _)
  | out x d e s he hl hle =>
    have ht : (portWrite x d (renderTo e { s with tick := BitVec.ofNat 32 e })).tick.toNat = e := by
      simp only [portWrite, portRegisters_tick, catchUpForOut_tick, renderTo_tick]
      exact small e hl
    rw [ht]
    unfold portWrite
    rw [portRegisters_video]
    unfold catchUpForOut
    split
    · refine ⟨e + 1, ?_, fun _ => Nat.le_max_left _ _⟩
      change (renderTo ((BitVec.ofNat 32 e).toNat + 1) _).video = _
      rw [small e hl, renderTo_renderTo (Nat.le_succ e) hl]
      exact renderTo_video_congr rfl rfl rfl _
    · refine ⟨e, renderTo_video_congr rfl rfl rfl _, fun _ => ?_⟩
      exact Nat.le_trans (Nat.le_succ e) (Nat.le_max_left _ _)
  | stepend x s =>
    obtain hv | hv := schedulerAfterStep_video x s
    · exact same hv
    · exact ⟨s.cfg.frameLen, hv, fun _ => Nat.le_max_right _ _⟩
  | run s | runNewFrame s => exact absurd rfl h1
  | stop s => exact same rfl
  | reset s => exact absurd rfl h3
  | poke x d s =>
    rw [memWrite_video, memWrite_tick]
    exact ⟨s.tick.toNat, rfl, fun _ => Nat.le_trans (Nat.le_succ _) (Nat.le_max_left _ _)⟩
  | pokep pg off d s => exact ⟨s.tick.toNat, rfl, fun _ => Nat.le_trans (Nat.le_succ _) (Nat.le_max_left _ _)⟩
  | setsp v s => exact same rfl
  | setpc v s => exact same rfl
  | portset x v s => exact same rfl
  | setmark x f s => exact same rfl
  | tlimit e v s => exact same rfl
  | flimit e v s => exact same rfl
  | intsup e s => exact same rfl
  | render n s => exact ⟨n.toNat, rfl, fun hh => hh n rfl⟩
  | newframe s => exact absurd rfl h2
  | bank v s =>
    unfold setBankRegister
    split
    · exact ⟨0, by rw [renderTo_zero], fun _ => Nat.zero_le _⟩
    · exact ⟨s.tick.toNat + 1, rfl, fun _ => Nat.le_max_left _ _⟩
  | getframe s => exact same rfl
  | getgeom s => exact same rfl

/-- Only a frame start or a RESET takes `tick` back (R36). -/
theorem Completes.tick_le {i : Instr} {s t : State} (h : Completes i s t) (h1 : i ≠ .run) (h2 : i ≠ .newframe)
    (h3 : i ≠ .reset) : s.tick.toNat ≤ t.tick.toNat := by
  have small : ∀ n : Nat, s.tick.toNat + n < 2 ^ 32 → s.tick.toNat ≤ (BitVec.ofNat 32 (s.tick.toNat + n)).toNat := by
    intro n hn
    rw [BitVec.toNat_ofNat]
    omega
  cases h with
  | fetch x s hl => exact small _ hl
  | read x s hl => exact small _ hl
  | write x d s hl =>
    rw [memWrite_tick, catchUpForWrite_tick]
    exact small _ hl
  | tick n s hl => exact small _ hl
  | inp x e s he hl hle =>
    change _ ≤ (BitVec.ofNat 32 e).toNat
    rw [BitVec.toNat_ofNat]
    omega
  | out x d e s he hl hle =>
    simp only [portWrite, portRegisters_tick, catchUpForOut_tick, renderTo_tick]
    rw [BitVec.toNat_ofNat]
    omega
  | run | runNewFrame => exact absurd rfl h1
  | newframe => exact absurd rfl h2
  | reset => exact absurd rfl h3
  | stepend | poke | bank => simp
  | stop | pokep | setsp | setpc | portset | setmark | tlimit | flimit | intsup | render | getframe | getgeom =>
    exact Nat.le_refl _

/-- One step of a run. -/
theorem core_run_succ {s u : State} {k : Nat} (h : step s = .next u) :
    Sys2Proof.core.run (k + 1) s = Sys2Proof.core.run k u := by
  have h' : Sys2Proof.core.step s = .next u := h
  simp only [Host.Core.run, h']

end Sys2Proof.Machine
end

