-- ==== Sys2Proof/Laws/Encoding.lean ====
section
/-! SUPPORT. The fields of the four formats (spec 30_encoding.md R101, R102), said once. -/
namespace Sys2Proof

section
variable (m : Mnemonic) (a : BitVec 16) (d : BitVec 8) (e : Bool) (v : BitVec 24) (pg : BitVec 3) (off : BitVec 14)

/-- An opcode selects its own row (R106). -/
@[simp] theorem Mnemonic.ofOpcode_opcode : Mnemonic.ofOpcode m.opcode = some m := by cases m <;> rfl

/-- A row is selected by its own opcode only. -/
theorem Mnemonic.opcode_of_ofOpcode {op : BitVec 5} (h : Mnemonic.ofOpcode op = some m) : op = m.opcode := by
  revert h
  revert op
  cases m <;> decide

@[simp] theorem fieldOp_formatA : fieldOp (formatA m a d) = m.opcode := by
  apply BitVec.eq_of_getLsbD_eq; intro i hi
  simp only [fieldOp, formatA, BitVec.getLsbD_extractLsb', BitVec.getLsbD_append]
  interval_cases i <;> simp

@[simp] theorem fieldOp_formatV : fieldOp (formatV m e v) = m.opcode := by
  apply BitVec.eq_of_getLsbD_eq; intro i hi
  simp only [fieldOp, formatV, BitVec.getLsbD_extractLsb', BitVec.getLsbD_append]
  interval_cases i <;> simp

@[simp] theorem fieldOp_formatP : fieldOp (formatP m pg off d) = m.opcode := by
  apply BitVec.eq_of_getLsbD_eq; intro i hi
  simp only [fieldOp, formatP, BitVec.getLsbD_extractLsb', BitVec.getLsbD_append]
  interval_cases i <;> simp

@[simp] theorem fieldOp_formatN : fieldOp (formatN m) = m.opcode := by
  apply BitVec.eq_of_getLsbD_eq; intro i hi
  simp only [fieldOp, formatN, BitVec.getLsbD_extractLsb', BitVec.getLsbD_append]
  interval_cases i <;> simp

@[simp] theorem fieldA_formatA : fieldA (formatA m a d) = a := by
  apply BitVec.eq_of_getLsbD_eq; intro i hi
  simp only [fieldA, formatA, BitVec.getLsbD_extractLsb', BitVec.getLsbD_append]
  interval_cases i <;> simp

@[simp] theorem fieldD_formatA : fieldD (formatA m a d) = d := by
  apply BitVec.eq_of_getLsbD_eq; intro i hi
  simp only [fieldD, formatA, BitVec.getLsbD_extractLsb', BitVec.getLsbD_append]
  interval_cases i <;> simp

@[simp] theorem fieldD_formatP : fieldD (formatP m pg off d) = d := by
  apply BitVec.eq_of_getLsbD_eq; intro i hi
  simp only [fieldD, formatP, BitVec.getLsbD_extractLsb', BitVec.getLsbD_append]
  interval_cases i <;> simp

@[simp] theorem fieldFlags_formatA (f : BitVec 2) : fieldFlags (formatA m a (f.setWidth 8)) = f := by
  apply BitVec.eq_of_getLsbD_eq; intro i hi
  simp only [fieldFlags, formatA, BitVec.getLsbD_extractLsb', BitVec.getLsbD_append]
  interval_cases i <;> simp

@[simp] theorem fieldV_formatV : fieldV (formatV m e v) = v := by
  apply BitVec.eq_of_getLsbD_eq; intro i hi
  simp only [fieldV, formatV, BitVec.getLsbD_extractLsb', BitVec.getLsbD_append]
  interval_cases i <;> simp

@[simp] theorem fieldE_formatV : fieldE (formatV m e v) = e := by
  cases e <;> simp only [fieldE, formatV, BitVec.getLsbD_append] <;> simp

@[simp] theorem fieldPg_formatP : fieldPg (formatP m pg off d) = pg := by
  apply BitVec.eq_of_getLsbD_eq; intro i hi
  simp only [fieldPg, formatP, BitVec.getLsbD_extractLsb', BitVec.getLsbD_append]
  interval_cases i <;> simp

@[simp] theorem fieldOff_formatP : fieldOff (formatP m pg off d) = off := by
  apply BitVec.eq_of_getLsbD_eq; intro i hi
  simp only [fieldOff, formatP, BitVec.getLsbD_extractLsb', BitVec.getLsbD_append]
  interval_cases i <;> simp

/-! The zero bits of the formats. -/

@[simp] theorem formatA_low_zero : formatA m a 0#8 &&& 0x070000FF#32 = 0#32 := by
  apply BitVec.eq_of_getLsbD_eq; intro i hi
  simp only [formatA, BitVec.getLsbD_and, BitVec.getLsbD_append]
  interval_cases i <;> simp

@[simp] theorem formatA_mid_zero : formatA m a d &&& 0x07000000#32 = 0#32 := by
  apply BitVec.eq_of_getLsbD_eq; intro i hi
  simp only [formatA, BitVec.getLsbD_and, BitVec.getLsbD_append]
  interval_cases i <;> simp

@[simp] theorem formatA_flags_zero (f : BitVec 2) : formatA m a (f.setWidth 8) &&& 0x070000FC#32 = 0#32 := by
  apply BitVec.eq_of_getLsbD_eq; intro i hi
  simp only [formatA, BitVec.getLsbD_and, BitVec.getLsbD_append]
  interval_cases i <;> simp

@[simp] theorem formatA_bank_zero : formatA m 0#16 d &&& 0x07FFFF00#32 = 0#32 := by
  apply BitVec.eq_of_getLsbD_eq; intro i hi
  simp only [formatA, BitVec.getLsbD_and, BitVec.getLsbD_append]
  interval_cases i <;> simp

@[simp] theorem formatV_zero : formatV m e v &&& 0x03000000#32 = 0#32 := by
  apply BitVec.eq_of_getLsbD_eq; intro i hi
  simp only [formatV, BitVec.getLsbD_and, BitVec.getLsbD_append]
  interval_cases i <;> simp

@[simp] theorem formatV_false_zero : formatV m false v &&& 0x07000000#32 = 0#32 := by
  apply BitVec.eq_of_getLsbD_eq; intro i hi
  simp only [formatV, BitVec.getLsbD_and, BitVec.getLsbD_append]
  interval_cases i <;> simp

@[simp] theorem formatV_switch_zero : formatV m e 0#24 &&& 0x03FFFFFF#32 = 0#32 := by
  apply BitVec.eq_of_getLsbD_eq; intro i hi
  simp only [formatV, BitVec.getLsbD_and, BitVec.getLsbD_append]
  interval_cases i <;> simp

@[simp] theorem formatP_zero : formatP m pg off d &&& 0x00000300#32 = 0#32 := by
  apply BitVec.eq_of_getLsbD_eq; intro i hi
  simp only [formatP, BitVec.getLsbD_and, BitVec.getLsbD_append]
  interval_cases i <;> simp

@[simp] theorem formatN_zero : formatN m &&& 0x07FFFFFF#32 = 0#32 := by
  apply BitVec.eq_of_getLsbD_eq; intro i hi
  simp only [formatN, BitVec.getLsbD_and, BitVec.getLsbD_append]
  interval_cases i <;> simp

end

/-- What an accepted word is (R120): its opcode is a row's, its must-be-zero bits are 0, and its fields are read. -/
theorem decode_ok_iff {w : Word} {i : Instr} :
    decode w = .ok i ↔ ∃ m : Mnemonic, fieldOp w = m.opcode ∧ w &&& m.zeroMask = 0 ∧ i = m.operands w := by
  unfold decode
  constructor
  · intro h
    split at h
    · cases h
    · rename_i m hm
      split at h
      · rename_i hz
        exact ⟨m, m.opcode_of_ofOpcode hm, hz, by simpa using h.symm⟩
      · cases h
  · rintro ⟨m, ho, hz, rfl⟩
    simp [ho, hz]

/-! ## Words from their fields -/

/-- A must-be-zero bit is 0. -/
theorem zero_bit {w mask : Word} (h : w &&& mask = 0) {b : Nat} (hm : mask.getLsbD b = true) :
    w.getLsbD b = false := by
  have := congrArg (·.getLsbD b) h
  simpa [hm] using this

/-- The opcode is the top five bits. -/
theorem op_bit {w : Word} {m : Mnemonic} (h : fieldOp w = m.opcode) {b : Nat} (hb : b < 5) :
    m.opcode.getLsbD b = w.getLsbD (27 + b) := by
  rw [← h]; simp [fieldOp, hb]

/-- A word with its zero bits 0 is its fields in their format. -/
theorem formatA_fields {w : Word} {m : Mnemonic} (ho : fieldOp w = m.opcode) (hz : w &&& 0x07000000#32 = 0) :
    formatA m (fieldA w) (fieldD w) = w := by
  have z := fun b => zero_bit (b := b) hz
  apply BitVec.eq_of_getLsbD_eq; intro b hb
  have h24 := z 24 (by decide); have h25 := z 25 (by decide); have h26 := z 26 (by decide)
  simp only [formatA, BitVec.getLsbD_append, fieldA, fieldD, BitVec.getLsbD_extractLsb']
  interval_cases b <;> simp [-BitVec.getLsbD_eq_getElem, op_bit ho, *]

theorem formatV_fields {w : Word} {m : Mnemonic} (ho : fieldOp w = m.opcode) (hz : w &&& 0x03000000#32 = 0) :
    formatV m (fieldE w) (fieldV w) = w := by
  have z := fun b => zero_bit (b := b) hz
  apply BitVec.eq_of_getLsbD_eq; intro b hb
  have h24 := z 24 (by decide); have h25 := z 25 (by decide)
  simp only [formatV, BitVec.getLsbD_append, fieldE, fieldV, BitVec.getLsbD_extractLsb', BitVec.getLsbD_ofBool]
  interval_cases b <;> simp [-BitVec.getLsbD_eq_getElem, op_bit ho, *]

theorem formatP_fields {w : Word} {m : Mnemonic} (ho : fieldOp w = m.opcode) (hz : w &&& 0x00000300#32 = 0) :
    formatP m (fieldPg w) (fieldOff w) (fieldD w) = w := by
  have z := fun b => zero_bit (b := b) hz
  apply BitVec.eq_of_getLsbD_eq; intro b hb
  have h24 := z 8 (by decide); have h25 := z 9 (by decide)
  simp only [formatP, BitVec.getLsbD_append, fieldPg, fieldOff, fieldD, BitVec.getLsbD_extractLsb']
  interval_cases b <;> simp [-BitVec.getLsbD_eq_getElem, op_bit ho, *]

theorem formatN_fields {w : Word} {m : Mnemonic} (ho : fieldOp w = m.opcode) (hz : w &&& 0x07FFFFFF#32 = 0) :
    formatN m = w := by
  have z := fun b => zero_bit (b := b) hz
  apply BitVec.eq_of_getLsbD_eq; intro b hb
  simp only [formatN, BitVec.getLsbD_append]
  by_cases h : b < 27
  · rw [z b]
    · simp [h]
    · interval_cases b <;> decide
  · obtain ⟨k, rfl⟩ : ∃ k, b = 27 + k := ⟨b - 27, by omega⟩
    simp [op_bit ho (show k < 5 by omega)]

/-- A narrower must-be-zero mask holds too. -/
theorem zero_of_mask {w big : Word} (h : w &&& big = 0) (small : Word) (hs : small &&& big = small) :
    w &&& small = 0 := by
  rw [← hs, BitVec.and_comm small, ← BitVec.and_assoc, h]
  simp

/-- A field of must-be-zero bits is 0. -/
theorem field_zero {w big : Word} (h : w &&& big = 0) {lo n : Nat}
    (hm : ∀ b, b < n → big.getLsbD (lo + b) = true) : w.extractLsb' lo n = 0#n := by
  apply BitVec.eq_of_getLsbD_eq; intro b hb
  simp [hb, zero_bit h (hm b hb)]

end Sys2Proof
end

