-- ==== Sys2Proof/Laws/PerInstr.lean ====
section
/-! SUPPORT. The per-instruction family EncodesRow: the word of a command has its row's opcode and zeros in its row's
must-be-zero bits (spec 30_encoding.md R106, R109). -/
namespace Sys2Proof.Laws.EncodesRow

/-- The word of a command selects the command's row and breaks no reserved field. -/
def Statement (i : Instr) : Prop :=
  fieldOp (encode i) = i.mnemonic.opcode ∧ encode i &&& i.mnemonic.zeroMask = 0

theorem fetch (a : Nat) : Statement (.fetch a) := ⟨fieldOp_formatA _ _ _, formatA_low_zero _ _⟩
theorem read (a : Nat) : Statement (.read a) := ⟨fieldOp_formatA _ _ _, formatA_low_zero _ _⟩
theorem write (a : Nat) (d : Byte) : Statement (.write a d) := ⟨fieldOp_formatA _ _ _, formatA_mid_zero _ _ _⟩
theorem tick (n : BitVec 24) : Statement (.tick n) := ⟨fieldOp_formatV _ _ _, formatV_false_zero _ _⟩
theorem inp (p : Nat) : Statement (.inp p) := ⟨fieldOp_formatA _ _ _, formatA_low_zero _ _⟩
theorem out (p : Nat) (d : Byte) : Statement (.out p d) := ⟨fieldOp_formatA _ _ _, formatA_mid_zero _ _ _⟩
theorem stepend (pc : Nat) : Statement (.stepend pc) := ⟨fieldOp_formatA _ _ _, formatA_low_zero _ _⟩
theorem run : Statement .run := ⟨fieldOp_formatN _, formatN_zero _⟩
theorem stop : Statement .stop := ⟨fieldOp_formatN _, formatN_zero _⟩
theorem reset : Statement .reset := ⟨fieldOp_formatN _, formatN_zero _⟩
theorem poke (a : Nat) (d : Byte) : Statement (.poke a d) := ⟨fieldOp_formatA _ _ _, formatA_mid_zero _ _ _⟩
theorem pokep (pg : BitVec 3) (off : BitVec 14) (d : Byte) : Statement (.pokep pg off d) := ⟨fieldOp_formatP _ _ _ _, formatP_zero _ _ _ _⟩
theorem setsp (v : BitVec 16) : Statement (.setsp v) := ⟨fieldOp_formatA _ _ _, formatA_low_zero _ _⟩
theorem setpc (v : BitVec 16) : Statement (.setpc v) := ⟨fieldOp_formatA _ _ _, formatA_low_zero _ _⟩
theorem portset (p : Nat) (v : Byte) : Statement (.portset p v) := ⟨fieldOp_formatA _ _ _, formatA_mid_zero _ _ _⟩
theorem setmark (a : Nat) (f : BitVec 2) : Statement (.setmark a f) := ⟨fieldOp_formatA _ _ _, formatA_flags_zero _ _ _⟩
theorem tlimit (e : Bool) (v : BitVec 24) : Statement (.tlimit e v) := ⟨fieldOp_formatV _ _ _, formatV_zero _ _ _⟩
theorem flimit (e : Bool) (v : BitVec 24) : Statement (.flimit e v) := ⟨fieldOp_formatV _ _ _, formatV_zero _ _ _⟩
theorem intsup (e : Bool) : Statement (.intsup e) := ⟨fieldOp_formatV _ _ _, formatV_switch_zero _ _⟩
theorem render (t : BitVec 24) : Statement (.render t) := ⟨fieldOp_formatV _ _ _, formatV_false_zero _ _⟩
theorem newframe : Statement .newframe := ⟨fieldOp_formatN _, formatN_zero _⟩
theorem bank (v : Byte) : Statement (.bank v) := ⟨fieldOp_formatA _ _ _, formatA_bank_zero _ _⟩
theorem getframe : Statement .getframe := ⟨fieldOp_formatN _, formatN_zero _⟩
theorem getgeom : Statement .getgeom := ⟨fieldOp_formatN _, formatN_zero _⟩

/-- Every command, from the constructors' lemmas. -/
theorem all (i : Instr) : Statement i := by
  cases i with
  | fetch a => exact fetch a
  | read a => exact read a
  | write a d => exact write a d
  | tick n => exact tick n
  | inp p => exact inp p
  | out p d => exact out p d
  | stepend pc => exact stepend pc
  | run => exact run
  | stop => exact stop
  | reset => exact reset
  | poke a d => exact poke a d
  | pokep pg off d => exact pokep pg off d
  | setsp v => exact setsp v
  | setpc v => exact setpc v
  | portset p v => exact portset p v
  | setmark a f => exact setmark a f
  | tlimit e v => exact tlimit e v
  | flimit e v => exact flimit e v
  | intsup e => exact intsup e
  | render t => exact render t
  | newframe => exact newframe
  | bank v => exact bank v
  | getframe => exact getframe
  | getgeom => exact getgeom

end Sys2Proof.Laws.EncodesRow
end

