-- ==== Sys2Proof/Tests/Slice0.lean ====
section
/-! SUPPORT. The model's own tests. Expected results are the words and vectors of spec/95_test_vectors.md (named V-… in
the docstrings) or hand calculation from the rule named; then one witness for every statement with hypotheses. -/
namespace Sys2Proof.Tests

open Sys2Proof.Machine

/-! ## Small states and readings -/

/-- The state after a command that answers a next state. -/
def after (r : Result) : Option State :=
  match r with
  | .next t => some t
  | .fault _ => none
  | .refused _ => none

/-- One word as the oldest request of a state, performed. -/
def stepWord (w : Word) (s : State) : Option State := after (step { s with pending := [.word w] })

/-- Right after construction (section 0). -/
def s0 : State := State.reset

/-- The same with CONTENTION_WAIT = `t -> 1` and `tick = 100` (sections 2.4 and E10). -/
def s1 : State := { State.reset with cfg := { Config.default with waitFill := 1, ok := by decide }, tick := 100 }

/-- A run in progress. -/
def running : State := { State.reset with phase := .awaitStep }

/-- The overflow vectors' start (section 2.10). -/
def late : State := { State.reset with tick := 0xFFFFFF00 }

/-- A screen cell's bytes, with the cursor at block 0 of screen line 0 (T0 = 17932, section 2.5). -/
def atBlock0 (pat attr : Byte) : State :=
  { State.reset with
    ram := Memory.setByte 5 0x1800 attr (Memory.setByte 5 0 pat [])
    video := { Video.reset Config.default with cursor := 17932 } }

/-! ## WellFormed: an ill-formed term for each of the nine address operands -/

theorem test_wf_fetch_refused : (Instr.fetch 0x10000).wellFormed = false := by decide
theorem test_wf_read_refused : (Instr.read 0x10000).wellFormed = false := by decide
theorem test_wf_write_refused : (Instr.write 0x10000 0).wellFormed = false := by decide
theorem test_wf_in_refused : (Instr.inp 0x10000).wellFormed = false := by decide
theorem test_wf_out_refused : (Instr.out 0x10000 0).wellFormed = false := by decide
theorem test_wf_stepend_refused : (Instr.stepend 0x10000).wellFormed = false := by decide
theorem test_wf_poke_refused : (Instr.poke 0x10000 0).wellFormed = false := by decide
theorem test_wf_portset_refused : (Instr.portset 0x10000 0).wellFormed = false := by decide
theorem test_wf_setmark_refused : (Instr.setmark 0x10000 0).wellFormed = false := by decide
theorem test_wf_accepts : (Instr.fetch 0xFFFF).wellFormed = true ∧ (Instr.tick 0xFFFFFF).wellFormed = true := by decide

/-! ## Decoding: the word of every command (section 2.1) -/

theorem test_decode_fetch : decode 0x08800000 = .ok (.fetch 0x8000) := by decide
theorem test_decode_read : decode 0x10C00000 = .ok (.read 0xC000) := by decide
theorem test_decode_write : decode 0x18400080 = .ok (.write 0x4000 0x80) := by decide
theorem test_decode_tick : decode 0x20000004 = .ok (.tick 4) := by decide
theorem test_decode_in : decode 0x2800FE00 = .ok (.inp 0x00FE) := by decide
theorem test_decode_out : decode 0x3000FE02 = .ok (.out 0x00FE 0x02) := by decide
theorem test_decode_stepend : decode 0x38800100 = .ok (.stepend 0x8001) := by decide
theorem test_decode_run : decode 0x40000000 = .ok .run := by decide
theorem test_decode_stop : decode 0x48000000 = .ok .stop := by decide
theorem test_decode_reset : decode 0x50000000 = .ok .reset := by decide
theorem test_decode_poke : decode 0x5880003E = .ok (.poke 0x8000 0x3E) := by decide
theorem test_decode_pokep : decode 0x67600047 = .ok (.pokep 7 0x1800 0x47) := by decide
theorem test_decode_setsp : decode 0x68FF0000 = .ok (.setsp 0xFF00) := by decide
theorem test_decode_setpc : decode 0x70800000 = .ok (.setpc 0x8000) := by decide
theorem test_decode_portset : decode 0x78BFFEFE = .ok (.portset 0xBFFE 0xFE) := by decide
theorem test_decode_setmark : decode 0x80800301 = .ok (.setmark 0x8003 1) := by decide
theorem test_decode_tlimit : decode 0x8C000064 = .ok (.tlimit true 100) := by decide
theorem test_decode_flimit : decode 0x94000003 = .ok (.flimit true 3) := by decide
theorem test_decode_intsup : decode 0x9C000000 = .ok (.intsup true) := by decide
theorem test_decode_render : decode 0xA0004614 = .ok (.render 17940) := by decide
theorem test_decode_newframe : decode 0xA8000000 = .ok .newframe := by decide
theorem test_decode_bank : decode 0xB0000013 = .ok (.bank 0x13) := by decide
theorem test_decode_getframe : decode 0xB8000000 = .ok .getframe := by decide
theorem test_decode_getgeom : decode 0xC0000000 = .ok .getgeom := by decide

/-- V-D1 to V-D3. -/
theorem test_decode_illegal : decode 0x00000000 = .error .illegalOpcode ∧ decode 0xC8000000 = .error .illegalOpcode ∧
    decode 0xF8000000 = .error .illegalOpcode := by decide

/-- V-D4 to V-D10. -/
theorem test_decode_reserved : decode 0x08000001 = .error .reservedField ∧ decode 0x0C000000 = .error .reservedField ∧
    decode 0x24000000 = .error .reservedField ∧ decode 0x98000001 = .error .reservedField ∧
    decode 0x40000001 = .error .reservedField ∧ decode 0xB0000100 = .error .reservedField ∧
    decode 0x80000004 = .error .reservedField := by decide

/-- POKEP's two zero bits, 9 and 8 (R101). -/
theorem test_decode_pokep_reserved : decode 0x60000100 = .error .reservedField ∧
    decode 0x60000200 = .error .reservedField := by decide

/-- The opcode table's own numbering: the low 32 bits. -/
theorem test_table_word : decodeTableWord 32 0xA0004614 = some (.render 17940) ∧ decodeTableWord 32 0 = none := by
  decide

/-- `withFetchWord` makes the next step run the word. -/
theorem test_with_fetch_word : (after (step (s0.withFetchWord 32 0x20000004))).map (·.tick) = some 4 := by decide

/-! ## Refusals in the other phase (V-D11, V-D12, V-D15, V-D18, V-D19) -/

theorem test_stepend_idle : (stepWord 0x38000000 s0).map (·.response) = some (.refused .notRunning) := by decide
theorem test_reset_busy : (stepWord 0x50000000 running).map (·.response) = some (.refused .busy) := by decide
theorem test_getgeom_busy : (stepWord 0xC0000000 running).map (·.response) = some (.refused .busy) := by decide
theorem test_illegal_before_phase : (stepWord 0x00000000 running).map (·.response) = some (.refused .illegalOpcode) := by
  decide
theorem test_reserved_before_phase : (stepWord 0x08000001 running).map (·.response) = some (.refused .reservedField) := by
  decide

/-! ## One or two steps per command -/

/-- V-O1. -/
theorem test_fetch_overlay : (stepWord 0x083D0000 s0).map (fun t => (t.response, t.overlay, t.slots.slot0, t.fetchCount)) =
    some (.byte 0xA2, true, .rom 2, 1) := by decide
/-- V-C1. -/
theorem test_fetch_contended : (stepWord 0x08400000 s1).map (fun t => (t.response, t.tick)) = some (.byte 0x00, 101) := by
  decide
/-- V-C3. -/
theorem test_read_contended : (stepWord 0x107FFF00 s1).map (·.tick) = some 101 := by decide
/-- V-O4: READ does not trigger the overlay; `BANK 0x10` maps ROM 1. -/
theorem test_read_rom1 :
    ((stepWord 0xB0000010 s0).bind (stepWord 0x103D0000)).map (fun t => (t.response, t.overlay)) =
      some (.byte 0xA1, false) := by decide
/-- E1 steps 1 and 2. -/
theorem test_write_read : ((stepWord 0x1881235A s0).bind (stepWord 0x10812300)).map (·.response) = some (.byte 0x5A) := by
  decide
/-- V-M4, first half: a write through slot 3 into the screen page catches up. -/
theorem test_write_screen : (stepWord 0x18400001 s0).map (fun t => (t.video.cursor, t.ram)) =
    some (1, [(0x14000, 0x01)]) := by decide
/-- V-X2. -/
theorem test_tick : (stepWord 0x200000FF late).map (fun t => (t.tick, t.response)) = some (0xFFFFFFFF, .none) := by decide
/-- V-X1. -/
theorem test_tick_overflow : (stepWord 0x20000100 late).map (fun t => (t.tick, t.response, t.faults)) =
    some (0xFFFFFF00, .fault .tickOverflow 0x100, [⟨.tickOverflow, 0x100, 0x20000100⟩]) := by decide
/-- E10, the fourth row. -/
theorem test_in_contended_odd : (stepWord 0x28400100 s1).map (fun t => (t.response, t.tick)) = some (.byte 0xFF, 108) := by
  decide
/-- V-X3. -/
theorem test_in_overflow : (stepWord 0x2800FE00 { s0 with tick := 0xFFFFFFFE }).map (fun t => (t.tick, t.response)) =
    some (0xFFFFFFFE, .fault .tickOverflow 1) := by decide
/-- V-M8. -/
theorem test_out_both : (stepWord 0x307FFC0B s0).map (fun t => (t.bank, t.border, t.tick, t.video.cursor)) =
    some (0x0B, 3, 4, 5) := by decide
/-- V-M9. -/
theorem test_out_neither : (stepWord 0x30BFFD03 s0).map (fun t => (t.bank, t.border, t.tick)) = some (0, 0, 4) := by decide
/-- V-M1. -/
theorem test_bank : (stepWord 0xB0000013 s0).map (fun t => (t.slots, t.locked, t.video.cursor)) =
    some (⟨.rom 1, .ram 5, .ram 2, .ram 3⟩, false, 1) := by decide
/-- E3: the locking write still applies, the next one does not. -/
theorem test_bank_lock : ((stepWord 0xB0000024 s0).bind (stepWord 0xB0000007)).map (fun t => (t.bank, t.slots.slot3)) =
    some (0x24, .ram 4) := by decide
/-- V-S11, last step: `events 0x01`, the line low, IDLE. -/
theorem test_stepend_exit : (stepWord 0x38800100 { running with events := 0x01, tick := 4 }).map
    (fun t => (t.response, t.phase, t.signals)) = some (.events 0x01, .idle, [.int false]) := by decide
/-- P3: a step that meets no event asks for the next one, here inside the interrupt window. -/
theorem test_stepend_continue : (stepWord 0x38800100 { running with tick := 4 }).map (fun t => (t.response, t.signals)) =
    some (.none, [.int true, .step]) := by decide
/-- V-S13: RUN at the end of a frame starts the next one. -/
theorem test_run_new_frame : (stepWord 0x40000000 { s0 with tick := 71684, events := 0x1A }).map
    (fun t => (t.tick, t.frameCtr, t.events, t.signals)) = some (4, 1, 0, [.int true, .step]) := by decide
/-- V-S2, the third case. -/
theorem test_run_after_window : (stepWord 0x40000000 { s0 with tick := 33 }).map (·.signals) =
    some [.int false, .step] := by decide
/-- V-D20. -/
theorem test_stop : (stepWord 0x48000000 running).map (fun t => (t.events, t.phase)) = some (0x01, .awaitStep) := by decide
/-- V-M11 and V-H8. -/
theorem test_reset : (stepWord 0x50000000 { s0 with bank := 0x27, locked := true, tick := 9, intSuppress := true }).map
    (fun t => (t.bank, t.locked, t.tick, t.intSuppress, t.signals)) =
    some (0, false, 0, true, [.int false, .reset]) := by decide
/-- V-H4: a POKE into ROM is dropped. -/
theorem test_poke_rom : (stepWord 0x58123499 s0).map (·.ram) = some [] := by decide
/-- V-M6: a POKE through slot 3. -/
theorem test_poke_slot3 : ((stepWord 0xB0000007 s0).bind (stepWord 0x58C00099)).map (·.ram) =
    some [(0x1C000, 0x99)] := by decide
/-- V-H3. -/
theorem test_pokep : (stepWord 0x67600047 s0).map (fun t => (ramByte t 7 0x1800, t.bank)) = some (0x47, 0) := by decide
/-- V-H6. -/
theorem test_setsp : (stepWord 0x68FF0000 s0).map (·.signals) = some [.setSp 0xFF00] := by decide
theorem test_setpc : (stepWord 0x70800000 s0).map (·.signals) = some [.setPc 0x8000] := by decide
/-- V-C10 and V-C11. -/
theorem test_portset : ((stepWord 0x7800FEBF s0).bind (stepWord 0x2800FE00)).map (·.response) = some (.byte 0xBF) := by
  decide
theorem test_portset_other : ((stepWord 0x7800FEBF s0).bind (stepWord 0x2801FE00)).map (·.response) =
    some (.byte 0xFF) := by decide
/-- V-S8: a breakpoint at the address of STEPEND. -/
theorem test_setmark : (stepWord 0x80800301 s0).map (fun t => (markAt t 0x8003, markAt t 0x8004)) = some (1, 0) := by decide
theorem test_setmark_hit : (stepWord 0x38800300 { running with tick := 12, marks := [(0x8003, 1)] }).map (·.response) =
    some (.events 0x08) := by decide
/-- V-S6: a tick limit of 0. -/
theorem test_tlimit : ((stepWord 0x8C000000 s0).bind (stepWord 0x40000000)).bind (stepWord 0x38000000) |>.map
    (·.response) |> (· = some (.events 0x02)) := by decide
/-- V-S5, the limit itself: three fetches reach it. -/
theorem test_flimit : (stepWord 0x38800300 { running with flimEn := true, flim := 3, fetchCount := 3, tick := 12 }).map
    (·.response) = some (.events 0x04) := by decide
theorem test_flimit_clears : (stepWord 0x94000003 { s0 with fetchCount := 7 }).map
    (fun t => (t.flimEn, t.flim, t.fetchCount)) = some (true, 3, 0) := by decide
/-- V-S9. -/
theorem test_intsup : ((stepWord 0x9C000000 { s0 with tick := 4 }).bind (stepWord 0x40000000)).map (·.signals) =
    some [.int false, .step] := by decide
/-- V-R1. -/
theorem test_render_block : (stepWord 0xA0004614 (atBlock0 0x80 0x32)).map (fun t => chunkAt t.video 48 4) =
    some 0x66666662 := by decide
/-- V-R5: bright, flash and the flash mask. -/
theorem test_render_flash : (stepWord 0xA0004614 { atBlock0 0x80 0xF2 with flashMask := true }).map
    (fun t => chunkAt t.video 48 4) = some 0xAAAAAAAE := by decide
/-- V-F1. -/
theorem test_newframe : (stepWord 0xA8000000 { s0 with tick := 71683, frameCtr := 15 }).map
    (fun t => (t.tick, t.video.cursor, t.frameCtr, t.flashMask)) = some (3, 0, 16, true) := by decide
/-- V-F4. -/
theorem test_newframe_wrap : (stepWord 0xA8000000 { s0 with frameCtr := 0xFFFFFFFF }).map
    (fun t => (t.frameCtr, t.flashMask)) = some (0, true) := by decide
/-- V-T1, V-T2, V-T3, V-T5 and V-T6: the words GETFRAME translates indices to. -/
theorem test_getframe_words : rgba Config.default 0 = 0xFF000000 ∧ rgba Config.default 8 = 0xFF000000 ∧
    rgba Config.default 2 = 0xFF0000C0 ∧ rgba Config.default 10 = 0xFF0000FF ∧ rgba Config.default 1 = 0xFFC00000 ∧
    rgba Config.default 15 = 0xFFFFFFFF := by decide
/-- V-D14. -/
theorem test_getframe_busy : (stepWord 0xB8000000 running).map (·.response) = some (.refused .busy) := by decide
/-- V-H1. -/
theorem test_getgeom : (stepWord 0xC0000000 s0).map (·.response) = some (.geometry 32 48 48 320 288) := by decide
/-- V-X5. -/
theorem test_wide_read : (after (step { s0 with pending := [.call (.read 0x10000)] })).map (·.response) =
    some (.fault .addrRange 0x10000) := by decide

/-! ## Text (R111, R118) -/

/-- "TLIMIT on, 0x64 ; limit". -/
theorem test_asm_line : assembleLine "TLIMIT on, 0x64 ; limit" = .ok [.tlimit true 100] := by decide
/-- V-H5's line. -/
theorem test_asm_loadbytes : assembleLine "LOADBYTES 0xFFFF, [0x11, 34]" = .ok [.poke 0xFFFF 0x11, .poke 0x0000 0x22] := by
  decide
/-- A list that ends in a comma is the list without it (log 14). -/
theorem test_asm_list_comma : assembleLine "LOADBYTES 0, [1,]" = .ok [.poke 0 1] := by decide
/-- An operand that does not fit. -/
theorem test_asm_too_large : assembleLine "SETMARK 0, 4" = .error .operandTooLarge := by decide

/-! ## Witnesses: for every statement with hypotheses, a state and operands that meet all of them -/

/-- A configuration with no border above or below and the image at tick 0, for the renderer's witnesses. -/
def tiny : Config :=
  { toRawConfig := { RawConfig.defaults ⟨0xA0, []⟩ ⟨0xA1, []⟩ ⟨0xA2, []⟩ ⟨0xA3, []⟩ with
      tpl := 140, lpf := 200, frameTickOffset := 0, bw := 8, bt := 0, bb := 0 }, ok := by decide }

/-- Construction with it, at a tick of the renderer. -/
def tinyAt (k : BitVec 32) : State :=
  { State.ofConfig tiny with video := { Video.reset tiny with cursor := k } }

theorem tinyAt_shaped (k : BitVec 32) : (tinyAt k).video.shaped (tinyAt k).cfg := Video.reset_shaped tiny

theorem witness_DecodeOfEncodeIsTheCommand : (Instr.setmark 0xFFFF 3).wellFormed = true := by decide

theorem witness_EncodeOfDecodeIsTheWord : decode 0x80FFFF03 = .ok (.setmark 0xFFFF 3) := by decide

/-- OP 0x00, and both ends of 0x19..0x1F. -/
theorem witness_UnassignedOpcodeRefused :
    (0x07FFFFFF#32).toNat / 2 ^ 27 = 0 ∧ 0x19 ≤ (0xC8000000#32).toNat / 2 ^ 27 ∧ 0x19 ≤ (0xFFFFFFFF#32).toNat / 2 ^ 27 ∧
    ({ s0 with pending := [.word 0xC8000000] } : State).pending = .word 0xC8000000 :: [] := by decide

theorem witness_ReservedFieldRefused : (0x60000100#32).toNat / 2 ^ 27 = Mnemonic.pokep.opcode.toNat ∧
    (0x60000100 : Word) &&& Mnemonic.pokep.zeroMask ≠ 0 ∧
    ({ s0 with pending := [.word 0x60000100] } : State).pending = .word 0x60000100 :: [] := by decide

theorem witness_StepPerformsTheOldestRequest : (s0.withFetchWord 32 0x20000004).pending = [.word 0x20000004] ∧
    decode 0x20000004 = .ok (.tick 4) ∧
    ({ s0 with pending := [.call (.read 0x10000)] } : State).pending = .call (.read 0x10000) :: [] := by decide

theorem witness_StepWithoutRequestHolds : s0.pending = [] := rfl

theorem witness_FaultRecordsStay :
    let s := { s0 with faults := [⟨.tickOverflow, 1, 0x2800FE00⟩], pending := [.word 0x50000000] }
    (⟨.tickOverflow, 1, 0x2800FE00⟩ : FaultRecord) ∈ s.faults ∧ ∃ t, step s = .next t :=
  ⟨by decide, exec_next .reset _⟩

/-- The first wide address, for a command of every phase, for STEPEND and for a command of IDLE. -/
theorem witness_WideAddressFaults : (Instr.fetch 0x10000).address? = some 0x10000 ∧
    (Instr.stepend 0x10000).address? = some 0x10000 ∧ running.phase = .awaitStep ∧
    (Instr.poke 0x10000 0).address? = some 0x10000 ∧ s0.phase = .idle := by decide

theorem witness_WordsRaiseNoAddressFault :
    let s := { s0 with faults := [⟨.addrRange, 0x10000, 0x10000000⟩], pending := [.word 0x20000004] }
    ∃ t, step s = .next t ∧ ∃ r ∈ t.faults, r.code = .addrRange :=
  ⟨_, rfl, ⟨.addrRange, 0x10000, 0x10000000⟩, by decide, rfl⟩

/-- A refused IDLE-only command, a refused STEPEND, and an admitted command. -/
theorem witness_PhaseAdmission : running.phase = .awaitStep ∧ Instr.run.mnemonic = .run ∧ s0.phase = .idle ∧
    (Instr.stepend 0).mnemonic = .stepend ∧ ∃ t, exec (.tick 0) s0 = .next t :=
  ⟨rfl, rfl, rfl, rfl, exec_next _ _⟩

/-- Both sides of the last tick, with a wait of 1 at both ends of the contended range and none outside it. -/
theorem witness_FetchResult :
    0xFFFFFFFE + (if 0x4000 ≤ (0x4000#16).toNat ∧ (0x4000#16).toNat ≤ 0x7FFF then s1.cfg.contentionWait 0xFFFFFFFE else 0) <
      2 ^ 32 ∧
    2 ^ 32 ≤
      0xFFFFFFFF + (if 0x4000 ≤ (0x7FFF#16).toNat ∧ (0x7FFF#16).toNat ≤ 0x7FFF then s1.cfg.contentionWait 0xFFFFFFFF else 0) ∧
    0xFFFFFFFF + (if 0x4000 ≤ (0x8000#16).toNat ∧ (0x8000#16).toNat ≤ 0x7FFF then s1.cfg.contentionWait 0xFFFFFFFF else 0) <
      2 ^ 32 := by decide

theorem witness_ReadResult : s1.slots = slotMap s1.bank s1.overlay ∧
    s1.tick.toNat + (if 0x4000 ≤ (0x4000#16).toNat ∧ (0x4000#16).toNat ≤ 0x7FFF then s1.cfg.contentionWait 100 else 0) < 2 ^ 32 ∧
    2 ^ 32 ≤ 0xFFFFFFFF + (if 0x4000 ≤ (0x7FFF#16).toNat ∧ (0x7FFF#16).toNat ≤ 0x7FFF then s1.cfg.contentionWait 0xFFFFFFFF else 0) := by
  decide

/-- The ROM clause at 0x3FFF, the RAM clause at 0x4000 and 0xFFFF, the overflow clause at the last tick. -/
theorem witness_WriteResult : s1.slots = slotMap s1.bank s1.overlay ∧ Memory.wf s1.ram = true ∧
    (0x3FFF#16).toNat < 0x4000 ∧ 0x4000 ≤ (0x4000#16).toNat ∧ 0x4000 ≤ (0xFFFF#16).toNat ∧
    s1.tick.toNat + (if 0x4000 ≤ (0x4000#16).toNat ∧ (0x4000#16).toNat ≤ 0x7FFF then s1.cfg.contentionWait 100 else 0) < 2 ^ 32 ∧
    2 ^ 32 ≤ 0xFFFFFFFF + (if 0x4000 ≤ (0x4000#16).toNat ∧ (0x4000#16).toNat ≤ 0x7FFF then s1.cfg.contentionWait 0xFFFFFFFF else 0) := by
  decide

/-- Both sides of the bound: 2^32 - 1 is reached, 2^32 is not. -/
theorem witness_TickResult : late.tick.toNat + (0xFF#24).toNat ≤ 2 ^ 32 - 1 ∧
    2 ^ 32 - 1 < late.tick.toNat + (0x100#24).toNat := by decide

/-- Every row of R132 inside the bound, and one past it. -/
theorem witness_InResult : portEnd s1.cfg.contentionWait 0x00FE 100 < 2 ^ 32 ∧
    portEnd s1.cfg.contentionWait 0x4000 100 < 2 ^ 32 ∧ portEnd s1.cfg.contentionWait 0x7FFF 100 < 2 ^ 32 ∧
    2 ^ 32 ≤ portEnd s1.cfg.contentionWait 0x8000 0xFFFFFFFC ∧
    portOverflow s1.cfg.contentionWait 0x8000 0xFFFFFFFC = 1 := by decide

theorem witness_OutResult : portEnd s1.cfg.contentionWait 0x7FFC 100 < 2 ^ 32 ∧
    portEnd s1.cfg.contentionWait 0x00FE 0xFFFFFFFB < 2 ^ 32 ∧ 2 ^ 32 ≤ portEnd s1.cfg.contentionWait 0x00FE 0xFFFFFFFC := by
  decide

theorem witness_BankResult : ({ s0 with locked := true } : State).locked = true ∧ s0.locked = false := by decide

/-- A target at the cursor, and one above it. -/
theorem witness_RenderResult : (17932#24).toNat ≤ (atBlock0 0 0).video.cursor.toNat ∧
    (atBlock0 0 0).video.cursor.toNat < (17933#24).toNat := by decide

/-- The left border of line 0, at its last position before the screen (p = 6); the first position after the screen
(p = 264); the last visible one (p = 270) and the first one that is not (p = 272). Below them the last tick before the
first line of the default geometry, and that first line's first tick. -/
theorem witness_BorderTickDrawsTwoPixels : (tinyAt 3).video.shaped (tinyAt 3).cfg ∧
    (4#24).toNat = (tinyAt 3).video.cursor.toNat + 1 ∧ atRaster tiny 3 0 6 ∧ atRaster tiny 132 0 264 ∧
    atRaster tiny 135 0 270 ∧ atRaster tiny 136 0 272 ∧ 270 < 2 * tiny.bw + 256 ∧ ¬ 272 < 2 * tiny.bw + 256 ∧
    ¬ (tiny.bw ≤ 6) ∧ ¬ (264 < tiny.bw + 256) ∧
    ((7167 : Nat) : Int) + Config.default.frameTickOffset < 0 ∧ atRaster Config.default 7168 0 0 :=
  ⟨tinyAt_shaped 3, by decide, by unfold atRaster; decide, by unfold atRaster; decide, by unfold atRaster; decide,
    by unfold atRaster; decide, by decide, by decide, by decide, by decide, by decide, by unfold atRaster; decide⟩

/-- The first screen tick of line 0 (p = bw) and the last one of line 191 (p = bw + 254). -/
theorem witness_ScreenTickDrawsTwoPixels :
    (tinyAt 4).video.shaped (tinyAt 4).cfg ∧ (5#24).toNat = (tinyAt 4).video.cursor.toNat + 1 ∧
    atRaster tiny 4 tiny.bt tiny.bw ∧ (tinyAt 26871).video.shaped (tinyAt 26871).cfg ∧
    (26872#24).toNat = (tinyAt 26871).video.cursor.toNat + 1 ∧ atRaster tiny 26871 (tiny.bt + 191) (tiny.bw + 254) :=
  ⟨tinyAt_shaped 4, by decide, by unfold atRaster; decide, tinyAt_shaped 26871, by decide, by unfold atRaster; decide⟩

/-- The first latch tick of line 0 (p = bw - 8), the first tick of its first block (p = bw, which copies and latches),
the last latch tick (p = bw + 246), and a tick below the offset. -/
theorem witness_OneTickOfTheLatches : (1#24).toNat = (tinyAt 0).video.cursor.toNat + 1 ∧
    atRaster tiny 0 0 (tiny.bw - 8) ∧ atRaster tiny 4 0 tiny.bw ∧ atRaster tiny 127 0 (tiny.bw + 246) ∧
    (5#24).toNat = (tinyAt 4).video.cursor.toNat + 1 ∧ (128#24).toNat = (tinyAt 127).video.cursor.toNat + 1 ∧
    (1#24).toNat = s0.video.cursor.toNat + 1 ∧ (s0.video.cursor.toNat : Int) + s0.cfg.frameTickOffset < 0 :=
  ⟨by decide, by unfold atRaster; decide, by unfold atRaster; decide, by unfold atRaster; decide, by decide, by decide,
    by decide, by decide⟩

/-- The first block of the first line and the last block of the last line, for both values of `fetch_ff`. -/
theorem witness_BlockIsDrawnFromItsBytes :
    (tinyAt 0).video.shaped (tinyAt 0).cfg ∧ (tinyAt 0).video.fetchFf = false ∧
    (8#24).toNat = (tinyAt 0).video.cursor.toNat + 8 ∧
    atRaster tiny (tinyAt 0).video.cursor.toNat (tiny.bt + 0) (tiny.bw - 8 + 8 * 0) ∧
    (tinyAt 26864).video.shaped (tinyAt 26864).cfg ∧
    ({ (tinyAt 26864).video with fetchFf := true } : Video).shaped tiny ∧
    (26872#24).toNat = (tinyAt 26864).video.cursor.toNat + 8 ∧
    atRaster tiny (tinyAt 26864).video.cursor.toNat (tiny.bt + 191) (tiny.bw - 8 + 8 * 31) :=
  ⟨tinyAt_shaped 0, rfl, by decide, by unfold atRaster; decide, tinyAt_shaped 26864, tinyAt_shaped 26864, by decide,
    by unfold atRaster; decide⟩

/-- Writes to byte 0 of the screen page that land at ticks 1, 2 and 3 of the first block, where each of the two bytes
passes from drawn to not drawn. -/
theorem witness_WriteIsDrawnFromItsTick : ∀ W ∈ [(1 : BitVec 32), 2, 3],
    ((tinyAt 0).video.shaped (tinyAt 0).cfg ∧ (8#24).toNat = (tinyAt 0).video.cursor.toNat + 8) ∧
    atRaster tiny 0 (tiny.bt + 0) (tiny.bw - 8 + 8 * 0) ∧
    ∃ u, exec (.write 0x4000 0xFF) { tinyAt 0 with tick := W } = .next u ∧ u.tick.toNat < 2 ^ 32 - 1 ∧
      u.tick = W ∧ ∃ v, exec (.render 8) u = .next v := by
  intro W hW
  refine ⟨⟨tinyAt_shaped 0, by decide⟩, by unfold atRaster; decide, ?_⟩
  simp only [List.mem_cons, List.not_mem_nil, or_false] at hW
  rcases hW with rfl | rfl | rfl <;> exact ⟨_, rfl, by decide, by decide, exec_next _ _⟩

theorem witness_ScreenLayoutIsOneToOne : (191 < 192 ∧ 31 < 32) ∧ patternOff 191 31 = 0x17FF ∧ attrOff 191 31 = 0x1AFF := by
  decide

theorem witness_RenderingEarlyChangesNothing : (∃ u, exec (.render 8) (tinyAt 0) = .next u) ∧ (8#24).toNat ≤ (9#24).toNat ∧
    ∃ w, exec (.tick 1) (tinyAt 0) = .next w ∧ w.response = .none := ⟨exec_next _ _, by decide, _, rfl, rfl⟩

theorem witness_RenderedPixelsStay : Instr.render 9 ≠ .run ∧ Instr.render 9 ≠ .newframe ∧ Instr.render 9 ≠ .reset ∧
    (∃ u, exec (.render 9) (tinyAt 8) = .next u) ∧ 7 < (tinyAt 8).video.cursor.toNat ∧
    atRaster tiny 7 0 14 ∧ (15 = 14 ∨ 15 = 14 + 1) :=
  ⟨by decide, by decide, by decide, exec_next _ _, by decide, by unfold atRaster; decide, by decide⟩

theorem witness_RunResult : s0.phase = .idle := rfl

/-- The last tick of a frame, with both limits on and not reached. -/
theorem witness_StependContinues :
    let s := { running with tick := 71679, tlimEn := true, tlim := 71680, flimEn := true, flim := 1 }
    s.phase = .awaitStep ∧ s.events = 0 ∧ (s.tlimEn = true → s.tick.toNat < s.tlim.toNat) ∧
    (s.flimEn = true → s.fetchCount.toNat < s.flim.toNat) ∧ (markAt s 0xFFFF).getLsbD 0 = false ∧
    s.tick.toNat < s.cfg.tpl * s.cfg.lpf := by decide

/-- The end of a frame at its first tick; a limit at its value; a breakpoint; an event already set. -/
theorem witness_StependExits :
    running.phase = .awaitStep ∧ s0.cfg.tpl * s0.cfg.lpf ≤ (71680#32).toNat ∧ (100#24).toNat ≤ (100#32).toNat ∧
    (markAt { running with marks := [(0x9000, 1)] } 0x9000).getLsbD 0 = true ∧
    ({ running with events := 0x01 } : State).events ≠ 0 := by decide

theorem witness_StopEndsTheRun : running.phase = .awaitStep := rfl

theorem witness_StopWhileIdleIsLost : s0.phase = .idle ∧ ∃ u, exec .stop s0 = .next u := ⟨rfl, exec_next _ _⟩

theorem witness_SetmarkAndPortsetResult :
    let s := { s0 with marks := [(0x8003, 1)], portOvr := [(0xFE, some 0xBF)] }
    s.phase = .idle ∧ Table.wf (0 : BitVec 2) 0x10000 s.marks = true ∧
    Table.wf (none : Option Byte) 0x10000 s.portOvr = true := by decide

theorem witness_LimitAndSuppressResult : s0.phase = .idle := rfl

theorem witness_ResetResult : s0.phase = .idle := rfl

/-- The ROM clause at 0x3FFF, the RAM clause at 0x4000 and 0xFFFF. -/
theorem witness_PokeAndPokepResult : s0.phase = .idle ∧ s0.slots = slotMap s0.bank s0.overlay ∧ Memory.wf s0.ram = true ∧
    (0x3FFF#16).toNat < 0x4000 ∧ 0x4000 ≤ (0x4000#16).toNat ∧ 0x4000 ≤ (0xFFFF#16).toNat := by decide

theorem witness_SetspAndSetpcResult : s0.phase = .idle := rfl

theorem witness_GetgeomResult : s0.phase = .idle := rfl

theorem witness_GetframeResult : s0.phase = .idle ∧ 287 < s0.cfg.bt + 192 + s0.cfg.bb ∧ 319 < 2 * s0.cfg.bw + 256 := by
  decide

/-- The invariant holds in a concrete state, and the step from it answers. -/
theorem witness_StepKeepsTheInvariant :
    (State.ofConfig tiny).Inv ∧ ∃ t, step (State.ofConfig tiny) = .next t :=
  ⟨{ slots_eq := by decide, locked_eq := by decide, shaped := Video.reset_shaped tiny, events_high := by decide,
     idle_line := fun _ => rfl, faults_nodup := List.nodup_nil, ram_wf := rfl, marks_wf := rfl, ports_wf := rfl },
   _, rfl⟩

/-- A RENDER at the bound itself, and another command. -/
theorem witness_CursorStaysBounded : (tinyAt 8).CursorBounded ∧
    (∀ v, Instr.render 28000 = .render v → v.toNat ≤ max ((tinyAt 8).tick.toNat + 1) tiny.frameLen) ∧
    ∃ t, exec (.render 28000) (tinyAt 8) = .next t := by
  refine ⟨by unfold State.CursorBounded; decide, ?_, exec_next _ _⟩
  intro v h
  cases h
  decide

theorem witness_ConfigurationNeverChanges : ∃ t, step s0 = .next t := ⟨_, rfl⟩

theorem witness_LockIsOneWay : ({ s0 with locked := true } : State).locked = true ∧ Instr.bank 0 ≠ .reset ∧
    ∃ t, exec (.bank 0) { s0 with locked := true } = .next t := ⟨rfl, by decide, exec_next _ _⟩

theorem witness_EachElementHasItsWriters : ∃ t, exec (.tick 1) s0 = .next t ∧
    (Instr.tick 1).mnemonic ∉ [Mnemonic.write, .poke, .pokep, .reset] := ⟨_, rfl, by decide⟩

theorem witness_TickNeverDecreases : Instr.tick 1 ≠ .newframe ∧ Instr.tick 1 ≠ .run ∧ Instr.tick 1 ≠ .reset ∧
    ∃ t, exec (.tick 1) s0 = .next t := ⟨by decide, by decide, by decide, exec_next _ _⟩

theorem witness_WrittenByteReadsBack : s1.slots = slotMap s1.bank s1.overlay ∧ Memory.wf s1.ram = true ∧
    0x4000 ≤ (0x4000#16).toNat ∧ s1.tick.toNat + 2 ^ 25 < 2 ^ 32 := by decide

theorem witness_RomIsImmutable : s0.slots = slotMap s0.bank s0.overlay ∧ (∃ t, exec (.write 0x3FFF 0x55) s0 = .next t) ∧
    (0x3FFF#16).toNat < 0x4000 := ⟨rfl, exec_next _ _, by decide⟩

theorem witness_RomPageThreeIsNeverSeen : s0.slots = slotMap s0.bank s0.overlay ∧ ∃ t, exec (.read 0) s0 = .next t :=
  ⟨rfl, exec_next _ _⟩

/-- Marks that differ in a VISITED bit only. -/
theorem witness_VisitedBitIsNeverRead :
    (∀ n : Nat, (Table.get 0 [(5, (2 : BitVec 2))] n).getLsbD 0 = (Table.get 0 s0.marks n).getLsbD 0) ∧
    ∃ t, exec (.tick 1) s0 = .next t := by
  refine ⟨fun n => ?_, exec_next _ _⟩
  by_cases h : 5 = n
  · subst h
    decide
  · simp [Table.get, h, s0, State.reset, State.ofConfig]

/-- The defaults meet the constraints; a border of 4 does not (it is below 8), nor an LPF of 0. -/
theorem witness_ConstructionChecksTheConfiguration :
    (RawConfig.defaults ⟨0, []⟩ ⟨0, []⟩ ⟨0, []⟩ ⟨0, []⟩).valid = true ∧
    ({ RawConfig.defaults ⟨0, []⟩ ⟨0, []⟩ ⟨0, []⟩ ⟨0, []⟩ with bw := 4 } : RawConfig).valid = false ∧
    ({ RawConfig.defaults ⟨0, []⟩ ⟨0, []⟩ ⟨0, []⟩ ⟨0, []⟩ with lpf := 0 } : RawConfig).valid = false := by decide

theorem witness_AssembledCommandsAreWellFormed :
    assembleLine "NOPSTEP 0xFFFF" = .ok [.fetch 0xFFFF, .tick 4, .stepend 0] := by decide

/-- The largest operand of a field and the first that does not fit. -/
theorem witness_OperandsMustFitTheirFields : assemble "SETMARK" [.number 0xFFFF, .number 3] = .ok [.setmark 0xFFFF 3] ∧
    assemble "SETMARK" [.number 0xFFFF, .number 4] = .error .operandTooLarge ∧
    assemble "TICK" [.number 0x1000000] = .error .operandTooLarge := by decide

theorem witness_LineIsItsMnemonicAndOperands : "POKEP" ≠ "" ∧ (∀ ch ∈ "POKEP".toList, ch.isUpper = true) := by
  refine ⟨by decide, fun ch h => ?_⟩
  have h' : ch ∈ ['P', 'O', 'K', 'E', 'P'] := h
  simp only [List.mem_cons, List.not_mem_nil, or_false] at h'
  rcases h' with rfl | rfl | rfl | rfl | rfl <;> decide

theorem witness_PseudoCommandsExpand : ([(0x3E : Nat), 0x02][1]? = some 0x02 ∧ [(0x3E : Byte), 0x02][1]? = some 0x02) ∧
    (0xFFFF < 2 ^ 16 ∧ ∀ n ∈ [(0x11 : Nat), 0xFF], n < 2 ^ 8) ∧ (∃ n ∈ [(0x11 : Nat), 256], 2 ^ 8 ≤ n) ∧
    assemble "LOADBYTES" [.number 0xFFFF, .bytes [0x11, 0xFF]] = .ok [.poke 0xFFFF 0x11, .poke 0 0xFF] ∧
    assemble "LOADBYTES" [.number 0xFFFF, .bytes [0x11, 256]] = .error .operandTooLarge := by decide

/-- The list of a LOADPAGE line. -/
theorem witness_LoadPage : (7 < 8 ∧ 8 ≤ 8) ∧ (List.replicate 16384 (0xFF : Nat)).length = 16384 ∧
    ∀ n ∈ List.replicate 16384 (0xFF : Nat), n < 2 ^ 8 :=
  ⟨by decide, List.length_replicate, fun n hn => by rw [List.eq_of_mem_replicate hn]; omega⟩

end Sys2Proof.Tests
end

section
/-! The statements of 10_state.md: which command writes which element, what no step changes, the bounds of the cursor
and the tick, the invariant of the block, and the VISITED bits. -/
namespace Sys2Proof.Machine

/-! ## The writers of each element (R33 to R54) -/

/-- From `s` to `t` an element has changed only if `m` is in its list of writers; no row writes the stream (log 1). -/
structure WrittenBy (m : Mnemonic) (s t : State) : Prop where
  ram : m ∉ [Mnemonic.write, .poke, .pokep, .reset] → t.ram = s.ram
  bank : m ∉ [Mnemonic.out, .bank, .reset] → t.bank = s.bank ∧ t.locked = s.locked
  slots : m ∉ [Mnemonic.fetch, .out, .bank, .reset] → t.slots = s.slots
  video : m ∉ [Mnemonic.write, .inp, .out, .bank, .poke, .pokep, .render, .newframe, .run, .stepend, .reset] →
    t.video = s.video
  overlay : m ∉ [Mnemonic.fetch, .reset] → t.overlay = s.overlay
  border : m ∉ [Mnemonic.out, .reset] → t.border = s.border
  frame : m ∉ [Mnemonic.newframe, .run, .reset] → t.flashMask = s.flashMask ∧ t.frameCtr = s.frameCtr
  marks : m ∉ [Mnemonic.setmark, .reset] → t.marks = s.marks
  tickLimit : m ≠ .tlimit → t.tlimEn = s.tlimEn ∧ t.tlim = s.tlim
  fetchLimit : m ≠ .flimit → t.flimEn = s.flimEn ∧ t.flim = s.flim
  fetchCount : m ∉ [Mnemonic.fetch, .flimit, .reset] → t.fetchCount = s.fetchCount
  intSuppress : m ≠ .intsup → t.intSuppress = s.intSuppress
  portOvr : m ≠ .portset → t.portOvr = s.portOvr
  phase : m ∉ [Mnemonic.run, .stepend] → t.phase = s.phase
  events : m ∉ [Mnemonic.run, .stop, .stepend, .reset] → t.events = s.events
  intLine : m ∉ [Mnemonic.run, .stepend, .reset] → t.intLine = s.intLine
  tick : m ∉ [Mnemonic.fetch, .read, .write, .tick, .inp, .out, .newframe, .run, .reset] → t.tick = s.tick
  pending : t.pending = s.pending

/-- The answer, the signals and the fault set are no element with a list of writers. -/
theorem WrittenBy.of_outputs (m : Mnemonic) (s : State) (fs : List FaultRecord) (r : Response) (g : List CpuSignal) :
    WrittenBy m s { s with faults := fs, response := r, signals := g } := by
  constructor <;> simp

theorem WrittenBy.of_openCommand {m : Mnemonic} {s t : State} (w : WrittenBy m (openCommand s) t) : WrittenBy m s t :=
  ⟨w.ram, w.bank, w.slots, w.video, w.overlay, w.border, w.frame, w.marks, w.tickLimit, w.fetchLimit, w.fetchCount,
    w.intSuppress, w.portOvr, w.phase, w.events, w.intLine, w.tick, w.pending⟩

/-- Per command, either the command is in the element's list of writers or the field lemma of the command's operation says
that it stays. -/
theorem Completes.writtenBy {i : Instr} {s t : State} (h : Completes i s t) : WrittenBy i.mnemonic s t := by
  cases h with
  | out => constructor <;> simp [Instr.mnemonic, portWrite]
  | run | runNewFrame => constructor <;> simp [Instr.mnemonic, beginIteration]
  | fetch | read | write | tick | inp | stepend | stop | reset | poke | pokep | setsp | setpc | portset | setmark
  | tlimit | flimit | intsup | render | newframe | bank | getframe | getgeom => constructor <;> simp [Instr.mnemonic]

theorem exec_writtenBy {i : Instr} {s t : State} (h : exec i s = .next t) : WrittenBy i.mnemonic s t := by
  obtain ⟨c, -, rfl⟩ | ⟨-, hc⟩ | ⟨-, f, rfl⟩ := exec_completes h
  · exact .of_outputs ..
  · exact hc.writtenBy.of_openCommand
  · exact .of_outputs ..

/-- Settles O49: a refusal and a fault write outputs only, and an effect writes what its row lists. -/
theorem eachElementHasItsWriters : Obligations.EachElementHasItsWriters := by
  intro i s t h
  have w := exec_writtenBy h
  exact ⟨w.ram, w.bank, w.slots, w.video, w.overlay, w.border, w.frame, w.marks, w.tickLimit, w.fetchLimit,
    w.fetchCount, w.intSuppress, w.portOvr, w.phase, w.events, w.intLine, w.tick, w.pending⟩

/-! ## What no step changes (R55, R56) -/

theorem exec_keeps {i : Instr} {s t : State} (h : exec i s = .next t) : t.cfg = s.cfg ∧ s.faults ⊆ t.faults := by
  obtain ⟨c, -, rfl⟩ | ⟨-, hc⟩ | ⟨-, f, rfl⟩ := exec_completes h
  · exact ⟨rfl, List.Subset.refl _⟩
  · obtain ⟨hcfg, -, hf⟩ := hc.keeps
    exact ⟨hcfg, hf ▸ List.Subset.refl _⟩
  · exact ⟨rfl, fun r hr => mem_addFault.mpr (.inl hr)⟩

theorem step_keeps {s t : State} (h : step s = .next t) : t.cfg = s.cfg ∧ s.faults ⊆ t.faults := by
  obtain ⟨-, rfl⟩ | ⟨c, rest, rfl⟩ | ⟨i, rest, he⟩ := step_cases h
  · exact ⟨rfl, List.Subset.refl _⟩
  · exact ⟨rfl, List.Subset.refl _⟩
  · exact (exec_keeps he :)

/-- Settles O47: a step holds, refuses a word, or performs a command, and no command writes the configuration. -/
theorem configurationNeverChanges : Obligations.ConfigurationNeverChanges :=
  fun _ _ h => (step_keeps h).1

/-- Settles O9: a fault adds its record, and nothing else writes the fault set. -/
theorem faultRecordsStay : Obligations.FaultRecordsStay :=
  ⟨fun _ _ h _ hr => (step_keeps h).2 hr, fun _ => rfl⟩

/-! ## The lock (R39) -/

/-- An OUT leaves a locked bank register alone. -/
theorem portWrite_bank_of_locked {s : State} (h : s.locked = true) (p : Addr) (d : Byte) :
    (portWrite p d s).bank = s.bank ∧ (portWrite p d s).locked = s.locked := by
  have hb : ¬ (isBankPort p && !(catchUpForOut p s).locked) = true := by simp [h]
  unfold portWrite portRegisters
  rw [if_neg hb]
  split
  · exact ⟨catchUpForOut_bank p, catchUpForOut_locked p⟩
  · exact ⟨catchUpForOut_bank p, catchUpForOut_locked p⟩

theorem Completes.bank_of_locked {i : Instr} {s t : State} (h : Completes i s t) (hs : s.locked = true)
    (hr : i ≠ .reset) : t.bank = s.bank ∧ t.locked = s.locked := by
  have hw := h.writtenBy.bank
  cases h with
  | out x d e => exact portWrite_bank_of_locked (s := renderTo e { s with tick := BitVec.ofNat 32 e }) hs x d
  | bank v => simp [setBankRegister, hs]
  | reset => exact absurd rfl hr
  | _ => exact hw (by simp [Instr.mnemonic])

/-- Settles O48: of the three writers of the bank register, OUT and BANK do nothing to it while locked. -/
theorem lockIsOneWay : Obligations.LockIsOneWay := by
  intro i s t hs hr h
  obtain ⟨c, -, rfl⟩ | ⟨-, hc⟩ | ⟨-, f, rfl⟩ := exec_completes h
  · exact ⟨rfl, hs⟩
  · obtain ⟨hb, hl⟩ := hc.bank_of_locked hs hr
    exact ⟨hb, hl.trans hs⟩
  · exact ⟨rfl, hs⟩

/-! ## Tick and cursor (R36, R37) -/

/-- Settles O50: no effect but a frame start or a RESET takes `tick` back, and a refusal or a fault keeps it. -/
theorem tickNeverDecreases : Obligations.TickNeverDecreases := by
  intro i s t hn hr hx h
  obtain ⟨c, -, rfl⟩ | ⟨-, hc⟩ | ⟨-, f, rfl⟩ := exec_completes h
  · exact Nat.le_refl _
  · exact hc.tick_le hr hn hx
  · exact Nat.le_refl _

/-- A render to a target within the bound keeps the bound, which grows with the tick. -/
theorem State.CursorBounded.of_renderTo {s t : State} {n : Nat} (hs : s.CursorBounded)
    (hv : t.video = (renderTo n s).video) (hn : n ≤ max (t.tick.toNat + 1) s.cfg.frameLen)
    (ht : s.tick.toNat ≤ t.tick.toNat) (hc : t.cfg = s.cfg) : t.CursorBounded := by
  have hr := renderTo_cursor_le n s
  unfold State.CursorBounded at hs ⊢
  rw [hv, hc]
  omega

theorem Completes.cursorBounded {i : Instr} {s t : State} (h : Completes i s t) (hs : s.CursorBounded)
    (hv : ∀ v, i = .render v → v.toNat ≤ max (s.tick.toNat + 1) s.cfg.frameLen) : t.CursorBounded := by
  by_cases hr : i ≠ .run ∧ i ≠ .newframe ∧ i ≠ .reset
  · obtain ⟨h1, h2, h3⟩ := hr
    have ht := h.tick_le h1 h2 h3
    obtain ⟨n, hn, hle⟩ := h.video h1 h2 h3
    refine hs.of_renderTo hn (hle fun v hi => ?_) ht h.keeps.1
    have := hv v hi
    omega
  · cases h with
    | run => exact hs
    | runNewFrame | newframe | reset => exact Nat.zero_le _
    | _ => simp at hr

/-- Settles O46: a frame start and RESET put the cursor at 0, and every other effect is a render within the bound. -/
theorem cursorStaysBounded : Obligations.CursorStaysBounded := by
  intro i s t hs hv h
  obtain ⟨c, -, rfl⟩ | ⟨-, hc⟩ | ⟨-, f, rfl⟩ := exec_completes h
  · exact hs
  · exact hc.cursorBounded hs hv
  · exact hs

/-! ## The invariant, part by part -/

/-- R35 and R39: the slot map and the lock are those of the bank register and the overlay. -/
def State.Banked (s : State) : Prop := s.slots = slotMap s.bank s.overlay ∧ s.locked = bankLock s.bank

theorem bankLock_zero : bankLock 0 = false := by decide

theorem slotMap_zero : slotMap 0 false = SlotTable.reset := by decide

theorem overlayUpdate_banked {s : State} (h : s.Banked) (a : Addr) : (overlayUpdate a s).Banked := by
  obtain ⟨hs, hl⟩ := h
  refine ⟨?_, hl⟩
  rw [overlayUpdate_slots]
  split
  · rename_i ho
    rw [hs, ← ho]
    rfl
  · rfl

theorem portRegisters_banked {s : State} (h : s.Banked) (p : Addr) (d : Byte) : (portRegisters p d s).Banked := by
  unfold portRegisters
  dsimp only
  split_ifs
  · exact ⟨rfl, rfl⟩
  · exact ⟨rfl, rfl⟩
  · exact h
  · exact h

theorem setBankRegister_banked {s : State} (h : s.Banked) (v : Byte) : (setBankRegister v s).Banked := by
  unfold setBankRegister
  split
  · exact h
  · exact ⟨rfl, rfl⟩

theorem Completes.banked {i : Instr} {s t : State} (h : Completes i s t) (hs : s.Banked) : t.Banked := by
  cases h with
  | fetch x => exact overlayUpdate_banked hs x
  | out x d => exact portRegisters_banked (by simpa [State.Banked] using hs) x d
  | bank v => exact setBankRegister_banked hs v
  | reset => exact ⟨rfl, bankLock_zero.symm⟩
  | write | stepend | poke => simpa [State.Banked] using hs
  | _ => exact hs

/-- R44: a render keeps the shape of the chunk buffer, a frame start leaves the buffer, and RESET builds it anew. -/
theorem Completes.shaped {i : Instr} {s t : State} (h : Completes i s t) (hs : s.video.shaped s.cfg) :
    t.video.shaped t.cfg := by
  rw [h.keeps.1]
  by_cases hr : i ≠ .run ∧ i ≠ .newframe ∧ i ≠ .reset
  · obtain ⟨h1, h2, h3⟩ := hr
    obtain ⟨n, hv, -⟩ := h.video h1 h2 h3
    rw [hv]
    exact renderTo_shaped hs
  · cases h with
    | run | runNewFrame | newframe => exact hs
    | reset => exact Video.reset_shaped s.cfg
    | _ => simp at hr

/-- R47: the events are below bit 5. -/
theorem Completes.events_high {i : Instr} {s t : State} (h : Completes i s t) (hs : s.events &&& 0xE0#8 = 0) :
    t.events &&& 0xE0#8 = 0 := by
  have hw := h.writtenBy.events
  cases h with
  | run | runNewFrame | reset => exact BitVec.zero_and
  | stop => exact setEventIf_high (by decide) hs
  | stepend => exact schedulerAfterStep_high hs
  | _ =>
    rw [hw (by simp [Instr.mnemonic])]
    exact hs

/-- R52: a command that ends in IDLE with a new line level has put the line low. -/
theorem Completes.idle_line {i : Instr} {s t : State} (h : Completes i s t)
    (hs : s.phase = .idle → s.intLine = false) : t.phase = .idle → t.intLine = false := by
  have hp := h.writtenBy.phase
  have hl := h.writtenBy.intLine
  cases h with
  | run | runNewFrame => simp [beginIteration]
  | reset => exact fun _ => rfl
  | stepend x =>
    obtain ⟨-, hlow⟩ | hwait := schedulerAfterStep_phase x s
    · exact fun _ => hlow
    · simp [hwait]
  | _ =>
    rw [hp (by simp [Instr.mnemonic]), hl (by simp [Instr.mnemonic])]
    exact hs

theorem Completes.ram_wf {i : Instr} {s t : State} (h : Completes i s t) (hs : s.ram.wf = true) : t.ram.wf = true := by
  have hw := h.writtenBy.ram
  cases h with
  | write x d => exact memWrite_wf (by simpa using hs) x d
  | poke x d => exact memWrite_wf (by simpa using hs) x d
  | pokep pg off d => exact setRamByte_wf hs pg off d
  | reset => rfl
  | _ =>
    rw [hw (by simp [Instr.mnemonic])]
    exact hs

theorem Completes.marks_wf {i : Instr} {s t : State} (h : Completes i s t)
    (hs : Table.wf (0 : BitVec 2) 0x10000 s.marks = true) : Table.wf (0 : BitVec 2) 0x10000 t.marks = true := by
  have hw := h.writtenBy.marks
  cases h with
  | setmark x f => exact Table.wf_set hs x.isLt
  | reset => rfl
  | _ =>
    rw [hw (by simp [Instr.mnemonic])]
    exact hs

theorem Completes.ports_wf {i : Instr} {s t : State} (h : Completes i s t)
    (hs : Table.wf (none : Option Byte) 0x10000 s.portOvr = true) :
    Table.wf (none : Option Byte) 0x10000 t.portOvr = true := by
  have hw := h.writtenBy.portOvr
  cases h with
  | portset x v => exact Table.wf_set hs x.isLt
  | _ =>
    rw [hw (by simp [Instr.mnemonic])]
    exact hs

/-! ## The invariant -/

/-- The invariant reads no stream and no output, and of the fault set only that it is a set. -/
theorem State.Inv.with_outputs {s : State} (h : s.Inv) (p : List Request) (r : Response) (g : List CpuSignal)
    {fs : List FaultRecord} (hf : fs.Nodup) :
    State.Inv { s with pending := p, response := r, signals := g, faults := fs } :=
  ⟨h.slots_eq, h.locked_eq, h.shaped, h.events_high, h.idle_line, hf, h.ram_wf, h.marks_wf, h.ports_wf⟩

theorem Completes.inv {i : Instr} {s t : State} (h : Completes i s t) (hs : s.Inv) : t.Inv where
  slots_eq := (h.banked ⟨hs.slots_eq, hs.locked_eq⟩).1
  locked_eq := (h.banked ⟨hs.slots_eq, hs.locked_eq⟩).2
  shaped := h.shaped hs.shaped
  events_high := h.events_high hs.events_high
  idle_line := h.idle_line hs.idle_line
  faults_nodup := h.keeps.2.2 ▸ hs.faults_nodup
  ram_wf := h.ram_wf hs.ram_wf
  marks_wf := h.marks_wf hs.marks_wf
  ports_wf := h.ports_wf hs.ports_wf

theorem exec_inv {i : Instr} {s t : State} (hs : s.Inv) (h : exec i s = .next t) : t.Inv := by
  obtain ⟨c, -, rfl⟩ | ⟨-, hc⟩ | ⟨-, f, rfl⟩ := exec_completes h
  · exact hs.with_outputs _ _ _ hs.faults_nodup
  · exact hc.inv (hs.with_outputs _ _ _ hs.faults_nodup)
  · exact hs.with_outputs _ _ _ (addFault_nodup hs.faults_nodup)

/-- Settles O44: an effect keeps every part of the invariant, and the rest of a step writes only the stream, the
outputs and the fault set. -/
theorem stepKeepsTheInvariant : Obligations.StepKeepsTheInvariant := by
  intro s t hs h
  obtain ⟨-, rfl⟩ | ⟨c, rest, rfl⟩ | ⟨i, rest, he⟩ := step_cases h
  · exact hs
  · exact hs.with_outputs _ _ _ hs.faults_nodup
  · exact exec_inv (hs.with_outputs _ _ _ hs.faults_nodup) he

theorem State.ofConfig_inv (c : Config) : (State.ofConfig c).Inv where
  slots_eq := slotMap_zero.symm
  locked_eq := bankLock_zero.symm
  shaped := Video.reset_shaped c
  events_high := BitVec.zero_and
  idle_line _ := rfl
  faults_nodup := List.nodup_nil
  ram_wf := rfl
  marks_wf := rfl
  ports_wf := rfl

/-- Settles O45: the reset state is the constructed state of the default configuration. -/
theorem resetHasTheInvariant : Obligations.ResetHasTheInvariant :=
  ⟨State.ofConfig_inv Config.default, State.ofConfig_inv⟩

end Sys2Proof.Machine
end

section
/-! The VISITED bits (spec 10_state.md R48, 42_scheduler.md R219): every operation of the block commutes with putting
another mark table in place, as long as the two tables agree on the BP bit the breakpoint check reads. -/
namespace Sys2Proof.Machine

/-- The state with another mark table. -/
def State.withMarks (m : List (Nat × BitVec 2)) (s : State) : State := { s with marks := m }

/-! ## Operations that read no mark -/

section
variable (m : List (Nat × BitVec 2)) (s : State)

theorem advanceTick_withMarks (n : Nat) :
    advanceTick n (s.withMarks m) = (advanceTick n s).map (State.withMarks m) := by
  obtain ⟨hl, ho⟩ | ⟨hl, he⟩ := advanceTick_cases n s
  · rw [ho, advanceTick_ok (s := s.withMarks m) hl]
    rfl
  · rw [he, advanceTick_error (s := s.withMarks m) hl]
    rfl

theorem memWrite_withMarks (a : Addr) (d : Byte) : memWrite a d (s.withMarks m) = (memWrite a d s).withMarks m := by
  unfold memWrite
  rw [slotAt_congr (u := s.withMarks m) (s := s) rfl]
  cases slotAt s a with
  | rom p => rfl
  | ram p => rfl

theorem catchUpForWrite_withMarks (a : Addr) :
    catchUpForWrite a (s.withMarks m) = (catchUpForWrite a s).withMarks m := by
  unfold catchUpForWrite
  rw [apply_ite (State.withMarks m)]
  rfl

theorem catchUpForOut_withMarks (p : Addr) : catchUpForOut p (s.withMarks m) = (catchUpForOut p s).withMarks m := by
  unfold catchUpForOut
  rw [apply_ite (State.withMarks m)]
  rfl

theorem setBankRegister_withMarks (v : Byte) :
    setBankRegister v (s.withMarks m) = (setBankRegister v s).withMarks m := by
  unfold setBankRegister
  rw [apply_ite (State.withMarks m)]
  rfl

theorem portRegisters_withMarks (p : Addr) (d : Byte) :
    portRegisters p d (s.withMarks m) = (portRegisters p d s).withMarks m := by
  unfold portRegisters
  dsimp only
  rw [apply_ite (State.withMarks m)]
  cases isBorderPort p with
  | false => rfl
  | true => rfl

theorem portWrite_withMarks (p : Addr) (d : Byte) : portWrite p d (s.withMarks m) = (portWrite p d s).withMarks m := by
  unfold portWrite
  rw [catchUpForOut_withMarks, portRegisters_withMarks]

theorem portSeq_withMarks (p : Addr) : portSeq p (s.withMarks m) = (portSeq p s).map (State.withMarks m) := by
  unfold portSeq
  change (portTicks s.cfg p (portSteps p) s.tick.toNat).map _ = _
  cases portTicks s.cfg p (portSteps p) s.tick.toNat with
  | error f => rfl
  | ok ts => exact congrArg Except.ok (List.foldl_hom (State.withMarks m) fun _ _ => rfl)

theorem finishFrame_withMarks : finishFrame (s.withMarks m) = (finishFrame s).withMarks m := by
  unfold finishFrame
  rw [apply_ite (State.withMarks m)]
  rfl

theorem loopExit_withMarks : loopExit (s.withMarks m) = (loopExit s).withMarks m := by
  unfold loopExit
  rw [finishFrame_withMarks]
  rfl

theorem runBody_withMarks : runBody (s.withMarks m) = (runBody s).map (State.withMarks m) := by
  unfold runBody
  rw [show frameEnded (s.withMarks m) = frameEnded s from rfl]
  cases frameEnded s with
  | false => rfl
  | true => rfl

end

/-! ## The breakpoint check and SETMARK -/

section
variable {m : List (Nat × BitVec 2)} {s : State}

/-- The one rule that reads a mark reads its BP bit (R215). -/
theorem breakpointCheck_withMarks {pc : Addr} (h : markBp (markAt (s.withMarks m) pc) = markBp (markAt s pc)) :
    breakpointCheck pc (s.withMarks m) = (breakpointCheck pc s).withMarks m := by
  unfold breakpointCheck
  rw [h]
  rfl

theorem schedulerAfterStep_withMarks {pc : Addr} (h : markBp (markAt (s.withMarks m) pc) = markBp (markAt s pc)) :
    schedulerAfterStep pc (s.withMarks m) = (schedulerAfterStep pc s).withMarks m := by
  have hb : breakpointCheck pc (limitChecks (s.withMarks m)) = (breakpointCheck pc (limitChecks s)).withMarks m :=
    breakpointCheck_withMarks (s := limitChecks s) h
  unfold schedulerAfterStep
  dsimp only
  rw [hb, loopExit_withMarks, apply_ite (State.withMarks m)]
  rfl

theorem setmarkBody_withMarks (a : Nat) (f : BitVec 2) :
    ∃ m', setmarkBody a f (s.withMarks m) = (setmarkBody a f s).map (State.withMarks m') := by
  unfold setmarkBody
  cases checkedAddr a with
  | error e => exact ⟨m, rfl⟩
  | ok x => exact ⟨Table.set 0 m x.toNat f, rfl⟩

/-! ## Effects -/

/-- What follows an operation that commutes commutes with it. -/
theorem map_withMarks {x x' : Except FaultInfo State} {k : State → State} (hx : x' = x.map (State.withMarks m))
    (hk : ∀ u : State, k (u.withMarks m) = (k u).withMarks m) : x'.map k = (x.map k).map (State.withMarks m) := by
  rw [hx]
  cases x with
  | error f => rfl
  | ok u => exact congrArg Except.ok (hk u)

theorem checkedAddr_bind_withMarks {a : Nat} {k k' : Addr → Except FaultInfo State}
    (hk : ∀ x, k' x = (k x).map (State.withMarks m)) :
    (checkedAddr a).bind k' = ((checkedAddr a).bind k).map (State.withMarks m) := by
  cases checkedAddr a with
  | error f => rfl
  | ok x => exact hk x

theorem checkedAddr_map_withMarks {a : Nat} {k k' : Addr → State} (hk : ∀ x, k' x = (k x).withMarks m) :
    (checkedAddr a).map k' = ((checkedAddr a).map k).map (State.withMarks m) := by
  cases checkedAddr a with
  | error f => rfl
  | ok x => exact congrArg Except.ok (hk x)

/-- With marks that agree on every BP bit, an effect ends alike: in the same fault, or in states that differ in their
marks only. -/
theorem bodyOf_withMarks (i : Instr) (h : ∀ pc, markBp (markAt (s.withMarks m) pc) = markBp (markAt s pc)) :
    ∃ m', bodyOf i (s.withMarks m) = (bodyOf i s).map (State.withMarks m') := by
  cases i with
  | fetch a =>
    exact ⟨m, checkedAddr_bind_withMarks fun x =>
      map_withMarks (advanceTick_withMarks m (overlayUpdate x s) _) fun _ => rfl⟩
  | read a =>
    exact ⟨m, checkedAddr_bind_withMarks fun x => map_withMarks (advanceTick_withMarks m s _) fun _ => rfl⟩
  | write a d =>
    exact ⟨m, checkedAddr_bind_withMarks fun x => map_withMarks (advanceTick_withMarks m s _) fun u => by
      rw [catchUpForWrite_withMarks, memWrite_withMarks]⟩
  | tick n => exact ⟨m, advanceTick_withMarks m s _⟩
  | inp p => exact ⟨m, checkedAddr_bind_withMarks fun x => map_withMarks (portSeq_withMarks m s x) fun _ => rfl⟩
  | out p d =>
    exact ⟨m, checkedAddr_bind_withMarks fun x =>
      map_withMarks (portSeq_withMarks m s x) fun u => portWrite_withMarks m u x d⟩
  | stepend pc => exact ⟨m, checkedAddr_map_withMarks fun x => schedulerAfterStep_withMarks (h x)⟩
  | run => exact ⟨m, runBody_withMarks m s⟩
  | reset => exact ⟨[], rfl⟩
  | poke a d => exact ⟨m, checkedAddr_map_withMarks fun x => memWrite_withMarks m (renderTo s.tick.toNat s) x d⟩
  | portset a v => exact ⟨m, checkedAddr_map_withMarks fun x => rfl⟩
  | setmark a f => exact setmarkBody_withMarks a f
  | bank v => exact ⟨m, congrArg Except.ok (setBankRegister_withMarks m s v)⟩
  | stop | pokep | setsp | setpc | tlimit | flimit | intsup | render | newframe | getframe | getgeom => exact ⟨m, rfl⟩

end

/-- Settles O54: admission reads no mark, and the effects on the two states end alike. -/
theorem visitedBitIsNeverRead : Obligations.VisitedBitIsNeverRead := by
  intro i s t m hm h
  obtain ⟨m', hb'⟩ := bodyOf_withMarks (s := openCommand s) (m := m) i fun pc => hm pc.toNat
  obtain ⟨c, hp, rfl⟩ | ⟨hp, hb⟩ | ⟨hp, f, hb, rfl⟩ := exec_cases h
  · refine ⟨m, ?_⟩
    rw [exec_eq_perform]
    exact perform_refused hp
  · rw [hb] at hb'
    exact ⟨m', exec_ok hp hb'⟩
  · rw [hb] at hb'
    exact ⟨m, exec_error hp hb'⟩

end Sys2Proof.Machine
end

section
/-! The statements of 20_memory.md: addresses too wide for the block, a byte written and read back, and what is in ROM. -/
namespace Sys2Proof.Machine

/-! ## Wide addresses (R79) -/

theorem checkedAddr_bind_wide {a : Nat} (h : 0x10000 ≤ a) (k : Addr → Except FaultInfo State) :
    (checkedAddr a).bind k = .error ⟨.addrRange, a⟩ := by
  rw [checkedAddr_wide h]
  rfl

theorem checkedAddr_map_wide {a : Nat} (h : 0x10000 ≤ a) (k : Addr → State) :
    (checkedAddr a).map k = .error ⟨.addrRange, a⟩ := by
  rw [checkedAddr_wide h]
  rfl

/-- An address operand is checked before anything else in the effect. -/
theorem bodyOf_wide {i : Instr} {a : Nat} (hi : i.address? = some a) (ha : 0x10000 ≤ a) (s : State) :
    bodyOf i s = .error ⟨.addrRange, a⟩ := by
  cases i with
  | fetch | read | write | inp | out =>
    cases hi
    exact checkedAddr_bind_wide ha _
  | stepend | poke | portset | setmark =>
    cases hi
    exact checkedAddr_map_wide ha _
  | _ => cases hi

/-- Of the nine commands with an address operand, STEPEND waits for a step and three wait for IDLE (R108). -/
theorem phaseRefusal_none_of_address {i : Instr} {a : Nat} {p : Phase} (hi : i.address? = some a)
    (hstep : i.mnemonic = .stepend → p = .awaitStep)
    (hidle : i.mnemonic = .poke ∨ i.mnemonic = .portset ∨ i.mnemonic = .setmark → p = .idle) :
    phaseRefusal (Admission.of i.mnemonic) p = none := by
  cases i with
  | fetch | read | write | inp | out => rfl
  | stepend => rw [hstep rfl]; rfl
  | poke | portset | setmark => rw [hidle (by simp [Instr.mnemonic])]; rfl
  | _ => cases hi

/-- Settles O10: an admitted command with a wide address faults at its address check. -/
theorem wideAddressFaults : Obligations.WideAddressFaults := by
  intro i a s hi ha hstep hidle
  have hp := phaseRefusal_none_of_address hi hstep hidle
  exact ⟨_, exec_error hp (bodyOf_wide hi ha _), rfl, fun _ => mem_addFault⟩

/-! ## The slot map along the bus commands (R73, R142) -/

/-- The overlay trap keeps the slot map, whatever the lock is. -/
theorem overlayUpdate_slotMap {s : State} (h : s.slots = slotMap s.bank s.overlay) (a : Addr) :
    (overlayUpdate a s).slots = slotMap (overlayUpdate a s).bank (overlayUpdate a s).overlay := by
  rw [overlayUpdate_slots]
  split
  · rename_i ho
    rw [h, ← ho]
    rfl
  · rfl

/-- Above 0x4000 the overlay shows in no read: it is in slot 0 only. -/
theorem memRead_overlayUpdate {s : State} (h : s.slots = slotMap s.bank s.overlay) {a : Addr} (ha : 0x4000 ≤ a.toNat)
    (b : Addr) : memRead (overlayUpdate b s) a = memRead s a := by
  rw [memRead_ram (slotAt_ram (overlayUpdate_slotMap h b) ha), memRead_ram (slotAt_ram h ha)]
  rfl

/-! ## A written byte reads back (R87, R91) -/

/-- READ and FETCH of an address above 0x4000 answer the byte it holds, if there is room for the wait. -/
theorem exec_read_fetch_answer {s : State} (h : s.slots = slotMap s.bank s.overlay) {a : Addr} (ha : 0x4000 ≤ a.toNat)
    (ht : s.tick.toNat + memWait s a < 2 ^ 32) :
    ∃ t f, exec (.read a.toNat) s = .next t ∧ t.response = .byte (memRead s a) ∧
      exec (.fetch a.toNat) s = .next f ∧ f.response = .byte (memRead s a) :=
  ⟨_, _, exec_ok rfl (readBody_eq (s := openCommand s) ht), rfl, exec_ok rfl (fetchBody_eq (s := openCommand s) ht),
    congrArg Response.byte (memRead_overlayUpdate (s := openCommand s) h ha a)⟩

/-- What a WRITE above 0x4000 leaves: the byte is in memory, the slot map stands, the tick took one wait. -/
theorem exec_write_ram {s : State} (h : s.slots = slotMap s.bank s.overlay) (hm : s.ram.wf = true) {a : Addr}
    (d : Byte) (ha : 0x4000 ≤ a.toNat) (ht : s.tick.toNat + memWait s a < 2 ^ 32) :
    ∃ u, exec (.write a.toNat d) s = .next u ∧ u.slots = slotMap u.bank u.overlay ∧ memRead u a = d ∧
      u.tick.toNat = s.tick.toNat + memWait s a := by
  refine ⟨_, exec_ok rfl (writeBody_eq (s := openCommand s) ht), by simpa using h, ?_, ?_⟩
  · rw [memRead_memWrite (slotAt_ram (by simpa using h) ha) (by simpa using hm), if_pos]
    exact ⟨slotAt_ram (by simpa using h) ha, rfl⟩
  · simp only [memWrite_tick, catchUpForWrite_tick, BitVec.toNat_ofNat]
    exact Nat.mod_eq_of_lt ht

/-- Settles O51: the WRITE and the access after it take one wait each, and a wait is below 2^24. -/
theorem writtenByteReadsBack : Obligations.WrittenByteReadsBack := by
  intro s a d h hm ha ht
  have hw : memWait s a < 2 ^ 24 := memWaitAt_lt ..
  obtain ⟨u, hu, hslots, hread, htick⟩ := exec_write_ram h hm d ha (by omega)
  have hw' : memWait u a < 2 ^ 24 := memWaitAt_lt ..
  obtain ⟨t, f, hr, hrb, hf, hfb⟩ := exec_read_fetch_answer hslots ha (by omega)
  rw [hread] at hrb hfb
  exact ⟨u, t, f, hu, hr, hrb, hf, hfb⟩

/-! ## ROM is never written (R75, R78) -/

/-- A WRITE below 0x4000 takes its wait and no more. -/
theorem exec_write_rom {s t : State} (h : s.slots = slotMap s.bank s.overlay) {a : Addr} {d : Byte}
    (ha : a.toNat < 0x4000) (he : exec (.write a.toNat d) s = .next t) :
    t.cfg = s.cfg ∧ t.ram = s.ram ∧ t.slots = s.slots := by
  obtain ⟨c, -, rfl⟩ | ⟨-, hb⟩ | ⟨-, f, -, rfl⟩ := exec_cases he
  · exact ⟨rfl, rfl, rfl⟩
  · obtain ⟨x, hx, -, rfl⟩ := writeBody_ok hb
    cases BitVec.eq_of_toNat_eq hx
    rw [write_rom]
    · exact ⟨rfl, rfl, rfl⟩
    · exact slotAt_rom h ha
  · exact ⟨rfl, rfl, rfl⟩

/-- A read sees the configuration, RAM and the slot table only. -/
theorem memRead_congr {s t : State} (hc : t.cfg = s.cfg) (hm : t.ram = s.ram) (hs : t.slots = s.slots) (b : Addr) :
    memRead t b = memRead s b := by
  unfold memRead ramByte
  rw [slotAt_congr hs, hc, hm]

/-- Settles O52: ROM is part of the configuration, which no command writes, and a WRITE to slot 0 writes no byte. -/
theorem romIsImmutable : Obligations.RomIsImmutable := by
  intro s t h
  refine ⟨fun i he p o => by rw [(exec_keeps he).1], fun a d ha he b => ?_⟩
  obtain ⟨hc, hm, hs⟩ := exec_write_rom h ha he
  exact memRead_congr hc hm hs b

end Sys2Proof.Machine
end

section
/-! ROM page 3 (spec 20_memory.md R73, 93_implementation_defined.md I16): every operation of the block commutes with
putting another image there, as long as the slot table is the slot map, which never maps the page. -/
namespace Sys2Proof.Machine

/-! ## Memory -/

/-- The slot map names the ROM pages 0, 1 and 2 only. -/
theorem memRead_withRom3 {s : State} (h : s.slots = slotMap s.bank s.overlay) (r : RomPage) (a : Addr) :
    memRead (s.withRom3 r) a = memRead s a := by
  by_cases ha : a.toNat < 0x4000
  · rw [memRead_rom (slotAt_rom (s := s.withRom3 r) h ha), memRead_rom (slotAt_rom h ha)]
    change Config.romByte _ (if s.overlay then 2 else if bankRomsel s.bank then 1 else 0) _ = _
    cases s.overlay with
    | true => rfl
    | false => cases bankRomsel s.bank <;> rfl
  · rw [memRead_ram (slotAt_ram (s := s.withRom3 r) h (by omega)), memRead_ram (slotAt_ram h (by omega))]
    rfl

section
variable (r : RomPage) (s : State)

theorem memWrite_withRom3 (a : Addr) (d : Byte) : memWrite a d (s.withRom3 r) = (memWrite a d s).withRom3 r := by
  unfold memWrite
  rw [slotAt_congr (u := s.withRom3 r) (s := s) rfl]
  cases slotAt s a with
  | rom p => rfl
  | ram p => rfl

/-! ## The renderer reads the geometry of the configuration, and no ROM byte (R182) -/

theorem renderTicks_withRom3 (n t : Nat) (v : Video) :
    renderTicks (s.withRom3 r).videoInputs n t v = renderTicks s.videoInputs n t v := by
  induction n generalizing t v with
  | zero => rfl
  | succ n ih => exact ih (t + 1) (processTick s.videoInputs t v)

theorem renderTo_withRom3 (n : Nat) : renderTo n (s.withRom3 r) = (renderTo n s).withRom3 r := by
  unfold renderTo
  rw [renderTicks_withRom3]
  rfl

theorem catchUpForWrite_withRom3 (a : Addr) :
    catchUpForWrite a (s.withRom3 r) = (catchUpForWrite a s).withRom3 r := by
  unfold catchUpForWrite
  rw [apply_ite (State.withRom3 r), ← renderTo_withRom3]
  rfl

theorem catchUpForOut_withRom3 (p : Addr) : catchUpForOut p (s.withRom3 r) = (catchUpForOut p s).withRom3 r := by
  unfold catchUpForOut
  rw [apply_ite (State.withRom3 r), ← renderTo_withRom3]
  rfl

theorem setBankRegister_withRom3 (v : Byte) :
    setBankRegister v (s.withRom3 r) = (setBankRegister v s).withRom3 r := by
  unfold setBankRegister
  rw [apply_ite (State.withRom3 r)]
  exact congrArg (ite _ _) (congrArg (bankFields v) (renderTo_withRom3 r s _))

theorem portRegisters_withRom3 (p : Addr) (d : Byte) :
    portRegisters p d (s.withRom3 r) = (portRegisters p d s).withRom3 r := by
  unfold portRegisters
  dsimp only
  rw [apply_ite (State.withRom3 r)]
  cases isBorderPort p with
  | false => rfl
  | true => rfl

theorem portWrite_withRom3 (p : Addr) (d : Byte) : portWrite p d (s.withRom3 r) = (portWrite p d s).withRom3 r := by
  unfold portWrite
  rw [catchUpForOut_withRom3, portRegisters_withRom3]

/-! ## Ticks -/

theorem advanceTick_withRom3 (n : Nat) : advanceTick n (s.withRom3 r) = (advanceTick n s).map (State.withRom3 r) := by
  obtain ⟨hl, ho⟩ | ⟨hl, he⟩ := advanceTick_cases n s
  · rw [ho, advanceTick_ok (s := s.withRom3 r) hl]
    rfl
  · rw [he, advanceTick_error (s := s.withRom3 r) hl]
    rfl

/-- A port sequence ends, or overflows, by the contention function alone. -/
theorem portSeq_withRom3 (p : Addr) : portSeq p (s.withRom3 r) = (portSeq p s).map (State.withRom3 r) := by
  obtain ⟨hlt, ho⟩ | ⟨hge, he⟩ := portSeq_cases p s
  · obtain ⟨-, ho'⟩ | ⟨hge', -⟩ := portSeq_cases p (s.withRom3 r)
    · rw [ho, ho']
      exact congrArg Except.ok
        (renderTo_withRom3 r { s with tick := BitVec.ofNat 32 (portEnd s.cfg.contentionWait p s.tick.toNat) } _)
    · exact absurd hlt (Nat.not_lt.mpr hge')
  · obtain ⟨hlt', -⟩ | ⟨-, he'⟩ := portSeq_cases p (s.withRom3 r)
    · exact absurd hlt' (Nat.not_lt.mpr hge)
    · rw [he, he']
      rfl

/-! ## The scheduler -/

theorem finishFrame_withRom3 : finishFrame (s.withRom3 r) = (finishFrame s).withRom3 r := by
  unfold finishFrame
  rw [apply_ite (State.withRom3 r)]
  exact congrArg (ite _ · _) (congrArg (setEventIf true evEndOfFrame) (renderTo_withRom3 r s _))

theorem loopExit_withRom3 : loopExit (s.withRom3 r) = (loopExit s).withRom3 r := by
  unfold loopExit
  rw [finishFrame_withRom3]
  rfl

theorem schedulerAfterStep_withRom3 (pc : Addr) :
    schedulerAfterStep pc (s.withRom3 r) = (schedulerAfterStep pc s).withRom3 r := by
  unfold schedulerAfterStep
  dsimp only
  rw [apply_ite (State.withRom3 r), ← loopExit_withRom3]
  rfl

theorem runBody_withRom3 : runBody (s.withRom3 r) = (runBody s).map (State.withRom3 r) := by
  unfold runBody
  rw [show frameEnded (s.withRom3 r) = frameEnded s from rfl]
  cases frameEnded s with
  | false => rfl
  | true => rfl

end

/-! ## Effects -/

section
variable {g : State → State}

/-- What follows an operation that commutes with `g` commutes with `g`, on the states the operation ends in. -/
theorem map_comm_of_ok {x x' : Except FaultInfo State} {k : State → State} (hx : x' = x.map g)
    (hk : ∀ u, x = .ok u → k (g u) = g (k u)) : x'.map k = (x.map k).map g := by
  rw [hx]
  cases x with
  | error f => rfl
  | ok u => exact congrArg Except.ok (hk u rfl)

theorem checkedAddr_bind_comm {a : Nat} {k k' : Addr → Except FaultInfo State} (hk : ∀ x, k' x = (k x).map g) :
    (checkedAddr a).bind k' = ((checkedAddr a).bind k).map g := by
  cases checkedAddr a with
  | error f => rfl
  | ok x => exact hk x

theorem checkedAddr_map_comm {a : Nat} {k k' : Addr → State} (hk : ∀ x, k' x = g (k x)) :
    (checkedAddr a).map k' = ((checkedAddr a).map k).map g := by
  cases checkedAddr a with
  | error f => rfl
  | ok x => exact congrArg Except.ok (hk x)

end

section
variable {s : State} (h : s.slots = slotMap s.bank s.overlay) (r : RomPage)
include h

/-- A tick advance leaves what a read reads, so the read after it does not see the page either. -/
theorem readAfterTick_withRom3 (n : Nat) (a : Addr) {k : State → State}
    (hk : ∀ u : State, k (u.withRom3 r) = (k u).withRom3 r) :
    (advanceTick n (s.withRom3 r)).map (fun u => respond (.byte (memRead u a)) (k u)) =
      ((advanceTick n s).map fun u => respond (.byte (memRead u a)) (k u)).map (State.withRom3 r) := by
  refine map_comm_of_ok (advanceTick_withRom3 r s n) fun u hu => ?_
  have hslots : u.slots = slotMap u.bank u.overlay := by
    obtain ⟨-, ho⟩ | ⟨-, he⟩ := advanceTick_cases n s
    · cases ho.symm.trans hu
      exact h
    · cases he.symm.trans hu
  rw [memRead_withRom3 hslots, hk]
  rfl

/-- An effect ends alike with either image: in the same fault, or in states that differ in the image only. -/
theorem bodyOf_withRom3 (i : Instr) : bodyOf i (s.withRom3 r) = (bodyOf i s).map (State.withRom3 r) := by
  cases i with
  | fetch a =>
    exact checkedAddr_bind_comm fun x =>
      readAfterTick_withRom3 (overlayUpdate_slotMap h x) r _ x (k := countFetch) fun _ => rfl
  | read a => exact checkedAddr_bind_comm fun x => readAfterTick_withRom3 h r _ x (k := id) fun _ => rfl
  | write a d =>
    exact checkedAddr_bind_comm fun x => map_comm_of_ok (advanceTick_withRom3 r s _) fun u _ => by
      rw [catchUpForWrite_withRom3, memWrite_withRom3]
  | tick n => exact advanceTick_withRom3 r s _
  | inp p => exact checkedAddr_bind_comm fun x => map_comm_of_ok (portSeq_withRom3 r s x) fun _ _ => rfl
  | out p d =>
    exact checkedAddr_bind_comm fun x => map_comm_of_ok (portSeq_withRom3 r s x) fun u _ => portWrite_withRom3 r u x d
  | stepend pc => exact checkedAddr_map_comm (schedulerAfterStep_withRom3 r s)
  | run => exact runBody_withRom3 r s
  | poke a d =>
    exact checkedAddr_map_comm fun x =>
      (congrArg (memWrite x d) (renderTo_withRom3 r s _)).trans (memWrite_withRom3 r _ x d)
  | pokep pg off d => exact congrArg (Except.ok ∘ setRamByte pg off d) (renderTo_withRom3 r s _)
  | portset | setmark => exact checkedAddr_map_comm fun _ => rfl
  | render n => exact congrArg Except.ok (renderTo_withRom3 r s _)
  | bank v => exact congrArg Except.ok (setBankRegister_withRom3 r s v)
  | stop | reset | setsp | setpc | tlimit | flimit | intsup | newframe | getframe | getgeom => rfl

end

/-- Settles O53: admission reads no image, and the effects on the two states end alike. -/
theorem romPageThreeIsNeverSeen : Obligations.RomPageThreeIsNeverSeen := by
  intro i s t r h he
  have hbody : bodyOf i (openCommand (s.withRom3 r)) = (bodyOf i (openCommand s)).map (State.withRom3 r) :=
    bodyOf_withRom3 (s := openCommand s) h r i
  obtain ⟨c, hp, rfl⟩ | ⟨hp, hb⟩ | ⟨hp, f, hb, rfl⟩ := exec_cases he
  · rw [exec_eq_perform]
    exact perform_refused hp
  · rw [hb] at hbody
    exact exec_ok hp hbody
  · rw [hb] at hbody
    exact exec_error hp hbody

end Sys2Proof.Machine
end

section
/-! The statements of 30_encoding.md about words and steps: decoding and encoding, what the decoder refuses, and phase
admission. -/
namespace Sys2Proof

/-! ## Decoding and encoding (R101, R102, R106) -/

theorem Instr.lt_of_wellFormed {i : Instr} (h : i.wellFormed = true) {a : Nat} (hi : i.address? = some a) :
    a < 0x10000 := by
  simpa [Instr.wellFormed, hi] using h

/-- An address that fits the A field is read back from it. -/
theorem toNat_fieldA_formatA (m : Mnemonic) {a : Nat} (h : a < 0x10000) (d : BitVec 8) :
    (fieldA (formatA m (BitVec.ofNat 16 a) d)).toNat = a := by
  rw [fieldA_formatA, BitVec.toNat_ofNat, Nat.mod_eq_of_lt h]

/-- The fields of a well-formed command's word are the command's operands. -/
theorem operands_encode {i : Instr} (h : i.wellFormed = true) : i.mnemonic.operands (encode i) = i := by
  cases i with
  | fetch a | read a | write a d | inp a | out a d | stepend a | poke a d | portset a d | setmark a f =>
    have ha : a < 0x10000 := Instr.lt_of_wellFormed h rfl
    simp [Instr.mnemonic, Mnemonic.operands, encode, -fieldA_formatA, toNat_fieldA_formatA _ ha]
  | tick | setsp | setpc | render | bank | tlimit | flimit | intsup | pokep =>
    simp [Instr.mnemonic, Mnemonic.operands, encode]
  | run | stop | reset | newframe | getframe | getgeom => rfl

theorem decode_encode {i : Instr} (h : i.wellFormed = true) : decode (encode i) = .ok i := by
  obtain ⟨hop, hzero⟩ := Laws.EncodesRow.all i
  exact decode_ok_iff.mpr ⟨i.mnemonic, hop, hzero, (operands_encode h).symm⟩

/-- Settles O1: the word selects the command's row, breaks no reserved field, and holds the operands. -/
theorem decodeOfEncodeIsTheCommand : Obligations.DecodeOfEncodeIsTheCommand :=
  fun _ h => decode_encode h

/-! ## Encoding what was decoded (R109) -/

section
variable {w : Word} {m : Mnemonic} (ho : fieldOp w = m.opcode)
include ho

/-- A word whose D field is must-be-zero. -/
theorem formatA_of_address (hz : w &&& 0x070000FF#32 = 0) : formatA m (fieldA w) 0 = w := by
  have hd : fieldD w = 0 := field_zero hz (by decide)
  rw [← hd]
  exact formatA_fields ho (zero_of_mask hz _ (by decide))

/-- SETMARK's D[7:2] are must-be-zero, so its flags are its whole D field. -/
theorem formatA_of_flags (hz : w &&& 0x070000FC#32 = 0) : formatA m (fieldA w) ((fieldFlags w).setWidth 8) = w := by
  have hd : (fieldFlags w).setWidth 8 = fieldD w := by
    apply BitVec.eq_of_getLsbD_eq; intro b hb
    by_cases h2 : b < 2
    · simp [fieldFlags, fieldD, h2, hb]
    · have hbit : w.getLsbD b = false := zero_bit hz (by interval_cases b <;> simp at h2 ⊢)
      simp [fieldFlags, fieldD, h2, hb, hbit]
  rw [hd]
  exact formatA_fields ho (zero_of_mask hz _ (by decide))

/-- BANK's A field is must-be-zero. -/
theorem formatA_of_byte (hz : w &&& 0x07FFFF00#32 = 0) : formatA m 0 (fieldD w) = w := by
  have ha : fieldA w = 0 := field_zero hz (by decide)
  rw [← ha]
  exact formatA_fields ho (zero_of_mask hz _ (by decide))

/-- TICK and RENDER have E must-be-zero. -/
theorem formatV_of_value (hz : w &&& 0x07000000#32 = 0) : formatV m false (fieldV w) = w := by
  have he : fieldE w = false := zero_bit hz (by decide)
  rw [← he]
  exact formatV_fields ho (zero_of_mask hz _ (by decide))

/-- INTSUP has V must-be-zero. -/
theorem formatV_of_switch (hz : w &&& 0x03FFFFFF#32 = 0) : formatV m (fieldE w) 0 = w := by
  have hv : fieldV w = 0 := field_zero hz (by decide)
  rw [← hv]
  exact formatV_fields ho (zero_of_mask hz _ (by decide))

end

/-- A row's command with the fields of a word that the row accepts has that word. -/
theorem encode_operands {w : Word} {m : Mnemonic} (ho : fieldOp w = m.opcode) (hz : w &&& m.zeroMask = 0) :
    encode (m.operands w) = w := by
  cases m with
  | fetch | read | inp | stepend =>
    simpa [Mnemonic.operands, encode] using formatA_of_address ho hz
  | setsp | setpc => exact formatA_of_address ho hz
  | write | out | poke | portset =>
    simpa [Mnemonic.operands, encode] using formatA_fields ho hz
  | setmark => simpa [Mnemonic.operands, encode] using formatA_of_flags ho hz
  | bank => exact formatA_of_byte ho hz
  | tick | render => exact formatV_of_value ho hz
  | tlimit | flimit => exact formatV_fields ho hz
  | intsup => exact formatV_of_switch ho hz
  | pokep => exact formatP_fields ho hz
  | run | stop | reset | newframe | getframe | getgeom => exact formatN_fields ho hz

/-- The A field has 16 bits, so no word names a wide address. -/
theorem Mnemonic.operands_wellFormed (m : Mnemonic) (w : Word) : (m.operands w).wellFormed = true := by
  cases m with
  | fetch | read | write | inp | out | stepend | poke | portset | setmark =>
    exact decide_eq_true (fieldA w).isLt
  | _ => rfl

theorem wellFormed_of_decode {w : Word} {i : Instr} (h : decode w = .ok i) : i.wellFormed = true := by
  obtain ⟨m, -, -, rfl⟩ := decode_ok_iff.mp h
  exact m.operands_wellFormed w

/-- Settles O2: the fields and the zeros of the row are all the bits of the word. -/
theorem encodeOfDecodeIsTheWord : Obligations.EncodeOfDecodeIsTheWord := by
  intro w i h
  obtain ⟨m, ho, hz, rfl⟩ := decode_ok_iff.mp h
  exact ⟨encode_operands ho hz, m.operands_wellFormed w⟩

/-- Settles O3: the decoder evaluated on the eight words. -/
theorem writtenOutWordsDecode : Obligations.WrittenOutWordsDecode := by
  unfold Obligations.WrittenOutWordsDecode
  decide

/-! ## What the decoder refuses (R107, R109) -/

theorem toNat_fieldOp (w : Word) : (fieldOp w).toNat = w.toNat / 2 ^ 27 := by
  have hw := w.isLt
  rw [fieldOp, BitVec.extractLsb'_toNat, Nat.shiftRight_eq_div_pow, Nat.mod_eq_of_lt (by omega)]

theorem Mnemonic.ofOpcode_unassigned {op : BitVec 5} (h : op.toNat = 0 ∨ 0x19 ≤ op.toNat) :
    Mnemonic.ofOpcode op = none := by
  revert op
  decide

theorem decode_unassigned {w : Word} (h : w.toNat / 2 ^ 27 = 0 ∨ 0x19 ≤ w.toNat / 2 ^ 27) :
    decode w = .error .illegalOpcode := by
  rw [← toNat_fieldOp] at h
  simp [decode, Mnemonic.ofOpcode_unassigned h]

theorem decode_reserved {w : Word} {m : Mnemonic} (hop : w.toNat / 2 ^ 27 = m.opcode.toNat)
    (hz : w &&& m.zeroMask ≠ 0) : decode w = .error .reservedField := by
  have ho : fieldOp w = m.opcode := BitVec.eq_of_toNat_eq ((toNat_fieldOp w).trans hop)
  rw [decode, ho, Mnemonic.ofOpcode_opcode]
  exact if_neg hz

end Sys2Proof

namespace Sys2Proof.Machine

/-- Settles O4: such an OP selects no row. -/
theorem unassignedOpcodeRefused : Obligations.UnassignedOpcodeRefused :=
  fun _ _ _ hp hop => step_rejected hp (decode_unassigned hop)

/-- Settles O5: the decoder reads the reserved bits before the phase is looked at. -/
theorem reservedFieldRefused : Obligations.ReservedFieldRefused :=
  fun _ _ _ _ hp hop hz => step_rejected hp (decode_reserved hop hz)

/-! ## Steps (R120, R281) -/

/-- Settles O6: a decoded word and a hook call are performed alike. -/
theorem stepPerformsTheOldestRequest : Obligations.StepPerformsTheOldestRequest :=
  fun _ _ _ => ⟨fun _ hp hd => step_word hp hd, fun hp => step_call hp⟩

/-- A well-formed command's fault is no address fault. -/
theorem bodyOf_error_code_of_wellFormed {i : Instr} (hi : i.wellFormed = true) {s : State} {f : FaultInfo}
    (h : bodyOf i s = .error f) : f.code = .tickOverflow := by
  obtain hc | ⟨a, ha, hwide, -⟩ := bodyOf_error h
  · exact hc
  · exact absurd (Instr.lt_of_wellFormed hi ha) (Nat.not_lt.mpr hwide)

theorem exec_addrRange_of_wellFormed {i : Instr} (hi : i.wellFormed = true) {s t : State} (h : exec i s = .next t)
    {r : FaultRecord} (hr : r ∈ t.faults) (hcode : r.code = .addrRange) : r ∈ s.faults := by
  obtain ⟨c, -, rfl⟩ | ⟨-, hb⟩ | ⟨-, f, hb, rfl⟩ := exec_cases h
  · exact hr
  · obtain ⟨-, -, hf⟩ := (completes_of_bodyOf hb).keeps
    rwa [hf] at hr
  · obtain hr | rfl := mem_addFault.mp hr
    · exact hr
    · simp [bodyOf_error_code_of_wellFormed hi hb] at hcode

/-- Settles O11: a word is refused, or decodes to a well-formed command. -/
theorem wordsRaiseNoAddressFault : Obligations.WordsRaiseNoAddressFault := by
  intro s t w rest hp h r hr hcode
  cases hd : decode w with
  | ok i =>
    rw [step_word hp hd] at h
    exact (exec_addrRange_of_wellFormed (wellFormed_of_decode hd) h hr hcode :)
  | error e =>
    rw [step_rejected hp hd] at h
    cases h
    exact hr

/-! ## Phase admission (R108) -/

theorem admission_idleOnly_iff (m : Mnemonic) : Admission.of m = .idleOnly ↔
    m ∈ [Mnemonic.run, .reset, .poke, .pokep, .setsp, .setpc, .portset, .setmark, .tlimit, .flimit, .intsup, .getframe,
      .getgeom] := by
  cases m <;> decide

theorem admission_awaitStepOnly_iff (m : Mnemonic) : Admission.of m = .awaitStepOnly ↔ m = .stepend := by
  cases m <;> decide

theorem phaseRefusal_eq_none {a : Admission} {p : Phase} (hidle : a = .idleOnly → p = .idle)
    (hawait : a = .awaitStepOnly → p = .awaitStep) : phaseRefusal a p = none := by
  cases a with
  | everyPhase => rfl
  | idleOnly => rw [hidle rfl]; rfl
  | awaitStepOnly => rw [hawait rfl]; rfl

theorem exec_refused {i : Instr} {s : State} {c : RefusalCode}
    (h : phaseRefusal (Admission.of i.mnemonic) s.phase = some c) :
    exec i s = .next { s with response := .refused c, signals := [] } := by
  rw [exec_eq_perform]
  exact perform_refused h

/-- An admitted command answers no refusal. -/
theorem exec_not_refused {i : Instr} {s t : State} (h : phaseRefusal (Admission.of i.mnemonic) s.phase = none)
    (he : exec i s = .next t) (c : RefusalCode) : t.response ≠ .refused c := by
  obtain ⟨c', hc, -⟩ | ⟨-, hc⟩ | ⟨-, f, rfl⟩ := exec_completes he
  · simp [h] at hc
  · exact (hc.answer rfl).1 c
  · simp

/-- Settles O12: the rows of R108 are those of the admission table, and only the phase refuses a command. -/
theorem phaseAdmission : Obligations.PhaseAdmission := by
  intro i s idleOnly
  refine ⟨fun hi hp => exec_refused ?_, fun hi hp => exec_refused ?_, fun hidle hawait t he => exec_not_refused ?_ he⟩
  · rw [(admission_idleOnly_iff _).mpr hi, hp]
    rfl
  · rw [(admission_awaitStepOnly_iff _).mpr hi, hp]
    rfl
  · exact phaseRefusal_eq_none (fun ha => hidle ((admission_idleOnly_iff _).mp ha))
      fun ha => hawait ((admission_awaitStepOnly_iff _).mp ha)

end Sys2Proof.Machine
end

section
/-! The statements of 30_encoding.md about text: operands that fit, pseudo-commands, and how a line is cut. -/
namespace Sys2Proof.Machine

/-! ## Assembled commands are well formed (R111, R118) -/

/-- Every command a form gives is well formed. -/
def LineForm.WellFormed (form : LineForm) : Prop := ∀ ops is, form ops = .ok is → ∀ i ∈ is, i.wellFormed = true

theorem ifFits_ok {p : Prop} [Decidable p] {is js : List Instr} (h : ifFits p is = .ok js) : js = is := by
  unfold ifFits at h
  split at h
  · exact (Except.ok.inj h).symm
  · cases h

theorem bind_map_ok {α β : Type} {x : Except AsmError α} {y : Except AsmError β} {k : α → β → List Instr}
    {is : List Instr} (h : (x.bind fun u => y.map fun v => k u v) = .ok is) : ∃ u v, is = k u v := by
  cases x with
  | error => cases h
  | ok u =>
    cases y with
    | error => cases h
    | ok v => exact ⟨u, v, (Except.ok.inj h).symm⟩

/-- POKEP with its three operands (R106). -/
theorem formPokep_eq (x y z : Nat) : formPokep [.number x, .number y, .number z] =
    ifFits (x < 8 ∧ y < 2 ^ 14 ∧ z < 2 ^ 8) [.pokep (BitVec.ofNat 3 x) (BitVec.ofNat 14 y) (BitVec.ofNat 8 z)] := by
  rw [formPokep, fit_eq]
  by_cases hx : x < 8
  · simp [hx, Except.bind, line2_eq]
  · simp [hx, Except.bind, ifFits]

theorem wellFormed_form0 {i : Instr} (h : i.wellFormed = true) : (form0 [i]).WellFormed := by
  intro ops is hf
  unfold form0 at hf
  split at hf
  · cases hf
    exact List.forall_mem_singleton.mpr h
  · cases hf

theorem wellFormed_form1 {b : Nat} {f : BitVec b → List Instr} (h : ∀ u, ∀ i ∈ f u, i.wellFormed = true) :
    (form1 b f).WellFormed := by
  intro ops is hf
  unfold form1 at hf
  split at hf
  · rw [line1_eq] at hf
    obtain rfl := ifFits_ok hf
    exact h _
  · cases hf

theorem wellFormed_form2 {b c : Nat} {f : BitVec b → BitVec c → List Instr}
    (h : ∀ u v, ∀ i ∈ f u v, i.wellFormed = true) : (form2 b c f).WellFormed := by
  intro ops is hf
  unfold form2 at hf
  split at hf
  · rw [line2_eq] at hf
    obtain rfl := ifFits_ok hf
    exact h _ _
  · cases hf

theorem wellFormed_formPokep : formPokep.WellFormed := by
  intro ops is hf
  unfold formPokep at hf
  split at hf
  · rename_i x y z
    obtain rfl := ifFits_ok ((formPokep_eq x y z).symm.trans hf)
    exact List.forall_mem_singleton.mpr rfl
  · cases hf

theorem wellFormed_formLimit {f : Bool → BitVec 24 → Instr} (h : ∀ e v, (f e v).wellFormed = true) :
    (formLimit f).WellFormed := by
  intro ops is hf
  unfold formLimit at hf
  split at hf
  · rw [line1_eq] at hf
    obtain rfl := ifFits_ok hf
    exact List.forall_mem_singleton.mpr (h _ _)
  · cases hf
    exact List.forall_mem_singleton.mpr (h _ _)
  · cases hf

/-- An address taken modulo 0x10000 fits its field. -/
theorem loadBytes_wellFormed (a : Addr) (bs : List Byte) : ∀ i ∈ loadBytes a bs, i.wellFormed = true := by
  intro i hi
  obtain ⟨b, -, rfl⟩ := List.mem_map.mp hi
  exact decide_eq_true (Nat.mod_lt _ (by decide))

theorem loadPage_wellFormed (pg : BitVec 3) (bs : List Byte) : ∀ i ∈ loadPage pg bs, i.wellFormed = true := by
  intro i hi
  obtain ⟨b, -, rfl⟩ := List.mem_map.mp hi
  rfl

theorem wellFormed_formLoadBytes : formLoadBytes.WellFormed := by
  intro ops is hf
  unfold formLoadBytes at hf
  split at hf
  · obtain ⟨a, bs, rfl⟩ := bind_map_ok hf
    exact loadBytes_wellFormed a bs
  · cases hf

theorem wellFormed_formLoadPage : formLoadPage.WellFormed := by
  intro ops is hf
  unfold formLoadPage at hf
  split at hf
  · split at hf
    · obtain ⟨pg, bs, rfl⟩ := bind_map_ok hf
      exact loadPage_wellFormed pg bs
    · cases hf
  · cases hf

theorem nopStep_wellFormed (pc : Addr) : ∀ i ∈ nopStep pc, i.wellFormed = true := by
  simp [nopStep, Instr.wellFormed, Instr.address?, pc.isLt, Nat.mod_lt]

/-! The forms of a single command, with and without an address operand. -/

theorem wellFormed_form1_address {f : Nat → Instr} (h : ∀ a, (f a).address? = some a) :
    (form1 16 fun a => [f a.toNat]).WellFormed :=
  wellFormed_form1 fun a => by simp [Instr.wellFormed, h, a.isLt]

theorem wellFormed_form2_address {c : Nat} {f : Nat → BitVec c → Instr} (h : ∀ a v, (f a v).address? = some a) :
    (form2 16 c fun a v => [f a.toNat v]).WellFormed :=
  wellFormed_form2 fun a v => by simp [Instr.wellFormed, h, a.isLt]

theorem wellFormed_form1_value {b : Nat} {f : BitVec b → Instr} (h : ∀ v, (f v).address? = none) :
    (form1 b fun v => [f v]).WellFormed :=
  wellFormed_form1 fun v => by simp [Instr.wellFormed, h]

theorem wellFormed_commandForms : ∀ row ∈ commandForms, row.2.WellFormed := by
  simp only [commandForms, List.forall_mem_cons, List.not_mem_nil, false_imp_iff, implies_true, and_true]
  exact ⟨wellFormed_form1_address fun _ => rfl, wellFormed_form1_address fun _ => rfl,
    wellFormed_form2_address fun _ _ => rfl, wellFormed_form1_value fun _ => rfl,
    wellFormed_form1_address fun _ => rfl, wellFormed_form2_address fun _ _ => rfl,
    wellFormed_form1_address fun _ => rfl, wellFormed_form0 rfl, wellFormed_form0 rfl,
    wellFormed_form2_address fun _ _ => rfl, wellFormed_formLimit fun _ _ => rfl,
    wellFormed_formLimit fun _ _ => rfl, wellFormed_form1_value fun _ => rfl⟩

theorem wellFormed_hostForms : ∀ row ∈ hostForms, row.2.WellFormed := by
  simp only [hostForms, List.forall_mem_cons, List.not_mem_nil, false_imp_iff, implies_true, and_true]
  exact ⟨wellFormed_form0 rfl, wellFormed_form2_address fun _ _ => rfl, wellFormed_formPokep,
    wellFormed_form1_value fun _ => rfl, wellFormed_form1_value fun _ => rfl,
    wellFormed_form2_address fun _ _ => rfl, wellFormed_form1_value fun _ => rfl, wellFormed_form0 rfl,
    wellFormed_form1_value fun _ => rfl, wellFormed_form0 rfl, wellFormed_form0 rfl⟩

theorem wellFormed_pseudoForms : ∀ row ∈ pseudoForms, row.2.WellFormed := by
  simp only [pseudoForms, List.forall_mem_cons, List.not_mem_nil, false_imp_iff, implies_true, and_true]
  refine ⟨wellFormed_formLoadBytes, wellFormed_formLoadPage, wellFormed_form2 fun sp pc => ?_,
    wellFormed_form1 fun _ => ?_, wellFormed_form1 fun _ => ?_, wellFormed_form1 nopStep_wellFormed⟩
  · simp [setSpPc, Instr.wellFormed, Instr.address?]
  · exact List.forall_mem_singleton.mpr rfl
  · exact List.forall_mem_singleton.mpr rfl

theorem mem_of_findForm {m : String} {rows : List (String × LineForm)} {form : LineForm}
    (h : findForm m rows = some form) : ∃ name, (name, form) ∈ rows := by
  induction rows with
  | nil => cases h
  | cons row rows ih =>
    unfold findForm at h
    split at h
    · cases h
      exact ⟨_, List.mem_cons_self⟩
    · obtain ⟨name, hm⟩ := ih h
      exact ⟨name, List.mem_cons_of_mem _ hm⟩

theorem assemble_wellFormed {m : String} {ops : List Operand} {is : List Instr} (h : assemble m ops = .ok is) :
    ∀ i ∈ is, i.wellFormed = true := by
  unfold assemble at h
  split at h
  · rename_i form hform
    obtain ⟨name, hmem⟩ := mem_of_findForm hform
    rw [List.mem_append, List.mem_append] at hmem
    obtain (hmem | hmem) | hmem := hmem
    · exact wellFormed_commandForms _ hmem _ _ h
    · exact wellFormed_hostForms _ hmem _ _ h
    · exact wellFormed_pseudoForms _ hmem _ _ h
  · cases h

/-- Settles O57: a line gives no command, or what a row of the form tables gives. -/
theorem assembledCommandsAreWellFormed : Obligations.AssembledCommandsAreWellFormed := by
  intro line is h
  unfold assembleLine at h
  split at h
  · cases h
    simp
  · split at h
    · exact assemble_wellFormed h
    · cases h
  · cases h

/-! ## Operands that fit (R106, R111) -/

/-- INTSUP's bit from its operand. -/
theorem line1_intsup (x : Nat) : line1 1 (fun e => [.intsup (e.getLsbD 0)]) x = ifFits (x < 2) [.intsup (x = 1)] := by
  rw [line1_eq]
  by_cases hx : x < 2
  · interval_cases x <;> rfl
  · simp [ifFits, hx]

/-- Settles O58: each mnemonic's form is a line of one, two or three fitted operands. -/
theorem operandsMustFitTheirFields : Obligations.OperandsMustFitTheirFields :=
  ⟨fun x => ⟨line1_addr (fun a => [.fetch a]) x, line1_addr (fun a => [.read a]) x, line1_addr (fun p => [.inp p]) x,
      line1_addr (fun pc => [.stepend pc]) x, line1_eq 16 _ x, line1_eq 16 _ x, line1_eq 24 _ x, line1_eq 24 _ x,
      line1_eq 24 _ x, line1_eq 24 _ x, line1_intsup x, line1_eq 8 _ x⟩,
    fun x y => ⟨line2_addr 8 (fun a d => [.write a d]) x y, line2_addr 8 (fun p d => [.out p d]) x y,
      line2_addr 8 (fun a d => [.poke a d]) x y, line2_addr 8 (fun p d => [.portset p d]) x y,
      line2_addr 2 (fun a f => [.setmark a f]) x y⟩,
    formPokep_eq, rfl, rfl, rfl, rfl, rfl, rfl, rfl, rfl⟩

/-! ## Pseudo-commands (R118) -/

theorem getElem?_loadBytes (a : Addr) (bs : List Byte) (i : Nat) :
    (loadBytes a bs)[i]? = bs[i]?.map fun b => .poke ((a.toNat + i) % 0x10000) b := by
  simp [loadBytes, List.getElem?_zipIdx, Function.comp_def]

theorem getElem?_loadPage (pg : BitVec 3) (bs : List Byte) (i : Nat) :
    (loadPage pg bs)[i]? = bs[i]?.map fun b => .pokep pg (BitVec.ofNat 14 i) b := by
  simp [loadPage, List.getElem?_zipIdx, Function.comp_def]

@[simp] theorem length_loadBytes (a : Addr) (bs : List Byte) : (loadBytes a bs).length = bs.length := by
  simp [loadBytes]

@[simp] theorem length_loadPage (pg : BitVec 3) (bs : List Byte) : (loadPage pg bs).length = bs.length := by
  simp [loadPage]

section
variable {b a : Nat} {ns : List Nat} (k : BitVec b → List Byte → List Instr)

/-- A number and a list of bytes that fit. -/
theorem fit_bytes_of_fits (ha : a < 2 ^ b) (hns : ∀ n ∈ ns, n < 2 ^ 8) :
    ((fit b a).bind fun u => (ns.mapM (fit 8)).map fun bs => k u bs) =
      .ok (k (BitVec.ofNat b a) (ns.map (BitVec.ofNat 8))) := by
  rw [fit_eq, if_pos ha, mapM_fit_of_fits hns]
  rfl

theorem fit_bytes_of_too_large (h : 2 ^ b ≤ a ∨ ∃ n ∈ ns, 2 ^ 8 ≤ n) :
    ((fit b a).bind fun u => (ns.mapM (fit 8)).map fun bs => k u bs) = .error .operandTooLarge := by
  by_cases ha : a < 2 ^ b
  · rw [fit_eq, if_pos ha, mapM_fit_of_too_large (h.resolve_left (Nat.not_le.mpr ha))]
    rfl
  · rw [fit_eq, if_neg ha]
    rfl

end

/-- The bytes of a LOADBYTES line, by index. -/
theorem assemble_loadBytes {a : Nat} {ns : List Nat} (ha : a < 2 ^ 16) (hns : ∀ n ∈ ns, n < 2 ^ 8) :
    ∃ is, assemble "LOADBYTES" [.number a, .bytes ns] = .ok is ∧ is.length = ns.length ∧
      ∀ i b, ns[i]? = some b → is[i]? = some (Instr.poke ((a + i) % 0x10000) (BitVec.ofNat 8 b)) := by
  refine ⟨_, fit_bytes_of_fits loadBytes ha hns, by simp, fun i b hb => ?_⟩
  simp [getElem?_loadBytes, hb]

/-- The bytes of a LOADPAGE line, by index. -/
theorem assemble_loadPage {pg : Nat} {ns : List Nat} (hpg : pg < 8) (hl : ns.length = 16384)
    (hns : ∀ n ∈ ns, n < 2 ^ 8) :
    ∃ is, assemble "LOADPAGE" [.number pg, .bytes ns] = .ok is ∧ is.length = 16384 ∧
      ∀ i b, ns[i]? = some b → is[i]? = some (Instr.pokep (BitVec.ofNat 3 pg) (BitVec.ofNat 14 i) (BitVec.ofNat 8 b)) := by
  refine ⟨_, (if_pos hl).trans (fit_bytes_of_fits loadPage hpg hns), by simp [hl], fun i b hb => ?_⟩
  simp [getElem?_loadPage, hb]

theorem assemble_loadPage_error {pg : Nat} {ns : List Nat}
    (h : 8 ≤ pg ∨ ns.length ≠ 16384 ∨ ∃ n ∈ ns, 2 ^ 8 ≤ n) :
    ∃ e, assemble "LOADPAGE" [.number pg, .bytes ns] = .error e := by
  by_cases hl : ns.length = 16384
  · have h' : 2 ^ 3 ≤ pg ∨ ∃ n ∈ ns, 2 ^ 8 ≤ n := h.imp_right fun h => h.resolve_left (not_not_intro hl)
    exact ⟨_, (if_pos hl).trans (fit_bytes_of_too_large loadPage h')⟩
  · exact ⟨_, if_neg hl⟩

/-- Settles O60: the forms of the six names, and the expansions by index. -/
theorem pseudoCommandsExpand : Obligations.PseudoCommandsExpand :=
  ⟨fun _ _ => ⟨assemble_loadBytes, fit_bytes_of_too_large loadBytes⟩,
    fun _ _ => ⟨assemble_loadPage, assemble_loadPage_error⟩,
    line2_eq 16 16 setSpPc,
    fun x => ⟨line1_eq 8 setBank x, line1_eq 8 borderLine x,
      line1_addr (fun pc => [.fetch pc, .tick 4, .stepend ((pc + 1) % 0x10000)]) x⟩,
    fun a bs => ⟨length_loadBytes a bs, fun i b hb => by rw [getElem?_loadBytes, hb]; rfl⟩,
    fun pg bs => ⟨length_loadPage pg bs, fun i b hb => by rw [getElem?_loadPage, hb]; rfl⟩,
    fun _ _ => rfl, fun _ => ⟨rfl, rfl⟩, fun _ => rfl⟩

/-! ## A line and its tokens (R111) -/

theorem operandsOf_word {w : List Char} {o : Operand} (h : operandOf [.text w] = some o) :
    operandsOf [.text w] = some [o] := by
  simp [operandsOf, operandGroups, h]

theorem operandsOf_word_comma {w : List Char} {o : Operand} {ts : List Token} {os : List Operand}
    (h : operandOf [.text w] = some o) (hne : ts ≠ []) (hts : operandsOf ts = some os) :
    operandsOf (.text w :: .comma :: ts) = some (o :: os) := by
  obtain ⟨t, ts, rfl⟩ := List.exists_cons_of_ne_nil hne
  simp only [operandsOf] at hts
  simp [operandsOf, operandGroups, h, hts]

/-- A decimal number is one token. -/
theorem lexLine_toDigits (x : Nat) : lexLine (Nat.toDigits 10 x) [] = [.text (Nat.toDigits 10 x)] :=
  lexLine_word (fun _ h => plain_of_isDigit (isDigit_toDigits h)) (by simp)

theorem lexLine_toDigits_comma (x : Nat) (rest : List Char) :
    lexLine (Nat.toDigits 10 x ++ ',' :: ' ' :: rest) [] =
      .text (Nat.toDigits 10 x) :: .comma :: lexLine rest [] :=
  lexLine_word_comma (fun _ h => plain_of_isDigit (isDigit_toDigits h)) (by simp) rest

section
variable {m : String} (hne : m ≠ "") (hup : ∀ ch ∈ m.toList, ch.isUpper = true)
include hne hup

/-- A mnemonic alone. -/
theorem assembleLine_mnemonic : assembleLine m = assemble m [] := by
  have hl : lexLine m.toList [] = [.text m.toList] :=
    lexLine_word (fun c h => plain_of_isUpper (hup c h)) (by simpa using hne)
  simp [assembleLine, hl, operandsOf]

/-- A mnemonic, a space, and the text of its operands. -/
theorem assembleLine_operands {line : String} {rest : List Char} {ops : List Operand}
    (hline : line.toList = m.toList ++ ' ' :: rest) (hops : operandsOf (lexLine rest []) = some ops) :
    assembleLine line = assemble m ops := by
  have hl : lexLine line.toList [] = .text m.toList :: lexLine rest [] := by
    rw [hline]
    exact lexLine_word_space (fun c h => plain_of_isUpper (hup c h)) (by simpa using hne) rest
  simp [assembleLine, hl, hops]

end

theorem operandsOf_number (x : Nat) : operandsOf (lexLine (Nat.toDigits 10 x) []) = some [.number x] := by
  rw [lexLine_toDigits]
  exact operandsOf_word (operandOf_toDigits x)

/-- A number before other operands. -/
theorem operandsOf_number_comma (x : Nat) {rest : List Char} {os : List Operand} (hne : lexLine rest [] ≠ [])
    (h : operandsOf (lexLine rest []) = some os) :
    operandsOf (lexLine (Nat.toDigits 10 x ++ ',' :: ' ' :: rest) []) = some (.number x :: os) := by
  rw [lexLine_toDigits_comma]
  exact operandsOf_word_comma (operandOf_toDigits x) hne h

/-- `on` before a number. -/
theorem operandsOf_on_number (x : Nat) :
    operandsOf (lexLine ('o' :: 'n' :: ',' :: ' ' :: Nat.toDigits 10 x) []) = some [.onWord, .number x] := by
  have hl := lexLine_word_comma (w := ['o', 'n']) (by simp [plain]) (by simp) (Nat.toDigits 10 x)
  rw [List.cons_append, List.cons_append, List.nil_append] at hl
  rw [hl]
  exact operandsOf_word_comma (by rfl) (by simp [lexLine_toDigits]) (operandsOf_number x)

theorem assembleLine_comment (line comment : String) : assembleLine (line ++ ";" ++ comment) = assembleLine line := by
  have hl : lexLine (line ++ ";" ++ comment).toList [] = lexLine line.toList [] := by
    simpa using lexLine_comment line.toList comment.toList []
  unfold assembleLine
  rw [hl]

/-- Settles O59: the tokens of each spelling are its words and commas. -/
theorem lineIsItsMnemonicAndOperands : Obligations.LineIsItsMnemonicAndOperands := by
  refine ⟨fun m x y z hne hup => ⟨assembleLine_mnemonic hne hup, ?_, ?_, ?_, ?_, ?_⟩, assembleLine_comment⟩
  · exact assembleLine_operands hne hup (by simp) (operandsOf_number x)
  · exact assembleLine_operands hne hup (by simp)
      (operandsOf_number_comma x (by simp [lexLine_toDigits]) (operandsOf_number y))
  · exact assembleLine_operands hne hup (by simp) (operandsOf_number_comma x
      (by simp [lexLine_toDigits_comma]) (operandsOf_number_comma y (by simp [lexLine_toDigits]) (operandsOf_number z)))
  · exact assembleLine_operands hne hup (by simp) (operandsOf_on_number x)
  · exact assembleLine_operands (rest := ['o', 'f', 'f']) hne hup (by simp) (by decide)

end Sys2Proof.Machine
end

section
/-! The statements of 40_bus.md: FETCH, READ, WRITE, TICK, IN, OUT and BANK, each as its whole next state. -/
namespace Sys2Proof.Machine

/-- An admitted command whose effect overflows `tick` leaves the old state with that fault (R133, R144). -/
theorem exec_tickOverflow {i : Instr} {s : State} {n : Nat} (h : phaseRefusal (Admission.of i.mnemonic) s.phase = none)
    (hb : bodyOf i (openCommand s) = .error ⟨.tickOverflow, n⟩) :
    exec i s = .next { s with faults := addFault ⟨.tickOverflow, n, encode i⟩ s.faults,
                              response := .fault .tickOverflow n, signals := [] } :=
  exec_error h hb

/-! ## Addresses and ports in numbers (R72, R142) -/

theorem isOverlayTrapAddress_eq (a : Addr) :
    isOverlayTrapAddress a = decide (0x3D00 ≤ a.toNat ∧ a.toNat ≤ 0x3DFF) := by
  simp [isOverlayTrapAddress]

theorem isBorderPort_eq (p : Addr) : isBorderPort p = decide (p.toNat % 2 = 0) := by
  rw [isBorderPort, BitVec.getLsbD, Nat.testBit_zero, ← decide_not, decide_eq_decide]
  omega

theorem isBankPort_eq (p : Addr) : isBankPort p = (decide (p.toNat < 0x8000) && decide (p.toNat / 2 % 2 = 0)) := by
  have hp := p.isLt
  have h15 : (!p.getLsbD 15) = decide (p.toNat < 0x8000) := by
    rw [BitVec.getLsbD, Nat.testBit_eq_decide_div_mod_eq, ← decide_not, decide_eq_decide]
    omega
  have h1 : (!p.getLsbD 1) = decide (p.toNat / 2 % 2 = 0) := by
    rw [BitVec.getLsbD, Nat.testBit_eq_decide_div_mod_eq, ← decide_not, decide_eq_decide]
    omega
  rw [isBankPort, h15, h1]

/-! ## FETCH (R140, R142) -/

/-- Settles O13: the overlay moves before the wait, which does not depend on it. -/
theorem fetchResult : Obligations.FetchResult := by
  intro s a inside wait u
  have hw : memWait (openCommand s) a = wait := memWaitAt_eq ..
  have hu : overlayUpdate a s = u := by
    simp only [overlayUpdate, isOverlayTrapAddress_eq]
    rfl
  rw [← hu, ← hw]
  exact ⟨fun h => exec_ok rfl (fetchBody_eq (s := openCommand s) h),
    fun h => exec_tickOverflow rfl (fetchBody_overflow (s := openCommand s) h)⟩

/-! ## READ (R141, R74) -/

/-- The byte the address map names (R73, R74, R81). -/
theorem memRead_slotMap {s : State} (h : s.slots = slotMap s.bank s.overlay) (a : Addr) :
    memRead s a =
      if a.toNat < 0x4000 then
        s.cfg.romByte (if s.overlay then 2 else if bankRomsel s.bank then 1 else 0) (offOf a)
      else if a.toNat < 0x8000 then ramByte s 5 (offOf a)
      else if a.toNat < 0xC000 then ramByte s 2 (offOf a)
      else ramByte s (bankRamsel s.bank) (offOf a) := by
  by_cases ha : a.toNat < 0x4000
  · rw [memRead_rom (slotAt_rom h ha), if_pos ha]
  · rw [memRead_ram (slotAt_ram h (Nat.not_lt.mp ha)), if_neg ha]
    split_ifs <;> rfl

/-- Settles O14: the slot map turns the read into the page of the address. -/
theorem readResult : Obligations.ReadResult := by
  intro s a hs wait off b
  have hw : memWait (openCommand s) a = wait := memWaitAt_eq ..
  have hb : memRead s a = b := by
    rw [memRead_slotMap hs, offOf_eq, bankRamsel_eq]
    rfl
  rw [← hb, ← hw]
  exact ⟨fun h => exec_ok rfl (readBody_eq (s := openCommand s) h),
    fun h => exec_tickOverflow rfl (readBody_overflow (s := openCommand s) h)⟩

/-! ## WRITE (R143, R75) -/

/-- A WRITE into RAM page p: its wait, a catch-up if p is the screen page, and the byte. -/
theorem exec_write_page {s : State} {a : Addr} {p : BitVec 3} {d : Byte} (hp : slotAt s a = .ram p)
    (ht : s.tick.toNat + memWait s a < 2 ^ 32) :
    let u : State := { s with tick := BitVec.ofNat 32 (s.tick.toNat + memWait s a) }
    exec (.write a.toNat d) s = .next
      { (if p = screenPage s.bank then renderTo (s.tick.toNat + memWait s a + 1) u else u) with
        ram := s.ram.setByte p (offOf a) d, response := .none, signals := [] } := by
  intro u
  have hu : u.tick.toNat = s.tick.toNat + memWait s a := by
    rw [BitVec.toNat_ofNat]
    exact Nat.mod_eq_of_lt ht
  have hwrite := write_ram (s := openCommand u) (d := d) hp
  rw [openCommand_tick, hu] at hwrite
  refine (exec_ok (i := .write a.toNat d) rfl (writeBody_eq (s := openCommand s) ht)).trans
    (congrArg Host.Outcome.next (hwrite.trans ?_))
  by_cases hscreen : p = screenPage s.bank
  · rw [if_pos hscreen, openCommand_bank, if_pos hscreen]
    rfl
  · rw [if_neg hscreen, openCommand_bank, if_neg hscreen]
    rfl

/-- Settles O15: below 0x4000 the address is in ROM, above it in the page of the slot map. -/
theorem writeResult : Obligations.WriteResult := by
  intro s a d hs hm wait off page u
  have hw : memWait (openCommand s) a = wait := memWaitAt_eq ..
  have hoff : offOf a = off := offOf_eq a
  have hpage : 0x4000 ≤ a.toNat → slotAt s a = .ram page := fun ha => by
    rw [slotAt_ram hs ha, bankRamsel_eq]
  rw [← hoff]
  clear_value wait
  subst hw
  refine ⟨fun ht ha => ?_, fun ht ha => ⟨s.ram.setByte page (offOf a) d, exec_write_page (hpage ha) ht, ?_⟩,
    fun ht => exec_tickOverflow rfl (writeBody_overflow (s := openCommand s) ht)⟩
  · have hrom : memWrite a d (catchUpForWrite a (openCommand u)) = openCommand u := write_rom (slotAt_rom hs ha)
    exact (exec_ok (i := .write a.toNat d) rfl (writeBody_eq (s := openCommand s) ht)).trans
      (congrArg Host.Outcome.next hrom)
  · exact fun p o => Memory.byte_setByte hm page p (offOf a) o d

/-! ## TICK (R144) -/

/-- Settles O16: TICK is one advance of `tick`. -/
theorem tickResult : Obligations.TickResult := fun s n =>
  ⟨fun h => exec_ok rfl (advanceTick_ok (s := openCommand s) (Nat.lt_of_le_pred (by decide) h)),
    fun h => exec_tickOverflow rfl (advanceTick_error (s := openCommand s) (Nat.le_of_pred_lt h))⟩

/-! ## IN (R145) -/

/-- Settles O17: a port sequence is one render to its last tick, or its overflow. -/
theorem inResult : Obligations.InResult := fun s _ =>
  ⟨fun h => exec_ok rfl (inpBody_eq (s := openCommand s) h),
    fun h => exec_tickOverflow rfl (inpBody_overflow (s := openCommand s) h)⟩

/-! ## OUT (R146) -/

/-- The registers OUT writes: the border of a border port, the bank fields of an unlocked bank port. -/
theorem portRegisters_eq (p : Addr) (d : Byte) (s : State) :
    portRegisters p d s =
      { s with
        border := if isBorderPort p then borderOf d else s.border
        bank := if isBankPort p && !s.locked then d else s.bank
        locked := if isBankPort p && !s.locked then bankLock d else s.locked
        slots := if isBankPort p && !s.locked then slotMap d s.overlay else s.slots } := by
  unfold portRegisters
  cases isBorderPort p <;> cases isBankPort p && !s.locked <;> rfl

/-- The catch-up of OUT continues the render of its port sequence. -/
theorem catchUpForOut_renderTo {e : Nat} (he : e < 2 ^ 32) (p : Addr) {s : State} (ht : s.tick.toNat = e) :
    catchUpForOut p (renderTo e s) =
      renderTo (if isBorderPort p || (isBankPort p && !s.locked) then e + 1 else e) s := by
  unfold catchUpForOut
  rw [renderTo_locked, renderTo_tick, ht]
  split
  · exact renderTo_renderTo (Nat.le_succ e) he
  · rfl

/-- What OUT does after a port sequence that ended at tick e. -/
theorem portWrite_renderTo {e : Nat} (he : e < 2 ^ 32) (p : Addr) (d : Byte) {s : State} (ht : s.tick.toNat = e) :
    portWrite p d (renderTo e s) =
      { renderTo (if isBorderPort p || (isBankPort p && !s.locked) then e + 1 else e) s with
        border := if isBorderPort p then borderOf d else s.border
        bank := if isBankPort p && !s.locked then d else s.bank
        locked := if isBankPort p && !s.locked then bankLock d else s.locked
        slots := if isBankPort p && !s.locked then slotMap d s.overlay else s.slots } := by
  rw [portWrite, catchUpForOut_renderTo he p ht, portRegisters_eq]
  rfl

/-- Settles O18: the port sequence, one render to the write's tick + 1, and the two registers. -/
theorem outResult : Obligations.OutResult := by
  intro s p d e isBorder isBank
  have hborder : isBorderPort p = isBorder := isBorderPort_eq p
  have hbank : (isBankPort p && !s.locked) = isBank := congrArg (· && !s.locked) (isBankPort_eq p)
  rw [← hborder, ← hbank, ← borderOf_eq]
  refine ⟨fun h => ?_, fun h => exec_tickOverflow rfl (outBody_overflow (s := openCommand s) h)⟩
  have htick : (BitVec.ofNat 32 e).toNat = e := (BitVec.toNat_ofNat ..).trans (Nat.mod_eq_of_lt h)
  exact (exec_ok (i := .out p.toNat d) rfl (outBody_eq (s := openCommand s) h)).trans
    (congrArg Host.Outcome.next
      (portWrite_renderTo h p d (s := openCommand { s with tick := BitVec.ofNat 32 e }) htick))

/-! ## BANK (R148) -/

/-- Settles O19: the lock decides whether anything happens. -/
theorem bankResult : Obligations.BankResult := by
  intro s v
  refine ⟨fun h => exec_ok rfl (congrArg Except.ok (if_pos h)), fun h => ?_⟩
  have hset : setBankRegister v (openCommand s) = bankFields v (renderTo (s.tick.toNat + 1) (openCommand s)) :=
    if_neg (by simp [h])
  rw [← bankRamsel_eq]
  exact exec_ok rfl (congrArg Except.ok hset)

end Sys2Proof.Machine
end

section
/-! The statements of 41_render.md: RENDER and the frame boundary, what one tick draws and fetches, blocks of eight
ticks, and that rendering early or in pieces gives the same pixels. -/
namespace Sys2Proof.Machine

/-! ## RENDER (R180) -/

/-- RENDER is admitted in either phase and is one render to its target. -/
theorem exec_render (t : BitVec 24) (s : State) :
    exec (.render t) s = .next { renderTo t.toNat s with response := .none, signals := [] } := exec_ok rfl rfl

theorem exec_render_of_renderTo {t : BitVec 24} {s u : State} (h : renderTo t.toNat s = u) :
    exec (.render t) s = .next { u with response := .none, signals := [] } := h ▸ exec_render t s

theorem renderTarget_lt (t : BitVec 24) : t.toNat < 2 ^ 32 := t.isLt.trans (by decide)

/-- A render to a 32-bit target writes the renderer's elements only. -/
theorem renderTo_eq {s : State} {n : Nat} (hn : n < 2 ^ 32) : renderTo n s = { s with video := (renderTo n s).video } :=
  congrArg (fun k => { s with video := (renderTo n s).video, freeCount := k }) (renderTo_freeCount hn)

/-- A render of the cursor's tick, as a whole state. -/
theorem renderTo_oneTick {s : State} {n : Nat} (h : n = s.video.cursor.toNat + 1) (hn : n < 2 ^ 32) :
    renderTo n s = { s with video := { processTick s.videoInputs s.video.cursor.toNat s.video with
                                        cursor := s.video.cursor + 1 } } := by
  rw [renderTo_eq hn, renderTo_one h hn]

/-- Settles O20: a render past the cursor is the render of one tick, continued. -/
theorem renderResult : Obligations.RenderResult := by
  intro s t
  have ht := renderTarget_lt t
  refine ⟨fun hle => ?_, fun hlt => ⟨?_, (renderTo t.toNat s).video, ?_, ?_⟩⟩
  · exact exec_render_of_renderTo (renderTo_of_le hle)
  · rw [exec_render, exec_render, ← renderTo_oneTick rfl (Nat.lt_of_le_of_lt hlt ht),
      renderTo_renderTo hlt (Nat.lt_of_le_of_lt hlt ht)]
  · exact exec_render_of_renderTo (renderTo_eq ht)
  · rw [renderTo_cursor ht]
    omega

/-! ## The frame boundary (R190, R191) -/

/-- The frame counter counts modulo 2^32 (R43). -/
theorem frameCtr_succ_toNat (n : BitVec 32) : (n + 1).toNat = (n.toNat + 1) % 2 ^ 32 := BitVec.toNat_add n 1

/-- NEWFRAME is admitted in either phase and is one frame start. -/
theorem exec_newframe (s : State) : exec .newframe s = .next (startNewFrame (openCommand s)) := exec_ok rfl rfl

/-- Settles O21: the frame start, with the new frame counter as a number. -/
theorem newframeResult : Obligations.NewframeResult := by
  intro s
  have hctr : BitVec.ofNat 32 ((s.frameCtr.toNat + 1) % 2 ^ 32) = s.frameCtr + 1 := by
    rw [← frameCtr_succ_toNat, BitVec.ofNat_toNat, BitVec.setWidth_eq]
  rw [hctr, ← frameCtr_succ_toNat]
  exact exec_newframe s

/-- A NEWFRAME word at the head of the stream. -/
theorem step_newframe {s : State} {rest : List Request} (h : s.pending = .word 0xA8000000 :: rest) :
    step s = .next (startNewFrame (openCommand { s with pending := rest })) :=
  (step_word h (by decide)).trans (exec_newframe _)

/-- From frame counter f on, the mask toggles at the frame start after 15 - f mod 16 others. -/
theorem run_newframes {n m : Nat} {s : State} (hs : s.pending = List.replicate m (.word 0xA8000000)) (hnm : n ≤ m)
    (hn : n ≤ 16) :
    ∃ t, Sys2Proof.core.run n s = .next t ∧
      t.flashMask = (if n ≤ 15 - s.frameCtr.toNat % 16 then s.flashMask else !s.flashMask) ∧
      t.frameCtr = s.frameCtr + BitVec.ofNat 32 n := by
  induction n generalizing m s with
  | zero => exact ⟨s, rfl, by simp, by simp⟩
  | succ n ih =>
    obtain ⟨m, rfl⟩ : ∃ m', m = m' + 1 := ⟨m - 1, by omega⟩
    rw [core_run_succ (step_newframe hs)]
    obtain ⟨t, hrun, hmask, hctr⟩ := ih (m := m)
      (s := startNewFrame (openCommand { s with pending := List.replicate m (.word 0xA8000000) })) rfl
      (by omega) (by omega)
    refine ⟨t, hrun, hmask.trans ?_, hctr.trans ?_⟩
    · have hmod : (s.frameCtr + 1).toNat % 16 = (s.frameCtr.toNat + 1) % 16 := by
        rw [frameCtr_succ_toNat]
        omega
      simp only [startNewFrame_flashMask, startNewFrame_frameCtr, openCommand_flashMask, openCommand_frameCtr, hmod]
      by_cases hlast : (s.frameCtr.toNat + 1) % 16 = 0
      · rw [if_pos hlast, if_pos (by omega), if_neg (by omega)]
      · rw [if_neg hlast]
        exact if_congr (by omega) rfl rfl
    · change s.frameCtr + BitVec.ofNat 32 1 + BitVec.ofNat 32 n = _
      rw [Nat.add_comm n 1, BitVec.ofNat_add, BitVec.add_assoc]

/-- Settles O22: sixteen counter values in a row hold exactly one multiple of 16. -/
theorem sixteenFramesToggleFlashOnce : Obligations.SixteenFramesToggleFlashOnce := fun s =>
  ⟨15 - s.frameCtr.toNat % 16, by omega, fun _ hn => run_newframes rfl hn hn⟩

/-! ## The regions of the frame in numbers (R173) -/

theorem inScreen_iff {c : Config} {l p : Nat} :
    inScreen c l p = true ↔ c.bt ≤ l ∧ l < c.bt + 192 ∧ c.bw ≤ p ∧ p < c.bw + 256 := by
  simp [inScreen, screenLine, and_assoc]

theorem inLatch_iff {c : Config} {l p : Nat} :
    inLatch c l p = true ↔ (c.bt ≤ l ∧ l < c.bt + 192) ∧ c.bw - 8 ≤ p ∧ p < c.bw + 248 := by
  simp [inLatch, screenLine, and_assoc]

theorem inVisible_iff {c : Config} {l p : Nat} :
    inVisible c l p = true ↔ l < c.bt + 192 + c.bb ∧ p < 2 * c.bw + 256 := by
  rw [inVisible, Bool.and_eq_true, decide_eq_true_eq, decide_eq_true_eq]
  rfl

theorem inVisible_of_inScreen {c : Config} {l p : Nat} (h : inScreen c l p = true) : inVisible c l p = true := by
  rw [inScreen_iff] at h
  rw [inVisible_iff]
  omega

/-- The constraints of R10 on the width of the border. -/
theorem Config.bw_bounds (c : Config) : c.bw % 4 = 0 ∧ 8 ≤ c.bw ∧ 2 * c.bw + 256 ≤ 2 * c.tpl := by
  have := c.ok
  simp only [RawConfig.valid, Bool.and_eq_true, decide_eq_true_eq] at this
  omega

/-! ## One tick (R179) -/

/-- RENDER of the cursor's tick. -/
theorem exec_render_oneTick {s : State} {t : BitVec 24} (h : t.toNat = s.video.cursor.toNat + 1) :
    exec (.render t) s = .next { s with
      video := { processTick s.videoInputs s.video.cursor.toNat s.video with cursor := s.video.cursor + 1 }
      response := .none
      signals := [] } :=
  exec_render_of_renderTo (renderTo_oneTick h (renderTarget_lt t))

theorem processTick_beforeImage {x : VideoInputs} {t : Nat} (h : (t : Int) + x.cfg.frameTickOffset < 0) (v : Video) :
    processTick x t v = v := by
  rw [processTick, rasterPos_none h]

theorem processTick_atRaster {x : VideoInputs} {t l p : Nat} (h : atRaster x.cfg t l p) (v : Video) :
    processTick x t v = processAt x l p v := by
  rw [processTick, rasterPos_of_atRaster h]

section
variable {x : VideoInputs} {l p : Nat} {v : Video}

/-- Before a tick draws, the buffer still has room for its pair. -/
theorem beforeDraw_room (hv : v.shaped x.cfg) (h : inVisible x.cfg l p = true) :
    l < (beforeDraw x l p v).chunks.length ∧ p / 8 < ((beforeDraw x l p v).chunks.getD l []).length := by
  simp only [inVisible, Bool.and_eq_true, decide_eq_true_eq] at h
  rw [beforeDraw_chunks]
  exact Video.shaped_room hv h.1 h.2

/-- Outside the visible envelope a tick draws nothing (R179). -/
theorem processAt_chunks_of_not_visible (h : ¬ inVisible x.cfg l p = true) : (processAt x l p v).chunks = v.chunks := by
  obtain hc | ⟨hvis, -⟩ := processAt_cases x l p v
  · rw [hc, beforeDraw_chunks]
  · exact absurd hvis h

/-- A border tick sets its two pixels (R178). -/
theorem pixelAt_processAt_border (hv : v.shaped x.cfg) (hvis : inVisible x.cfg l p = true)
    (hsc : ¬ inScreen x.cfg l p = true) (r q : Nat) :
    pixelAt (processAt x l p v) r q = if r = l ∧ q / 2 = p / 2 then borderNibble x else pixelAt v r q := by
  have hborder : inBorder x.cfg l p = true := by simp [inBorder, hvis, hsc]
  have hdraw : processAt x l p v = putPair l p (borderNibble x) (borderNibble x) (beforeDraw x l p v) :=
    (if_neg hsc).trans (if_pos hborder)
  rw [hdraw]
  split
  · rename_i hpair
    obtain ⟨rfl, hq⟩ := hpair
    obtain ⟨hl, hp⟩ := beforeDraw_room hv hvis
    rw [pixelAt_putPair_pair hq hl hp, ite_self]
  · rename_i hother
    rw [pixelAt_putPair_other hother, pixelAt, chunkAt, beforeDraw_chunks]
    rfl

/-- A screen tick merges its pair, taken from the shadow pair it leaves, into its chunk (R176, R177). -/
theorem chunkAt_processAt_screen (hv : v.shaped x.cfg) (h : inScreen x.cfg l p = true) (r c : Nat) :
    chunkAt (processAt x l p v) r c =
      if r = l ∧ c = p / 8 then
        mergePair (p % 8 / 2)
          (screenNibble x.flashMask ((processAt x l p v).shadowPat.getLsbD (7 - (p - x.cfg.bw) % 8))
            (processAt x l p v).shadowAttr)
          (screenNibble x.flashMask ((processAt x l p v).shadowPat.getLsbD (6 - (p - x.cfg.bw) % 8))
            (processAt x l p v).shadowAttr)
          (chunkAt v r c)
      else chunkAt v r c := by
  have hchunk : chunkAt (beforeDraw x l p v) r c = chunkAt v r c := by rw [chunkAt, chunkAt, beforeDraw_chunks]
  obtain ⟨-, -, hpat, hattr, -⟩ := processAt_latches x l p v
  rw [hpat, hattr, processAt_screen x h, drawScreen, chunkAt_putPair, hchunk]
  obtain ⟨hl, hp⟩ := beforeDraw_room hv (inVisible_of_inScreen h)
  refine if_congr ⟨fun ⟨hr, hc, _⟩ => ⟨hr, hc⟩, fun ⟨hr, hc⟩ => ⟨hr, hc, hl, ?_⟩⟩ rfl rfl
  rwa [hc]

end

/-- The border colour index is the border register, bright bit 0 (R113, R178). -/
theorem borderNibble_eq (x : VideoInputs) : borderNibble x = x.border.setWidth 4 := by
  apply BitVec.eq_of_toNat_eq
  have hlt : x.border.toNat < 2 ^ 4 := x.border.isLt.trans (by decide)
  have hdark : (BitVec.ofBool false).toNat = 0 := rfl
  rw [borderNibble, colourIndex, toNat_append_add, hdark, BitVec.toNat_setWidth, Nat.mod_eq_of_lt hlt, Nat.zero_mul,
    Nat.zero_add]

/-- Settles O23: no position, no pair, or a pair of border pixels. -/
theorem borderTickDrawsTwoPixels : Obligations.BorderTickDrawsTwoPixels := by
  intro s t hs ht
  refine ⟨_, exec_render_oneTick ht, fun hbefore => ?_, fun l p hr => ?_⟩
  · rw [processTick_beforeImage (x := s.videoInputs) hbefore]
  rw [processTick_atRaster (x := s.videoInputs) hr]
  refine ⟨fun hvis => processAt_chunks_of_not_visible (mt inVisible_iff.mp hvis), fun hvis hsc r q => ?_⟩
  have hpixel := pixelAt_processAt_border (x := s.videoInputs) hs (inVisible_iff.mpr hvis) (mt inScreen_iff.mp hsc) r q
  rw [borderNibble_eq] at hpixel
  exact hpixel

/-- Settles O24: the pair is read back out of the merged chunk. -/
theorem screenTickDrawsTwoPixels : Obligations.ScreenTickDrawsTwoPixels := by
  intro s t l p hs ht hr hline hp
  have hin : inScreen s.videoInputs.cfg l p = true := inScreen_iff.mpr ⟨hline.1, hline.2, hp⟩
  have hchunk := chunkAt_processAt_screen (x := s.videoInputs) hs hin
  have heven := hr.2.1
  refine ⟨_, exec_render_oneTick ht, ?_⟩
  rw [processTick_atRaster (x := s.videoInputs) hr]
  intro k a index chunk
  have hc : chunk = _ := (hchunk l (p / 8)).trans (if_pos ⟨rfl, rfl⟩)
  refine ⟨?_, ?_, fun b hb hother => ?_, fun r c hrc => (hchunk r c).trans (if_neg hrc)⟩
  · rw [← extract_nibble_toNat, hc, extract_mergePair (by omega) (by omega), if_pos rfl, if_pos (by omega),
      screenNibble_toNat]
    rfl
  · rw [← extract_nibble_toNat, hc, extract_mergePair (by omega) (by omega), if_pos (by omega), if_neg (by omega),
      screenNibble_toNat]
    rfl
  · rw [hc, getLsbD_mergePair (by omega) hb, if_neg hother]

/-! ## Screen memory and the latches (R172, R174, R175) -/

theorem patternOff_eq {y c : Nat} (hy : y < 192) (hc : c < 32) :
    patternOff y c = BitVec.ofNat 14 (y / 64 * 2048 + y % 8 * 256 + y / 8 % 8 * 32 + c) := by
  rw [← patternOff_toNat hy hc, BitVec.ofNat_toNat, BitVec.setWidth_eq]

/-- The line and the column, read back out of the digits of their pattern_off. -/
theorem digits_of_patternOff {y c : Nat} (hy : y < 192) (hc : c < 32) :
    y = (patternOff y c).toNat / 2048 * 64 + (patternOff y c).toNat / 32 % 8 * 8 + (patternOff y c).toNat / 256 % 8 ∧
    c = (patternOff y c).toNat % 32 ∧ (patternOff y c).toNat < 0x1800 := by
  have hdigits : y = y / 64 * 64 + y / 8 % 8 * 8 + y % 8 := by omega
  have hthird : y / 64 < 3 := by omega
  have hrow := Nat.mod_lt (y / 8) (by decide : 8 > 0)
  have hbit := Nat.mod_lt y (by decide : 8 > 0)
  rw [patternOff_toNat hy hc]
  generalize y / 64 = third, y / 8 % 8 = row, y % 8 = bit at *
  have hfirst : (third * 2048 + bit * 256 + row * 32 + c) / 2048 = third := by omega
  have hmiddle : (third * 2048 + bit * 256 + row * 32 + c) / 256 = third * 8 + bit := by omega
  have hlast : (third * 2048 + bit * 256 + row * 32 + c) / 32 = (third * 8 + bit) * 8 + row := by omega
  rw [hfirst, hmiddle, hlast, Nat.mul_add_mod_self_right, Nat.mul_add_mod_self_right, Nat.mod_eq_of_lt hrow,
    Nat.mod_eq_of_lt hbit]
  exact ⟨hdigits, by omega, by omega⟩

/-- The cell of a line and a column, read back out of its attr_off. -/
theorem digits_of_attrOff {y c : Nat} (hy : y < 192) (hc : c < 32) :
    y / 8 = ((attrOff y c).toNat - 0x1800) / 32 ∧ c = (attrOff y c).toNat % 32 ∧
    0x1800 ≤ (attrOff y c).toNat ∧ (attrOff y c).toNat ≤ 0x1AFF := by
  rw [attrOff_toNat hy hc]
  omega

/-- Settles O28: a line and a column, or a cell, are read back out of the offset. -/
theorem screenLayoutIsOneToOne : Obligations.ScreenLayoutIsOneToOne := by
  intro y c y' c' hy hc hy' hc'
  obtain ⟨hline, hcol, hpat⟩ := digits_of_patternOff hy hc
  obtain ⟨hline', hcol', -⟩ := digits_of_patternOff hy' hc'
  obtain ⟨hcell, hacol, hlo, hhi⟩ := digits_of_attrOff hy hc
  obtain ⟨hcell', hacol', -, -⟩ := digits_of_attrOff hy' hc'
  refine ⟨hpat, hlo, hhi, fun h => ?_, fun h => ?_⟩
  · rw [← h] at hline' hcol'
    exact ⟨hline.trans hline'.symm, hcol.trans hcol'.symm⟩
  · rw [← h] at hcell' hacol'
    exact ⟨hcell.trans hcell'.symm, hacol.trans hacol'.symm⟩

/-- Settles O25: the latch rules of one tick, with the offsets as numbers. -/
theorem oneTickOfTheLatches : Obligations.OneTickOfTheLatches := by
  intro s t ht
  refine ⟨_, exec_render_oneTick ht, fun hbefore => ?_, fun l p hr => ?_⟩
  · rw [processTick_beforeImage (x := s.videoInputs) hbefore]
  intro line latch copy y c page
  obtain ⟨hpat, hattr, hff, hspat, hsattr⟩ :=
    processTick_latches (x := s.videoInputs) (v := s.video) (rasterPos_of_atRaster hr)
  have hlatch : inLatch s.cfg l p = true ↔ latch := inLatch_iff
  have hcopy : startsBlock s.videoInputs l p = true ↔ copy := by
    rw [startsBlock, Bool.and_eq_true, inScreen_iff, decide_eq_true_eq]
    simp only [copy, line, and_assoc]
    rfl
  refine ⟨hpat.trans ?_, hattr.trans ?_, hff.trans ?_, hspat.trans ?_, hsattr.trans ?_⟩
  · by_cases h : latch
    · have hoff : patternOff y c = _ := patternOff_eq (by omega) (by omega)
      exact if_ctx_congr (and_congr_left' hlatch) (fun _ => congrArg (ramByte s page) hoff) (fun _ => rfl)
    · rw [if_neg (fun hh => h (hlatch.mp hh.1)), if_neg (fun hh => h hh.1)]
  · exact if_congr (and_congr_left' hlatch) rfl rfl
  · exact if_congr hlatch rfl rfl
  · exact if_congr hcopy rfl rfl
  · exact if_congr hcopy rfl rfl

/-! ## Rendering in pieces (R182, R183) -/

/-- The renderer's elements after a render, whether or not it has ticks to process. -/
theorem renderTo_video {s : State} {n : Nat} (hn : n < 2 ^ 32) :
    (renderTo n s).video =
      { renderTicks s.videoInputs (n - s.video.cursor.toNat) s.video.cursor.toNat s.video with
        cursor := BitVec.ofNat 32 (max s.video.cursor.toNat n) } := by
  by_cases h : s.video.cursor.toNat < n
  · rw [renderTo_video_of_lt h, cursorAfter, if_pos hn, Nat.max_eq_right h.le]
  · rw [renderTo_of_le (Nat.not_lt.mp h), Nat.sub_eq_zero_of_le (Nat.not_lt.mp h),
      Nat.max_eq_left (Nat.not_lt.mp h), BitVec.ofNat_toNat, BitVec.setWidth_eq]
    rfl

/-- Settles O29: renders compose, and TICK and RENDER write different elements. -/
theorem renderingEarlyChangesNothing : Obligations.RenderingEarlyChangesNothing := by
  intro s u v hu
  rw [exec_render] at hu
  cases hu
  refine ⟨fun v' hle => ?_, fun n w hw hnone => ?_⟩
  · rw [exec_render, exec_render]
    exact congrArg (fun u : State => Host.Outcome.next { u with response := .none, signals := [] })
      (renderTo_renderTo (s := s) hle (renderTarget_lt v))
  · obtain ⟨hlt, htick⟩ | ⟨hge, htick⟩ := advanceTick_cases n.toNat (openCommand s)
    · rw [exec_ok (i := .tick n) rfl htick] at hw
      cases hw
      rw [exec_render]
      exact (exec_ok (i := .tick n) rfl
        (advanceTick_ok (s := openCommand { renderTo v.toNat s with response := .none, signals := [] }) hlt)).symm
    · rw [exec_error (i := .tick n) rfl htick] at hw
      cases hw
      cases hnone

/-- Settles O30: what every other command draws is a render, which starts at the cursor. -/
theorem renderedPixelsStay : Obligations.RenderedPixelsStay := by
  intro i s u t l p q hrun hnew hreset h ht hr hq
  obtain ⟨c, -, rfl⟩ | ⟨-, hc⟩ | ⟨-, f, rfl⟩ := exec_completes h
  · rfl
  · obtain ⟨n, hv, -⟩ := hc.video hrun hnew hreset
    have heven := hr.2.1
    rw [hv]
    exact pixelAt_renderTo_earlier (s := openCommand s) ht (rasterPos_of_atRaster hr) (by omega)
  · rfl

/-! ## Blocks (R181, R184) -/

/-- A block of the screen, seen by ticks that share all inputs but RAM. -/
theorem BlockView.of_position {X : Nat → VideoInputs} {c : Config} {b : Byte} {f : Bool} {y col : Nat}
    (hX : ∀ u, (X u).cfg = c ∧ (X u).bank = b ∧ (X u).flashMask = f) (hy : y < 192) (hc : col < 32) :
    BlockView X c b f y col where
  cfg u := (hX u).1
  bank u := (hX u).2.1
  mask u := (hX u).2.2
  line := hy
  col := hc
  left := (Config.bw_bounds c).2.1
  even := (Config.bw_bounds c).1

/-- Settles O26: eight ticks with the same inputs. -/
theorem blockIsDrawnFromItsBytes : Obligations.BlockIsDrawnFromItsBytes := by
  intro s t y c k hs hy hc hk ht hr page pat attr isInk
  have hview : BlockView (fun _ => s.videoInputs) s.cfg s.bank s.flashMask y c :=
    .of_position (fun _ => ⟨rfl, rfl, rfl⟩) hy hc
  obtain ⟨hff, hpix⟩ := hview.pixels hs (rasterPos_of_atRaster hr)
  rw [ticksWith_eq_renderTicks fun _ _ _ => rfl] at hff hpix
  have hvideo := renderTo_video (s := s) (renderTarget_lt t)
  rw [ht, Nat.add_sub_cancel_left] at hvideo
  refine ⟨_, exec_render t s, ?_, ?_⟩
  · rw [ht, hvideo]
    exact hff
  · rw [ht, hvideo]
    refine (congrArg BitVec.toNat (hpix k hk)).trans ?_
    rw [screenNibble_toNat, patternOff_eq hy hc]
    rfl

/-! ## A WRITE during a block (R143, R181) -/

/-- The inputs of tick t when `s` is rendered up to a catch-up target m and the rest from `u`. -/
def catchUpInputs (s u : State) (m t : Nat) : VideoInputs :=
  if t < max s.video.cursor.toNat m then s.videoInputs else u.videoInputs

/-- n ticks from the cursor, with a catch-up among them, give every pixel they reach, even where the catch-up went past
them. -/
theorem pixelAt_renderTo_catchUp {s u : State} {m n t0 l p q : Nat} (hm : m < 2 ^ 32)
    (hn : s.video.cursor.toNat + n < 2 ^ 32) (hu : u.video = (renderTo m s).video)
    (ht0 : t0 < s.video.cursor.toNat + n) (hr : rasterPos s.cfg t0 = some (l, p)) (hq : q / 2 = p / 2) :
    pixelAt (renderTo (s.video.cursor.toNat + n) u).video l q =
      pixelAt (ticksWith (catchUpInputs s u m) n s.video.cursor.toNat s.video) l q := by
  have hcur : u.video.cursor.toNat = max s.video.cursor.toNat m := by rw [hu, renderTo_cursor hm]
  by_cases hle : m ≤ s.video.cursor.toNat + n
  · have hsplit : max s.video.cursor.toNat m = s.video.cursor.toNat + (m - s.video.cursor.toNat) := by omega
    have hcount : n = (m - s.video.cursor.toNat) + (s.video.cursor.toNat + n - max s.video.cursor.toNat m) := by omega
    have hticks := renderTicks_then s.videoInputs u.videoInputs (m - s.video.cursor.toNat)
      (s.video.cursor.toNat + n - max s.video.cursor.toNat m) s.video.cursor.toNat s.video
    rw [← hcount, ← hsplit] at hticks
    rw [renderTo_video hn, hcur, hu, renderTo_video hm, renderTicks_setCursor, hticks]
    rfl
  · rw [renderTo_of_le (s := u) (by omega), hu, ← renderTo_renderTo (m := s.video.cursor.toNat + n) (by omega) hn,
      pixelAt_renderTo_earlier (s := renderTo (s.video.cursor.toNat + n) s) (by rw [renderTo_cursor hn]; omega) hr hq,
      renderTo_video hn, Nat.add_sub_cancel_left,
      ticksWith_eq_renderTicks (X := catchUpInputs s u m) (x := s.videoInputs) fun t _ ht => if_pos (by omega)]
    rfl

/-- Later ticks of a line (R171). -/
theorem atRaster_add {c : Config} {t l p i : Nat} (h : atRaster c t l p) (hp : p + 2 * i < 2 * c.tpl) :
    atRaster c (t + i) l (p + 2 * i) := by
  obtain ⟨hft, heven, -⟩ := h
  refine ⟨?_, by omega, hp⟩
  generalize l * c.tpl = start at *
  omega

/-- What the renderer sees of a WRITE from `s` to `u` (R143): the byte, and either a catch-up to the tick after it or no
change in the screen page. -/
def WriteSeen (s u : State) : Prop :=
  u.videoInputs = { s.videoInputs with ram := u.ram } ∧
  (u.video = (renderTo (u.tick.toNat + 1) s).video ∨
    u.video = s.video ∧ ∀ o, ramByte u (screenPage s.bank) o = ramByte s (screenPage s.bank) o)

theorem Completes.writeSeen {s u : State} {a : Nat} {d : Byte} (h : Completes (.write a d) s u) : WriteSeen s u := by
  cases h with
  | write x _ _ hl =>
    cases hslot : slotAt s x with
    | rom p =>
      rw [write_rom (s := { s with tick := BitVec.ofNat 32 (s.tick.toNat + memWait s x) }) hslot]
      exact ⟨rfl, .inr ⟨rfl, fun _ => rfl⟩⟩
    | ram p =>
      rw [write_ram (s := { s with tick := BitVec.ofNat 32 (s.tick.toNat + memWait s x) }) hslot]
      by_cases hp : p = screenPage s.bank
      · rw [if_pos hp]
        exact ⟨rfl, .inl (renderTo_video_congr rfl rfl rfl _)⟩
      · rw [if_neg hp]
        exact ⟨rfl, .inr ⟨rfl, fun o => Memory.byte_setByte_other fun hsame => hp hsame.1.symm⟩⟩

theorem exec_write_seen {s u : State} {a : Nat} {d : Byte} (h : exec (.write a d) s = .next u) : WriteSeen s u := by
  obtain ⟨c, -, rfl⟩ | ⟨-, hc⟩ | ⟨-, f, rfl⟩ := exec_completes h
  · exact ⟨rfl, .inr ⟨rfl, fun _ => rfl⟩⟩
  · exact (hc.writeSeen :)
  · exact ⟨rfl, .inr ⟨rfl, fun _ => rfl⟩⟩

theorem WriteSeen.inputs {s u : State} (h : WriteSeen s u) (m t : Nat) :
    (catchUpInputs s u m t).cfg = s.cfg ∧ (catchUpInputs s u m t).bank = s.bank ∧
    (catchUpInputs s u m t).flashMask = s.flashMask := by
  unfold catchUpInputs
  rw [h.1]
  split <;> exact ⟨rfl, rfl, rfl⟩

/-- The catch-up target of a WRITE that lands at tick W: a fetch i + 1 ticks after the cursor reads the byte from after
the write exactly if W is at most i ticks after the cursor (R181). -/
theorem WriteSeen.target {s u : State} (h : WriteSeen s u) (hW : u.tick.toNat < 2 ^ 32 - 1) :
    ∃ m, m < 2 ^ 32 ∧ u.video = (renderTo m s).video ∧ ∀ i o,
      (catchUpInputs s u m (s.video.cursor.toNat + (i + 1))).ram.byte (screenPage s.bank) o =
        ramByte (if u.tick.toNat ≤ s.video.cursor.toNat + i then u else s) (screenPage s.bank) o := by
  obtain ⟨-, hcatch | ⟨hvideo, hsame⟩⟩ := h
  · refine ⟨u.tick.toNat + 1, by omega, hcatch, fun i o => ?_⟩
    unfold catchUpInputs
    by_cases hi : u.tick.toNat ≤ s.video.cursor.toNat + i
    · rw [if_neg (by omega), if_pos hi]
      rfl
    · rw [if_pos (by omega), if_neg hi]
      rfl
  · refine ⟨0, by decide, by rw [renderTo_zero, hvideo], fun i o => ?_⟩
    rw [catchUpInputs, if_neg (by omega)]
    split
    · rfl
    · exact hsame o

/-- Settles O27: the block's two fetches fall before or after the catch-up of the write. -/
theorem writeIsDrawnFromItsTick : Obligations.WriteIsDrawnFromItsTick := by
  intro s u v a d t y c k hs hy hc hk ht hr hwrite hW hv T0 W page pat attr isInk
  have hseen := exec_write_seen hwrite
  obtain ⟨m, hm, hcatch, hbyte⟩ := hseen.target hW
  rw [exec_render] at hv
  cases hv
  have hview : BlockView (catchUpInputs s u m) s.cfg s.bank s.flashMask y c := .of_position (hseen.inputs m) hy hc
  obtain ⟨-, hpix⟩ := hview.pixels hs (rasterPos_of_atRaster hr)
  obtain ⟨heven, hleft, htpl⟩ := Config.bw_bounds s.cfg
  have hpos := atRaster_add (i := 4 + k / 2) hr (by omega)
  have hcur : s.video.cursor.toNat + 8 < 2 ^ 32 := ht ▸ renderTarget_lt t
  have hdraw := pixelAt_renderTo_catchUp (n := 8) (q := s.cfg.bw + 8 * c + k) hm hcur hcatch (by omega)
    (rasterPos_of_atRaster hpos) (by omega)
  rw [← ht] at hdraw
  have hpat : (catchUpInputs s u m (s.video.cursor.toNat + if s.video.fetchFf then 3 else 2)).ram.byte
      (screenPage s.bank) (patternOff y c) = pat := by
    rw [patternOff_eq hy hc]
    cases hff : s.video.fetchFf <;> simp only [pat, hff] <;> exact hbyte _ _
  have hattr : (catchUpInputs s u m (s.video.cursor.toNat + if s.video.fetchFf then 2 else 3)).ram.byte
      (screenPage s.bank) (attrOff y c) = attr := by
    cases hff : s.video.fetchFf <;> simp only [attr, hff] <;> exact hbyte _ _
  have hnibble := hpix k hk
  rw [hpat, hattr] at hnibble
  exact (congrArg BitVec.toNat (hdraw.trans hnibble)).trans (screenNibble_toNat ..)

end Sys2Proof.Machine
end

section
/-! The statements of 42_scheduler.md, and PORTSET with SETMARK: RUN and STEPEND as whole next states, what ends a run,
and the commands that write one element each. -/
namespace Sys2Proof.Machine

/-! ## Admission (R108) -/

/-- An IDLE-only command in IDLE completes when its effect does. -/
theorem exec_idleOnly {i : Instr} {s t : State} (hs : s.phase = .idle) (hi : Admission.of i.mnemonic = .idleOnly)
    (hb : bodyOf i (openCommand s) = .ok t) : exec i s = .next t :=
  exec_ok (by rw [hi, hs]; rfl) hb

/-- STEPEND in AWAIT_STEP is the scheduler's step at the reported PC (R147). -/
theorem exec_stepend {s : State} (pc : Addr) (hs : s.phase = .awaitStep) :
    exec (.stepend pc.toNat) s = .next (schedulerAfterStep pc (openCommand s)) :=
  exec_ok (by rw [hs]; rfl) (by simp [bodyOf, stependBody, Except.map])

/-! ## The parts of the scheduler (R212 to R216) -/

section
variable (s : State)

/-- An event bit is added to the mask and nothing else changes (R285). -/
theorem setEventIf_eq (c : Bool) (ev : Byte) :
    setEventIf c ev s = { s with events := s.events ||| if c then ev else 0 } := by
  cases c
  · simp [setEventIf]
  · rfl

/-- The event mask after the limit checks and the breakpoint check (R214, R215), in numbers. -/
def checkedEvents (pc : Addr) : Byte :=
  s.events ||| (if s.tlimEn && decide (s.tlim.toNat ≤ s.tick.toNat) then 0x02 else 0)
    ||| (if s.flimEn && decide (s.flim.toNat ≤ s.fetchCount.toNat) then 0x04 else 0)
    ||| (if (markAt s pc).getLsbD 0 then 0x08 else 0)

/-- The limit checks and the breakpoint check write that mask and nothing else. -/
theorem breakpointCheck_limitChecks (pc : Addr) :
    breakpointCheck pc (limitChecks s) = { s with events := checkedEvents s pc } := by
  simp only [breakpointCheck, limitChecks, setEventIf_eq]
  rfl

/-- R212, R213: the level of the coming step is driven and signalled, and the step is asked for. -/
theorem beginIteration_eq :
    beginIteration s = { s with intLine := intLevel s, phase := .awaitStep,
                                signals := s.signals ++ [.int (intLevel s), .step] } := by
  simp [beginIteration, intCheck, cpuSignal]

/-- R216: from a command's start with the mask `e`, the end of a frame is rendered to and added to the mask, the line
drops and the mask is the answer. -/
theorem loopExit_openCommand (e : Byte) :
    let ev : Byte := e ||| if frameEnded s then 0x10 else 0
    loopExit { openCommand s with events := e } =
      { (if frameEnded s then renderTo s.cfg.frameLen s else s) with
        events := ev, intLine := false, phase := .idle, response := .events ev, signals := [.int false] } := by
  have hend : frameEnded { openCommand s with events := e } = frameEnded s := rfl
  unfold loopExit finishFrame
  rw [hend]
  cases frameEnded s
  · simp [cpuSignal, respond]
  · simp only [if_true, setEventIf_eq, cpuSignal, respond]
    rfl

end

section
variable {s : State} {pc : Addr}

/-- A STEPEND after which an event is set or the frame is over ends the loop (R217). -/
theorem schedulerAfterStep_of_stop (h : checkedEvents s pc ≠ 0 ∨ frameEnded s = true) :
    schedulerAfterStep pc s = loopExit { s with events := checkedEvents s pc } := by
  simp only [schedulerAfterStep, breakpointCheck_limitChecks]
  exact if_pos h

/-- A STEPEND after which neither holds starts the next step (R217). -/
theorem schedulerAfterStep_of_no_stop (hev : s.events = 0) (hck : checkedEvents s pc = 0)
    (hend : frameEnded s = false) :
    schedulerAfterStep pc s = beginIteration s := by
  have hs : { s with events := checkedEvents s pc } = s := by rw [hck, ← hev]
  simp only [schedulerAfterStep, breakpointCheck_limitChecks, hs]
  exact if_neg (by simp [hev, hend])

/-- With no event set, no limit reached and no breakpoint, the checks leave the mask clear. -/
theorem checkedEvents_eq_zero (hev : s.events = 0) (ht : s.tlimEn = true → s.tick.toNat < s.tlim.toNat)
    (hf : s.flimEn = true → s.fetchCount.toNat < s.flim.toNat) (hb : (markAt s pc).getLsbD 0 = false) :
    checkedEvents s pc = 0 := by
  have htick : ¬ (s.tlimEn && decide (s.tlim.toNat ≤ s.tick.toNat)) = true := by simpa using ht
  have hfetch : ¬ (s.flimEn && decide (s.flim.toNat ≤ s.fetchCount.toNat)) = true := by simpa using hf
  rw [checkedEvents, hev, if_neg htick, if_neg hfetch, hb]
  rfl

end

/-! ## RUN, STEPEND and STOP (R211, R217, R218) -/

/-- RUN in IDLE is a frame start when the frame is over, then the first iteration with no event set (R211). -/
theorem exec_run {s : State} (hs : s.phase = .idle) :
    exec .run s = .next (respond .running
      (beginIteration { (if frameEnded s then startNewFrame (openCommand s) else openCommand s) with events := 0 })) :=
  exec_idleOnly hs rfl rfl

/-- Settles O31: with or without the frame start, the first iteration writes the level of the tick it finds. -/
theorem runResult : Obligations.RunResult := by
  intro s hs
  have hend : frameEnded s = decide (s.cfg.tpl * s.cfg.lpf ≤ s.tick.toNat) := rfl
  rw [exec_run hs, beginIteration_eq, intLevel_eq, hend]
  by_cases h : s.cfg.tpl * s.cfg.lpf ≤ s.tick.toNat
  · simp only [h, decide_true, if_true]
    rfl
  · simp only [h, decide_false, if_false]
    rfl

/-- Settles O32: no check sets a bit and the frame is not over, so the next step begins. -/
theorem stependContinues : Obligations.StependContinues := by
  intro s pc hs hev ht hf hb hlen
  have hck : checkedEvents (openCommand s) pc = 0 := checkedEvents_eq_zero hev ht hf hb
  have hend : frameEnded (openCommand s) = false := decide_eq_false (Nat.not_le.mpr hlen)
  rw [exec_stepend pc hs, schedulerAfterStep_of_no_stop (s := openCommand s) hev hck hend, beginIteration_eq,
    ← intLevel_eq, hs]
  rfl

/-- Settles O33: a mask that is not 0 has an event of the checks in it or the end of the frame. -/
theorem stependExits : Obligations.StependExits := by
  intro s pc hs tl fl bp ended ev hev
  have hstop : checkedEvents (openCommand s) pc ≠ 0 ∨ frameEnded (openCommand s) = true := by
    by_contra! hnone
    obtain ⟨hck, hend⟩ := hnone
    have hmask : ev = checkedEvents (openCommand s) pc ||| if frameEnded (openCommand s) then 0x10 else 0 := rfl
    rw [hck, if_neg hend] at hmask
    exact hev hmask
  rw [exec_stepend pc hs, schedulerAfterStep_of_stop hstop, loopExit_openCommand]
  rfl

/-- Settles O34: STOP is admitted in either phase and only sets its bit. -/
theorem stopResult : Obligations.StopResult := fun _ => exec_ok rfl rfl

/-- An event mask with STOP's bit set is not empty. -/
theorem ne_zero_of_stop {ev : Byte} (h : ev.getLsbD 0 = true) : ev ≠ 0 := by
  rintro rfl
  simp at h

/-- Settles O35: STOP's bit stays in the mask of the next STEPEND, so the mask is not 0 and the loop exits. -/
theorem stopEndsTheRun : Obligations.StopEndsTheRun := by
  intro s pc hs
  have hbit (a b c d : Byte) : ((s.events ||| 0x01) ||| a ||| b ||| c ||| d).getLsbD 0 = true := by simp
  exact ⟨_, _, _, stopResult s, stependExits _ pc hs (ne_zero_of_stop (hbit ..)), rfl, rfl, hbit ..⟩

/-! ## Marks, injected ports, limits and the interrupt switch (R219 to R222, R248) -/

/-- Settles O37: both commands are one write to a canonical table. -/
theorem setmarkAndPortsetResult : Obligations.SetmarkAndPortsetResult := by
  intro s a f v hs hm hp
  refine ⟨⟨{ openCommand s with marks := Table.set 0 s.marks a.toNat f }, ?_, rfl, fun b => ?_⟩,
    ⟨{ openCommand s with portOvr := Table.set none s.portOvr a.toNat (some v) }, ?_, rfl, fun b => ?_⟩⟩
  · exact exec_idleOnly hs rfl (by simp [bodyOf, setmarkBody, Except.map])
  · simp only [markAt, Table.get_set hm, BitVec.toNat_inj]
  · exact exec_idleOnly hs rfl (by simp [bodyOf, portsetBody, Except.map])
  · simp only [portValue, Table.get_set hp, BitVec.toNat_inj]

/-- Settles O38: each command's effect is its own writes. -/
theorem limitAndSuppressResult : Obligations.LimitAndSuppressResult := fun _ _ _ hs =>
  ⟨exec_idleOnly hs rfl rfl, exec_idleOnly hs rfl rfl, exec_idleOnly hs rfl rfl⟩

end Sys2Proof.Machine
end

section
/-! The statements of 43_host.md: POKE and POKEP, construction and RESET, the signals to the CPU core, and GETGEOM. -/
namespace Sys2Proof.Machine

/-! ## POKE and POKEP (R243, R244) -/

/-- A memory write through a ROM slot is dropped (R75). -/
theorem memWrite_rom {s : State} {a : Addr} {p : BitVec 2} (h : slotAt s a = .rom p) (d : Byte) :
    memWrite a d s = s := by
  simp [memWrite, h]

/-- A memory write through a RAM slot writes the addressed byte of its page (R75). -/
theorem memWrite_ram {s : State} {a : Addr} {p : BitVec 3} (h : slotAt s a = .ram p) (d : Byte) :
    memWrite a d s = setRamByte p (offOf a) d s := by
  simp [memWrite, h]

/-- POKE in IDLE is a render to `tick`, then one write through the address map. -/
theorem exec_poke {s : State} (hs : s.phase = .idle) (a : Addr) (d : Byte) :
    exec (.poke a.toNat d) s = .next (memWrite a d (renderTo s.tick.toNat (openCommand s))) :=
  exec_idleOnly hs rfl (by simp [bodyOf, pokeBody, Except.map])

/-- POKEP in IDLE is a render to `tick`, then one byte of the named page; the slot table is not read. -/
theorem exec_pokep {s : State} (hs : s.phase = .idle) (pg : BitVec 3) (off : BitVec 14) (d : Byte) :
    exec (.pokep pg off d) s = .next
      { renderTo s.tick.toNat s with ram := s.ram.setByte pg off d, response := .none, signals := [] } :=
  exec_idleOnly hs rfl rfl

/-- POKE into ROM is the render alone. -/
theorem exec_poke_rom {s : State} (hs : s.phase = .idle) {a : Addr} {p : BitVec 2} (hp : slotAt s a = .rom p)
    (d : Byte) :
    exec (.poke a.toNat d) s = .next { renderTo s.tick.toNat s with response := .none, signals := [] } := by
  rw [exec_poke hs, memWrite_rom (s := renderTo s.tick.toNat (openCommand s)) hp]
  rfl

/-- POKE into RAM page p does what POKEP does to the same byte. -/
theorem exec_poke_ram {s : State} (hs : s.phase = .idle) {a : Addr} {p : BitVec 3} (hp : slotAt s a = .ram p)
    (d : Byte) : exec (.poke a.toNat d) s = exec (.pokep p (offOf a) d) s := by
  rw [exec_poke hs, exec_pokep hs, memWrite_ram (s := renderTo s.tick.toNat (openCommand s)) hp]
  rfl

/-- Settles O40: the address map sends POKE to ROM or to the byte POKEP would write, and RAM reads back that byte. -/
theorem pokeAndPokepResult : Obligations.PokeAndPokepResult := by
  intro s a pg off d hs hslots hm page r
  refine ⟨fun ha => exec_poke_rom hs (slotAt_rom hslots ha) d,
    fun ha => ⟨s.ram.setByte page (offOf a) d, ?_, fun p o => ?_⟩,
    ⟨s.ram.setByte pg off d, exec_pokep hs pg off d, fun p o => Memory.byte_setByte hm pg p off o d⟩⟩
  · have hpage : slotAt s a = .ram page := by rw [slotAt_ram hslots ha, bankRamsel_eq]
    rw [exec_poke_ram hs hpage, exec_pokep hs]
  · rw [← offOf_eq]
    exact Memory.byte_setByte hm page p (offOf a) o d

/-! ## Construction and RESET (R241, R242, I28) -/

/-- The constraints of R10, as a proposition. -/
theorem RawConfig.valid_iff (r : RawConfig) : r.valid = true ↔
    r.bw % 4 = 0 ∧ 8 ≤ r.bw ∧ 2 * r.bw + 256 ≤ 2 * r.tpl ∧ 1 ≤ r.bt + 192 + r.bb ∧ 1 ≤ r.lpf := by
  simp only [RawConfig.valid, Bool.and_eq_true, decide_eq_true_eq, and_assoc]

/-- A valid configuration is constructed as it stands. -/
theorem construct_of_valid {r : RawConfig} (h : r.valid = true) :
    State.construct r = some (State.ofConfig { toRawConfig := r, ok := h }) := by
  simp [State.construct, Config.accept, h]

/-- An invalid configuration is rejected. -/
theorem construct_of_not_valid {r : RawConfig} (h : ¬ r.valid = true) : State.construct r = none := by
  simp [State.construct, Config.accept, h]

/-- Settles O55: construction tests the constraints and nothing else. -/
theorem constructionChecksTheConfiguration : Obligations.ConstructionChecksTheConfiguration := by
  intro r ok
  have hvalid : r.valid = true ↔ ok := RawConfig.valid_iff r
  rw [← hvalid]
  exact ⟨fun h => ⟨_, rfl, construct_of_valid h⟩, construct_of_not_valid⟩

/-- RESET writes the construction values, but for what it keeps and its outputs. -/
theorem resetState_eq (s : State) : resetState s =
    { State.ofConfig s.cfg with
      tlimEn := s.tlimEn, tlim := s.tlim, flimEn := s.flimEn, flim := s.flim, intSuppress := s.intSuppress,
      portOvr := s.portOvr, phase := s.phase, faults := s.faults, pending := s.pending, freeCount := s.freeCount,
      response := s.response, signals := s.signals } := by
  rw [resetState, slotMap_zero]
  rfl

/-- Settles O39: the elements of construction, the kept ones, and RESET's two signals in order. -/
theorem resetResult : Obligations.ResetResult := by
  intro s hs
  have hexec : exec .reset s = .next (cpuSignal .reset (cpuSignal (.int false) (resetState (openCommand s)))) :=
    exec_idleOnly hs rfl rfl
  rw [hexec, resetState_eq, openCommand_phase, hs]
  rfl

/-! ## SETSP, SETPC and GETGEOM (R246, R247, R249) -/

/-- Settles O41: each command appends its one signal to the outputs the command started with, which are none. -/
theorem setspAndSetpcResult : Obligations.SetspAndSetpcResult := fun _ _ hs =>
  ⟨exec_idleOnly hs rfl rfl, exec_idleOnly hs rfl rfl⟩

/-- Settles O42: the answer is the width and height of R11 with the borders they are made of. -/
theorem getgeomResult : Obligations.GetgeomResult := fun _ hs => exec_idleOnly hs rfl rfl

end Sys2Proof.Machine
end

section
/-! The statement of 44_pixel_translator.md: GETFRAME. The image is one list over the pixel positions in row-major order,
and each of its words is the translation of one colour index. -/
namespace Sys2Proof.Machine

/-! ## Row-major order (R270) -/

/-- The row and the column of position `r * w + x`. -/
theorem rowMajor_div_mod {w x : Nat} (r : Nat) (hx : x < w) : (r * w + x) / w = r ∧ (r * w + x) % w = x :=
  ⟨by rw [Nat.mul_comm, Nat.mul_add_div (by omega), Nat.div_eq_of_lt hx, Nat.add_zero], Nat.mul_add_mod_of_lt hx⟩

/-- Rows of width w, one after another, are one list over the positions, row `k / w` and column `k % w` at position k. -/
theorem flatMap_range_eq_map_range {α : Type} (f : Nat → Nat → α) (h w : Nat) :
    ((List.range h).flatMap fun r => (List.range w).map fun x => f r x) =
      (List.range (h * w)).map fun k => f (k / w) (k % w) := by
  induction h with
  | zero => simp
  | succ h ih =>
    have hrow : ∀ x ∈ List.range w, f h x = f ((h * w + x) / w) ((h * w + x) % w) := by
      intro x hx
      obtain ⟨hdiv, hmod⟩ := rowMajor_div_mod h (List.mem_range.mp hx)
      rw [hdiv, hmod]
    rw [List.range_succ, List.flatMap_append, ih, List.flatMap_singleton, List.map_congr_left hrow, Nat.succ_mul,
      List.range_add, List.map_append, List.map_map]
    rfl

/-- The image has one word per pixel position. -/
theorem frameImage_eq (s : State) : frameImage s = (List.range (s.cfg.height * s.cfg.width)).map fun k =>
    rgba s.cfg (pixelAt s.video (k / s.cfg.width) (k % s.cfg.width)) :=
  flatMap_range_eq_map_range ..

theorem length_frameImage (s : State) : (frameImage s).length = s.cfg.width * s.cfg.height := by
  rw [frameImage_eq, List.length_map, List.length_range, Nat.mul_comm]

theorem getElem?_frameImage {s : State} {r x : Nat} (hr : r < s.cfg.height) (hx : x < s.cfg.width) :
    (frameImage s)[r * s.cfg.width + x]? = some (rgba s.cfg (pixelAt s.video r x)) := by
  obtain ⟨hdiv, hmod⟩ := rowMajor_div_mod r hx
  have hlt : r * s.cfg.width + x < s.cfg.height * s.cfg.width :=
    (Nat.div_lt_iff_lt_mul (by omega)).mp (hdiv.symm ▸ hr)
  rw [frameImage_eq, List.getElem?_map, List.getElem?_range hlt, Option.map_some, hdiv, hmod]

/-! ## Colour indices as numbers (R271) -/

theorem pixelAt_toNat (v : Video) (r x : Nat) :
    (pixelAt v r x).toNat = (chunkAt v r (x / 8)).toNat / 2 ^ (4 * (x % 8)) % 16 := by
  rw [pixelAt, BitVec.extractLsb'_toNat, Nat.shiftRight_eq_div_pow]

/-- Bit 3 of a colour index chooses the level. -/
theorem getLsbD_three_iff (n : BitVec 4) : n.getLsbD 3 = true ↔ n.toNat / 8 = 1 := by
  rw [BitVec.getLsbD, Nat.testBit_eq_decide_div_mod_eq, decide_eq_true_iff]
  omega

/-- `rgba` in terms of the index as a number. -/
theorem rgba_toNat_of_index (c : Config) (n : BitVec 4) :
    let lvl := if n.toNat / 8 = 1 then c.lBright.toNat else c.lNormal.toNat
    (rgba c n).toNat = 0xFF * 2 ^ 24 + (n.toNat % 2 * lvl) * 2 ^ 16 + (n.toNat / 4 % 2 * lvl) * 2 ^ 8
      + n.toNat / 2 % 2 * lvl := by
  have hbit (i : Nat) : (n.getLsbD i).toNat = n.toNat / 2 ^ i % 2 := Nat.toNat_testBit ..
  simp only [rgba_toNat, getLsbD_three_iff, apply_ite BitVec.toNat, hbit, pow_zero, Nat.div_one]
  norm_num

/-! ## GETFRAME -/

/-- Settles O43: GETFRAME answers the image it finds, and the image is W*H translated indices in row-major order. -/
theorem getframeResult : Obligations.GetframeResult := by
  intro s hs W H
  refine ⟨frameImage s, exec_idleOnly hs rfl rfl, length_frameImage s, fun r x hr hx =>
    ⟨rgba s.cfg (pixelAt s.video r x), getElem?_frameImage hr hx, ?_⟩⟩
  rw [← pixelAt_toNat]
  exact rgba_toNat_of_index s.cfg _

end Sys2Proof.Machine
end

section
/-! The statements of 60_exceptions.md: the outcomes of a command, and the wait between commands. -/
namespace Sys2Proof.Machine

/-! ## The outcomes of a command (R280, R282, R283) -/

/-- Settles O8: a command is not admitted, has an effect, or has an effect that faults. Only the fault adds a record, and
an effect starts from an answer of nothing. -/
theorem everyCommandEndsInOneOutcome : Obligations.EveryCommandEndsInOneOutcome := by
  intro i s
  obtain ⟨t, ht⟩ := exec_next i s
  refine ⟨t, ht, ?_⟩
  obtain ⟨c, -, hrefused⟩ | ⟨-, heffect⟩ | ⟨-, f, rfl⟩ := exec_completes ht
  · exact .inl ⟨c, hrefused⟩
  · obtain ⟨-, -, hfaults⟩ := heffect.keeps
    exact .inr (.inr ⟨hfaults, heffect.answer rfl⟩)
  · exact .inr (.inl ⟨f.code, f.info, encode i, fun _ => rfl, rfl, fun _ => mem_addFault⟩)

/-! ## Between commands (R293) -/

/-- Settles O7: an empty stream has no request to take. -/
theorem stepWithoutRequestHolds : Obligations.StepWithoutRequestHolds := fun _ => step_empty

end Sys2Proof.Machine
end

section
/-! The statements of 70_reset_and_hazards.md: the construction column of the reset table, and a STOP outside a run. -/
namespace Sys2Proof.Machine

/-! ## Construction (R310, R311) -/

/-- The chunk buffer starts all 0, and `chunkAt` reads 0 outside it (R44). -/
@[simp] theorem chunkAt_reset (c : Config) (r k : Nat) : chunkAt (Video.reset c) r k = 0 := by
  change ((List.replicate c.height (List.replicate c.chunksPerRow 0)).getD r []).getD k 0 = 0
  by_cases hr : r < c.height
  · rw [List.getD_replicate _ hr, List.getD_eq_getElem?_getD, List.getElem?_getD_replicate_default_eq]
  · have hrow : (List.replicate c.height (List.replicate c.chunksPerRow (0 : Word))).getD r [] = [] :=
      List.getD_eq_default _ _ (by simpa using hr)
    rw [hrow, List.getD_nil]

/-- Settles O56: the chunk buffer reads 0; RAM, marks and injected ports are empty tables, which read as their defaults;
every other element stands in `State.ofConfig`. -/
theorem constructionValues : Obligations.ConstructionValues := by
  intro c s
  have hram : ∀ p o, ramByte s p o = 0 := fun _ _ => rfl
  have hmarks : ∀ a, markAt s a = 0 := fun _ => rfl
  have hports : ∀ p, portValue s p = none := fun _ => rfl
  exact ⟨hram, rfl, rfl, rfl, rfl, rfl, rfl, rfl, rfl, rfl, chunkAt_reset c, rfl, rfl, rfl, rfl, rfl, rfl, hmarks,
    rfl, rfl, rfl, rfl, rfl, rfl, rfl, hports, rfl, rfl, rfl⟩

/-! ## STOP in IDLE (R314) -/

/-- RUN clears the event mask before anything reads it (R211): it answers alike from every mask. -/
theorem exec_run_of_events {s : State} (hs : s.phase = .idle) (e : Byte) :
    exec .run { openCommand s with events := e } = exec .run s := by
  have hend : frameEnded { openCommand s with events := e } = frameEnded s := rfl
  rw [exec_run (s := { openCommand s with events := e }) hs, exec_run hs, hend]
  cases frameEnded s
  · rfl
  · rfl

/-- Settles O36: STOP leaves only its event bit and an answer of nothing, and RUN keeps neither. -/
theorem stopWhileIdleIsLost : Obligations.StopWhileIdleIsLost := by
  intro s u hs hstop
  rw [stopResult s] at hstop
  cases hstop
  exact exec_run_of_events hs (s.events ||| 0x01)

end Sys2Proof.Machine
end
